-- ==== Sys2Proof/Word.lean ====
section
/-! DEFINITION. Word types: the byte, the unsigned 32-bit and 4-bit values of the header, and byte sequences (00_scope.md R15). -/

namespace Sys2Proof

/-- `Byte` of R15: an integer 0..255; a byte is 8 bits everywhere (R32). -/
abbrev Byte := BitVec 8

/-- `u32` of R15: an integer 0..2^32-1, always read as unsigned (R50, R118). -/
abbrev U32 := BitVec 32

/-- `u4` of R15: an integer 0..15 (the size class). -/
abbrev U4 := BitVec 4

/-- `Bytes` of R15: a finite sequence of bytes, index 0 first, in wire order. -/
abbrev Bytes := List Byte

end Sys2Proof
end

