-- ==== Sys2Proof/Config.lean ====
section
/-! DEFINITION. What is fixed for one machine and never changes as it runs: the constants of R8, the external
collaborators of R10 and R11, the open parameter of R13, and the free values of R207. A collaborator, the open parameter
and a free value have NO body: nothing in Lean can evaluate them, so a proved claim holds whatever they are. -/

namespace Sys2Proof.Config

/-- `HEADER_LEN` of R8. -/
def headerLen : Nat := 13

/-- `MAGIC_LEN` of R8. -/
def magicLen : Nat := 8

/-- `SC_BASE` of R8. -/
def scBase : Nat := 10

/-- `MIN_BLOCK_SIZE` of R8, 2^6. -/
def minBlockSize : Nat := 64

/-- `MAX_BLOCK_SIZE` of R8, 2^25. -/
def maxBlockSize : Nat := 33554432

/-- The two values of `EOF_AT_BOUNDARY` (R13). -/
inductive EofAtBoundary where
  | clean
  | truncation
deriving DecidableEq, Repr, Inhabited

/-- The backend's own error, carried as a token and propagated as it is (R205). -/
abbrev BackendError := Nat

/-- What `COMPRESS` or `DECOMPRESS` answers: bytes or a backend error (R11). -/
inductive BackendAnswer where
  | bytes (b : Bytes)
  | error (e : BackendError)
deriving DecidableEq, Repr, Inhabited

/-- `HASH32` of R10 away from the one value the source fixes; the whole function is `Sys2Proof.hash32` (log entry 1). -/
opaque hash32Elsewhere : Bytes → U32

/-- `COMPRESS` of R11: pure and stateless, so a function of the original bytes (log entry 2). -/
opaque compress : Bytes → BackendAnswer

/-- `DECOMPRESS` of R11, applied to the stored bytes and the expected original length (log entry 2). -/
opaque decompress : Bytes → Nat → BackendAnswer

/-- `EOF_AT_BOUNDARY` of R13, left open: a claim holds for both values (log entry 3). -/
opaque eofAtBoundary : EofAtBoundary

/-- Free value: what `TX.ABUF` holds after a TX failure, "left with unspecified values" (R207; log entry 4). -/
opaque freeAbuf : Nat → Bytes

/-- Free value: what `TX.PROLOGUE_DONE` holds after a TX failure (R207; log entry 4). -/
opaque freePrologueDone : Nat → Bool

end Sys2Proof.Config
end

