-- ==== Sys2Proof/Syntax.lean ====
section
/-! DEFINITION. The instruction set: the four wire records, the five host commands and the nineteen operations of
spec/opcode_table.json (30_encoding.md R80 to R89), one constructor a row; and the forms in which the records and the
commands are presented at the hardware's ports. -/

namespace Sys2Proof

/-- "the two token states" (R19, R82): how a payload is stored. -/
inductive Method where
  | raw
  | lz4
deriving DecidableEq, Repr, Inhabited

/-- One constructor per row of spec/opcode_table.json. -/
inductive Instr where
  /-- PROLOGUE: the 8 bytes MAGIC at the start of the wire (R81, R173). -/
  | prologue
  /-- END: the end-of-stream marker; its size class is any (R85, R176). -/
  | endMarker (sc : U4)
  /-- BLK.RAW: a RAW header; `len` is both compressedLength and originalLength (R83, R177). -/
  | blkRaw (sc : U4) (len csum : U32)
  /-- BLK.LZ4: an LZ4 header (R178). -/
  | blkLz4 (sc : U4) (clen olen csum : U32)
  /-- TX.CONFIG with the requested block size (R140). -/
  | txConfig (bs : U32)
  /-- TX.WRITE with the host's data, of any length (R141). -/
  | txWrite (data : Bytes)
  /-- TX.FLUSH (R142). -/
  | txFlush
  /-- TX.FINISH (R143). -/
  | txFinish
  /-- RX.READ: `n` is the most bytes the host will take (R170). -/
  | rxRead (n : Nat)
  /-- LE32.ENC (R110). -/
  | le32Enc (v : U32)
  /-- LE32.DEC of a 4-byte sequence (R111). -/
  | le32Dec (b : Bytes)
  /-- TOK.ENC (R112). -/
  | tokEnc (method : Method) (sc : U4)
  /-- TOK.DEC (R113). -/
  | tokDec (t : Byte)
  /-- SC.OF of a legal block size (R114). -/
  | scOf (bs : U32)
  /-- HDR.PACK (R115). -/
  | hdrPack (token : Byte) (clen olen csum : U32)
  /-- HDR.UNPACK of a 13-byte sequence (R116). -/
  | hdrUnpack (h : Bytes)
  /-- HDR.CLASSIFY (R117). -/
  | hdrClassify (token : Byte) (clen olen csum : U32)
  /-- CK.GEN (R130). -/
  | ckGen (orig : Bytes)
  /-- CK.VERIFY (R131). -/
  | ckVerify (orig : Bytes) (expected : U32)
  /-- TX.PROLOGUE (R145). -/
  | txPrologue
  /-- TX.BLOCK of one block's original bytes (R146). -/
  | txBlock (orig : Bytes)
  /-- TX.MARKER (R147). -/
  | txMarker
  /-- RX.INIT (R173). -/
  | rxInit
  /-- RX.REFILL (R174). -/
  | rxRefill
  /-- RX.PAYLOAD with the fields of a `Data` verdict (R177 to R179). -/
  | rxPayload (method : Method) (clen olen csum : U32)
  /-- SrcGet: read exactly `n` bytes of the source (R17). -/
  | srcGet (n : Nat)
  /-- SinkPut: write all of `b` to the sink (R17). -/
  | sinkPut (b : Bytes)
  /-- SinkFlush (R17). -/
  | sinkFlush
deriving DecidableEq, Repr

/-- A transaction at port `tx_cmd` (R88): the 2-bit `op` and the operands; the operand of another command is not looked at. -/
structure TxCmd where
  op        : BitVec 2
  blockSize : U32
  data      : Bytes
deriving DecidableEq, Repr

/-- A transaction at port `rx_cmd` (R88): the 1-bit `op` (value 1 reserved) and the operand `n`. -/
structure RxCmd where
  op : BitVec 1
  n  : Nat
deriving DecidableEq, Repr

/-- An encoded instruction where the hardware meets it: the bytes at wire offset 0 (format P8), the bytes at a later record
position (format H13), or a transaction at one of the two command ports. A payload is not part of the encoding: RX fetches
it from the source after the header (R80, R83). -/
inductive Encoded where
  | wireStart (b : Bytes)
  | wireRecord (b : Bytes)
  | tx (c : TxCmd)
  | rx (c : RxCmd)
deriving DecidableEq, Repr

end Sys2Proof
end

