-- ==== Sys2Proof/Machine/Operands.lean ====
section
/-! DEFINITION. The header codec (HSER, HDES) and the checksum validator (CKV) as pure functions of their operands
(40_header_codec.md, 41_checksum.md), and the operand checks the rules state. Nothing here reads or writes a register. -/

namespace Sys2Proof

/-- `MAGIC` of R8 and R81, in wire order. -/
def magic : Bytes := [0x4C, 0x5A, 0x34, 0x42, 0x6C, 0x6F, 0x63, 0x6B]

/-- The method's code, the token's high nibble in place (R82): RAW 0x10, LZ4 0x20. -/
def Method.code : Method → Byte
  | .raw => 0x10
  | .lz4 => 0x20

/-- A natural number is a power of two. -/
def isPowerOfTwo (n : Nat) : Bool := decide (n = 2 ^ n.log2)

/-- A legal block size: one of the 20 powers of two 2^6 .. 2^25 (R9). -/
def legalBlockSize (n : Nat) : Bool :=
  decide (Config.minBlockSize ≤ n) && decide (n ≤ Config.maxBlockSize) && isPowerOfTwo n

/-! ### Field level: byte order, token, size class -/

/-- LE32.ENC (R110): least significant byte first. -/
def le32Enc (v : U32) : Bytes :=
  [v.extractLsb' 0 8, v.extractLsb' 8 8, v.extractLsb' 16 8, v.extractLsb' 24 8]

/-- LE32.DEC (R111), the unsigned sum over the four bytes; used on 4-byte sequences. -/
def le32Dec (b : Bytes) : U32 :=
  BitVec.ofNat 32 ((b.getD 0 0).toNat + (b.getD 1 0).toNat * 2 ^ 8 + (b.getD 2 0).toNat * 2 ^ 16 + (b.getD 3 0).toNat * 2 ^ 24)

/-- TOK.ENC (R112): `method | sc`. -/
def tokEnc (m : Method) (sc : U4) : Byte := m.code ||| sc.setWidth 8

/-- TOK.DEC (R113): `(t & 0xF0, t & 0x0F)`, total; whether the method is legal is judged by HDR.CLASSIFY. -/
def tokDec (t : Byte) : Byte × U4 := (t &&& 0xF0, (t &&& 0x0F).setWidth 4)

/-- SC.OF (R114): `max(0, log2(bs) - 10)`; the subtraction of naturals stops at 0. -/
def scOf (bs : Nat) : U4 := BitVec.ofNat 4 (bs.log2 - Config.scBase)

/-! ### Header level -/

/-- The four fields of a header (R82, R116): operands of the codec, not registers (R25). -/
structure Header where
  token : Byte
  clen  : U32
  olen  : U32
  csum  : U32
deriving DecidableEq, Repr

/-- HDR.PACK (R115): serialises whatever it is given. -/
def hdrPack (h : Header) : Bytes := [h.token] ++ le32Enc h.clen ++ le32Enc h.olen ++ le32Enc h.csum

/-- HDR.UNPACK (R116), used on 13-byte sequences. -/
def hdrUnpack (h : Bytes) : Header :=
  { token := h.getD 0 0
    clen  := le32Dec ((h.drop 1).take 4)
    olen  := le32Dec ((h.drop 5).take 4)
    csum  := le32Dec ((h.drop 9).take 4) }

/-- The reasons of a `Malformed` verdict (R117); informative only, all are one error kind. -/
inductive MalformedReason where
  | badMethod
  | originalTooLarge
  | sizeClass
  | rawLength
  | lz4Length
  | emptyBlock
deriving DecidableEq, Repr

/-- The verdicts of HDR.CLASSIFY (R117). -/
inductive Verdict where
  | marker
  | data (method : Method) (clen olen csum : U32)
  | malformed (reason : MalformedReason)
deriving DecidableEq, Repr

/-- The relation between the two lengths of a data block (R117 (d), (e)): equal for RAW, strictly less for LZ4. -/
def lengthsAgree (m : Method) (clen olen : U32) : Bool :=
  match m with
  | .raw => decide (clen = olen)
  | .lz4 => decide (clen.toNat < olen.toNat)

/-- The size-class bound of R117 (c): olen ≤ 2^(10 + sc). -/
def withinSizeClass (sc : U4) (olen : U32) : Bool :=
  decide (olen.toNat ≤ 2 ^ (Config.scBase + sc.toNat))

/-- What the two lengths of a `Data` verdict satisfy (R117 (h)): 1 ≤ olen ≤ 2^25 and the method's relation. -/
def dataLengths (m : Method) (clen olen : U32) : Bool :=
  decide (1 ≤ olen.toNat) && decide (olen.toNat ≤ Config.maxBlockSize) && lengthsAgree m clen olen

/-- The token's high nibble as a method, or none for the fourteen illegal values (R86 (b)). -/
def methodOf (code : Byte) : Option Method :=
  if code = Method.raw.code then some .raw
  else if code = Method.lz4.code then some .lz4
  else none

/-- HDR.CLASSIFY (R117), the tests (a) to (h) in the rule's order. -/
def hdrClassify (h : Header) : Verdict :=
  match methodOf (tokDec h.token).1 with
  | none => .malformed .badMethod
  | some m =>
    if Config.maxBlockSize < h.olen.toNat then .malformed .originalTooLarge
    else if withinSizeClass (tokDec h.token).2 h.olen = false then .malformed .sizeClass
    else if m = .raw ∧ h.clen ≠ h.olen then .malformed .rawLength
    else if m = .lz4 ∧ h.olen.toNat ≤ h.clen.toNat then .malformed .lz4Length
    else if h.olen = 0 ∧ h.csum ≠ 0 then .malformed .emptyBlock
    else if h.olen = 0 then .marker
    else .data m h.clen h.olen h.csum

/-- The 104-bit little-endian value `H` of a 13-byte header (R82): byte `k` at bits 8k+7 .. 8k. -/
def wireValue : Bytes → Nat
  | [] => 0
  | b :: bs => b.toNat + 2 ^ 8 * wireValue bs

/-! ### Checksum -/

/-- `HASH32` (R10): the one value the source fixes, HASH32([46,46,46]) = 0x0677E452, and open elsewhere. -/
def hash32 (b : Bytes) : U32 :=
  if b = [0x2E, 0x2E, 0x2E] then 0x0677E452 else Config.hash32Elsewhere b

/-- CK.GEN (R130). -/
def ckGen (orig : Bytes) : U32 := hash32 orig

/-- The verdicts of CK.VERIFY (R131). -/
inductive CkVerdict where
  | same
  | mismatch
deriving DecidableEq, Repr

/-- CK.VERIFY (R131): equality of all 32 bits. -/
def ckVerify (orig : Bytes) (expected : U32) : CkVerdict :=
  if hash32 orig = expected then .same else .mismatch

/-! ### Buffer access (R16) -/

/-- `MemRead(buf, i, n)`: `n` bytes at byte index `i` of a block buffer. -/
def memRead (buf : Bytes) (i n : Nat) : Bytes := (buf.drop i).take n

/-- `MemWrite(buf, i, n, v)` with `n = |v|`: writes `v` at byte index `i`. -/
def memWrite (buf : Bytes) (i : Nat) (v : Bytes) : Bytes := buf.take i ++ v ++ buf.drop (i + v.length)

/-! ### What TX.BLOCK puts (R146) -/

/-- Method and payload from the backend's answer: LZ4 only if strictly smaller. -/
def selectMethod (orig c : Bytes) : Method × Bytes :=
  if c.length < orig.length then (.lz4, c) else (.raw, orig)

/-- The header of the block that stores `orig` as `payload` by method `m`, in size class `sc`. -/
def blockHeader (sc : U4) (m : Method) (payload orig : Bytes) : Bytes :=
  hdrPack { token := tokEnc m sc
            clen := BitVec.ofNat 32 payload.length
            olen := BitVec.ofNat 32 orig.length
            csum := ckGen orig }

/-- The 13 bytes of the end marker in size class `sc` (R147). -/
def markerBytes (sc : U4) : Bytes := hdrPack { token := tokEnc .raw sc, clen := 0, olen := 0, csum := 0 }

end Sys2Proof
end

