-- ==== Sys2Proof/WellFormed.lean ====
section
/-! DEFINITION. Which instructions are well formed: the operand restrictions the rules of spec/ state for each row, checked
on the instruction alone. -/

namespace Sys2Proof

/-- The operand restrictions of each row. -/
def WellFormed : Instr → Bool
  | .prologue => true
  | .endMarker _ => true
  | .blkRaw sc len _ => dataLengths .raw len len && withinSizeClass sc len
  | .blkLz4 sc clen olen _ => dataLengths .lz4 clen olen && withinSizeClass sc olen
  | .txConfig _ => true
  | .txWrite _ => true
  | .txFlush => true
  | .txFinish => true
  | .rxRead n => decide (1 ≤ n)
  | .le32Enc _ => true
  | .le32Dec b => decide (b.length = 4)
  | .tokEnc _ _ => true
  | .tokDec _ => true
  | .scOf bs => legalBlockSize bs.toNat
  | .hdrPack _ _ _ _ => true
  | .hdrUnpack h => decide (h.length = Config.headerLen)
  | .hdrClassify _ _ _ _ => true
  | .ckGen _ => true
  | .ckVerify _ _ => true
  | .txPrologue => true
  | .txBlock orig => decide (1 ≤ orig.length) && decide (orig.length ≤ Config.maxBlockSize)
  | .txMarker => true
  | .rxInit => true
  | .rxRefill => true
  | .rxPayload m clen olen _ => dataLengths m clen olen
  | .srcGet _ => true
  | .sinkPut _ => true
  | .sinkFlush => true

end Sys2Proof
end

