-- ==== Sys2Proof/Decode.lean ====
section
/-! DEFINITION. The decoder of the wire records and the port transactions, total on any bytes and rejecting by name; the
encoder; and the host's numbering of a table row's bits (30_encoding.md R80 to R88). -/

namespace Sys2Proof

/-- Why a decode is rejected. -/
inductive DecodeError where
  /-- Fewer or more than 8 bytes where a P8 is expected. -/
  | prologueLength
  /-- Eight bytes that differ from MAGIC (R86 (a)). -/
  | badMagic
  /-- Fewer or more than 13 bytes where an H13 is expected. -/
  | headerLength
  /-- An illegal header (R86 (b), (c)). -/
  | malformed (reason : MalformedReason)
  /-- `rx_cmd.op` = 1, reserved (R88). -/
  | rxReservedOp
deriving DecidableEq, Repr

/-- The record at wire offset 0 (R81). -/
def decodeStart (b : Bytes) : Except DecodeError Instr :=
  if b.length ≠ Config.magicLen then .error .prologueLength
  else if b = magic then .ok .prologue
  else .error .badMagic

/-- The record whose 13-byte header stands at a later record position (R85, R117). END is tested before BLK.RAW: a marker
verdict is given exactly to the headers R85's END row matches (stated as an obligation). -/
def decodeRecord (b : Bytes) : Except DecodeError Instr :=
  if b.length ≠ Config.headerLen then .error .headerLength
  else
    let h := hdrUnpack b
    match hdrClassify h with
    | .marker => .ok (.endMarker (tokDec h.token).2)
    | .data .raw _ olen csum => .ok (.blkRaw (tokDec h.token).2 olen csum)
    | .data .lz4 clen olen csum => .ok (.blkLz4 (tokDec h.token).2 clen olen csum)
    | .malformed r => .error (.malformed r)

/-- `tx_cmd` (R88): all four values of the 2-bit `op` are commands. -/
def decodeTx (c : TxCmd) : Instr :=
  if c.op = 0 then .txConfig c.blockSize
  else if c.op = 1 then .txWrite c.data
  else if c.op = 2 then .txFlush
  else .txFinish

/-- `rx_cmd` (R88): `op` 0 is RX.READ, 1 is reserved. -/
def decodeRx (c : RxCmd) : Except DecodeError Instr :=
  if c.op = 0 then .ok (.rxRead c.n) else .error .rxReservedOp

/-- The decoder. -/
def decode : Encoded → Except DecodeError Instr
  | .wireStart b => decodeStart b
  | .wireRecord b => decodeRecord b
  | .tx c => .ok (decodeTx c)
  | .rx c => decodeRx c

/-- The encoder, from the tables of R81, R82, R85 and R88. An operation has no encoding (R89). -/
def encode : Instr → Option Encoded
  | .prologue => some (.wireStart magic)
  | .endMarker sc => some (.wireRecord (hdrPack { token := 0x10 ||| sc.setWidth 8, clen := 0, olen := 0, csum := 0 }))
  | .blkRaw sc len csum =>
      some (.wireRecord (hdrPack { token := 0x10 ||| sc.setWidth 8, clen := len, olen := len, csum := csum }))
  | .blkLz4 sc clen olen csum =>
      some (.wireRecord (hdrPack { token := 0x20 ||| sc.setWidth 8, clen := clen, olen := olen, csum := csum }))
  | .txConfig bs => some (.tx { op := 0, blockSize := bs, data := [] })
  | .txWrite data => some (.tx { op := 1, blockSize := 0, data := data })
  | .txFlush => some (.tx { op := 2, blockSize := 0, data := [] })
  | .txFinish => some (.tx { op := 3, blockSize := 0, data := [] })
  | .rxRead n => some (.rx { op := 0, n := n })
  | .le32Enc _ => none
  | .le32Dec _ => none
  | .tokEnc _ _ => none
  | .tokDec _ => none
  | .scOf _ => none
  | .hdrPack _ _ _ _ => none
  | .hdrUnpack _ => none
  | .hdrClassify _ _ _ _ => none
  | .ckGen _ => none
  | .ckVerify _ _ => none
  | .txPrologue => none
  | .txBlock _ => none
  | .txMarker => none
  | .rxInit => none
  | .rxRefill => none
  | .rxPayload _ _ _ _ => none
  | .srcGet _ => none
  | .sinkPut _ => none
  | .sinkFlush => none

/-! ### The host's numbering of a table row -/

/-- The `n` bytes of the number `w`, least significant first: wire order, since byte `k` of a record is at bits 8k+7 .. 8k
(R81, R82). -/
def bytesOfNat : Nat → Nat → Bytes
  | 0, _ => []
  | n + 1, w => BitVec.ofNat 8 w :: bytesOfNat n (w / 256)

/-- A table row's word as the hardware would meet it (DESIGN CHOICE, log entry 5). A 64-bit word is a P8. A word of 104 bits
or more, or a shorter one whose first byte has a legal method nibble, is an H13. Every other word is a command: `op` in the
low bits of the first byte, the port in bit 7 of it (0 `tx_cmd`, 1 `rx_cmd`), the operand in the bits from 8 up. -/
def encodedOfTableWord (nbits w : Nat) : Encoded :=
  let v := w % 2 ^ nbits
  if nbits = 64 then .wireStart (bytesOfNat Config.magicLen v)
  else if 104 ≤ nbits ∨ v / 16 % 16 = 1 ∨ v / 16 % 16 = 2 then .wireRecord (bytesOfNat Config.headerLen v)
  else if v / 128 % 2 = 1 then .rx { op := BitVec.ofNat 1 v, n := v / 256 }
  else .tx { op := BitVec.ofNat 2 v, blockSize := BitVec.ofNat 32 (v / 256), data := bytesOfNat (nbits / 8 - 1) (v / 256) }

/-- The instruction the decoder reads from a table row's word, none where it rejects it. -/
def decodeTableWord (nbits w : Nat) : Option Instr :=
  match decode (encodedOfTableWord nbits w) with
  | .ok i => some i
  | .error _ => none

end Sys2Proof
end

