-- ==== Sys2Proof/Machine/State.lean ====
section
/-! DEFINITION. The machine's state as plain data: the registers of TX and RX (10_state.md R21, R22), the two endpoints
(R12, R17, R33), the ports (R88), the reasons a step stops, and the state after reset (R34, R230). -/

namespace Sys2Proof.Machine

/-! ### Why a step stops -/

/-- A step that never ends: the machine is stuck (93_implementation_defined.md U12). -/
inductive Fault where
  /-- Raised by SrcGet when the source never answers a request: the command hangs for ever (R244, U12). Safe: no next state. -/
  | sourceNeverAnswers
  /-- Raised by SinkPut when the sink never answers a write request (R244, U12). Safe: no next state. -/
  | sinkNeverAnswers
  /-- Raised by SinkFlush when the sink never answers a flush request (R244, U12). Safe: no next state. -/
  | flushNeverAnswers
  /-- Raised by TX.WRITE when R141's loop makes no progress, which needs |ABUF| ≥ BLOCK_SIZE in Ready: no run reaches it (R23).
  Safe: no next state. -/
  | writeNeverEnds
deriving DecidableEq, Repr

/-- A situation the spec gives no meaning (`refuse`, R18): no next state. -/
inductive Refusal where
  /-- Raised by exec for an instruction that has no meaning yet. Safe: no next state. -/
  | notModelled (mnemonic : String)
  /-- Raised by TX.WRITE, TX.FLUSH, TX.FINISH in Unconfigured (R144). Safe. -/
  | txUnconfigured
  /-- Raised by TX.CONFIG in Ready and in Finished (R144). Safe. -/
  | txAlreadyConfigured
  /-- Raised by every TX command in Failed (R144, U2). Safe. -/
  | txFailed
  /-- Raised by RX.READ with n = 0 (R170, U13). Safe. -/
  | rxReadZero
  /-- Raised by RX.READ in Failed with no latched error, which no run reaches (R23). Safe. -/
  | rxFailedWithoutError
  /-- Raised by step for `rx_cmd.op` = 1 (R88, U13), or for an encoding the decoder rejects. Safe. -/
  | undecodable
  /-- Raised by an operation of TX outside Ready: only commands that execute in Ready invoke it (R89, R144). Safe. -/
  | txOperationOutOfState
  /-- Raised by a record or an operation of RX in a state in which RX does not fetch it (R28, R89, R170). Safe. -/
  | rxOperationOutOfState
  /-- Raised by an operation whose stated precondition on its operands fails (R111, R114, R116, R146, R177). Safe. -/
  | operandOutOfDomain
  /-- Raised when the host writes the sink by another path while TX uses it (R215, U15). Safe. -/
  | sinkInUse
  /-- Raised when the host reads the source by another path while RX uses it (R215, U15). Safe. -/
  | sourceInUse
deriving DecidableEq, Repr

/-! ### Errors -/

/-- The six error kinds (R200). -/
inductive ErrKind where
  | config
  | format
  | corruption
  | truncation
  | backend
  | io
deriving DecidableEq, Repr

/-- An endpoint's own error, carried as a token and propagated verbatim (R208). -/
abbrev EndpointError := Nat

/-- The informative sub-reason of an error (R200; log entry 19), which no rule tests. -/
inductive ErrInfo where
  | outOfRange
  | notPowerOfTwo
  | badMagic
  | shortPrologue
  | malformed (reason : MalformedReason)
  | useAfterFinish
  | midHeader
  | midPayload
  | noMarker
  | backendError (e : Config.BackendError)
  | inconsistentLength
  | endpointError (e : EndpointError)
  | writeZero
deriving DecidableEq, Repr

/-- What `raise K(info)` is given (R18): the kind, and the sub-reason where R200 has one. A CorruptionError has none (R179,
R200). -/
structure Raise where
  kind : ErrKind
  info : Option ErrInfo
deriving DecidableEq, Repr

/-- The two framers (R2). -/
inductive Framer where
  | tx
  | rx
deriving DecidableEq, Repr

/-! ### Registers of TX (R21) -/

/-- `TX.STATE` (R27). -/
inductive TxState where
  | unconfigured
  | ready
  | finished
  | failed
deriving DecidableEq, Repr

/-- The registers of TX (R21). -/
structure Tx where
  /-- `TX.STATE`. -/
  state : TxState
  /-- `TX.BLOCK_SIZE`, one of 2^6 .. 2^25 once configured. -/
  blockSize : Nat
  /-- `TX.SC`. -/
  sc : U4
  /-- `TX.ABUF`. -/
  abuf : Bytes
  /-- `TX.PROLOGUE_DONE`. -/
  prologueDone : Bool
  /-- `TX.POS`, unbounded (R26). -/
  pos : Nat
deriving DecidableEq, Repr

/-! ### Registers of RX (R22) -/

/-- `RX.STATE` (R28). -/
inductive RxState where
  | uninitialized
  | idle
  | decodingBlock
  | terminated
  | failed
deriving DecidableEq, Repr

/-- The registers of RX (R22). -/
structure Rx where
  /-- `RX.STATE`. -/
  state : RxState
  /-- `RX.DBUF`. -/
  dbuf : Bytes
  /-- `RX.DCUR`. -/
  dcur : Nat
  /-- `RX.ERR`. -/
  err : Option ErrKind
  /-- `RX.POS`, unbounded (R26). -/
  pos : Nat
deriving DecidableEq, Repr

/-! ### Endpoints (R12, R17, R33) -/

/-- The source's choice for one request SrcRead(k) (R17, U11, U12; log entry 6). -/
inductive SrcAnswer where
  /-- Up to `extra + 1` of the bytes it holds, or `End` if it holds none. -/
  | data (extra : Nat)
  | ioError (e : EndpointError)
  | never
deriving DecidableEq, Repr

/-- The source: the bytes it still holds, and how it answers (R12, R32). -/
structure Source where
  /-- The bytes not yet consumed, in stream order. -/
  rest : Bytes
  /-- Its choices for the coming requests; when used up, a request gets all it asks for (log entry 6). -/
  answers : List SrcAnswer
  /-- The sizes of the requests made so far, the latest first (R53, R54). -/
  requests : List Nat
  /-- RX has made a request since its reset (R215). -/
  used : Bool
deriving DecidableEq, Repr

/-- The sink's choice for one request SinkWrite(b) (R17, U11, U12; log entry 6). -/
inductive SinkAnswer where
  /-- Accepts the first min(c, |b|) bytes and says so; 0 becomes WriteZero (R208). -/
  | count (c : Nat)
  /-- Reports an error, having taken some bytes all the same: "an unspecified prefix" (R17). -/
  | ioError (taken : Nat) (e : EndpointError)
  | never
deriving DecidableEq, Repr

/-- The sink's choice for one request SinkFlush (R17, U12). -/
inductive FlushAnswer where
  | ok
  | ioError (e : EndpointError)
  | never
deriving DecidableEq, Repr

/-- The sink: the bytes it has accepted, and how it answers (R12, R33). -/
structure Sink where
  /-- The accepted byte sequence, oldest first (R33 (a)). -/
  accepted : Bytes
  /-- How many accepted bytes a flush that answered Ok covers: these have left the sink's own buffer (R33 (b), R60). -/
  flushed : Nat
  /-- How many flush requests were made (R142). -/
  flushRequests : Nat
  /-- Its choices for the coming write requests; when used up, a request is accepted whole (log entry 6). -/
  answers : List SinkAnswer
  /-- Its choices for the coming flush requests; when used up, Ok (log entry 6). -/
  flushAnswers : List FlushAnswer
  /-- TX has made a request since its reset (R150, R215). -/
  used : Bool
deriving DecidableEq, Repr

/-! ### Ports -/

/-- What the host does to the hardware, one at a time (R20, R230, R150, R246, R62). -/
inductive HostInput where
  /-- A transaction at `tx_cmd`. -/
  | tx (c : TxCmd)
  /-- A transaction at `rx_cmd`. -/
  | rx (c : RxCmd)
  /-- Reset of TX, between commands (R230). -/
  | txReset
  /-- Reset of RX, between commands (R230). -/
  | rxReset
  /-- The host, the sink's owner, writes to it directly (R150, R249). -/
  | sinkWrite (b : Bytes)
  /-- The host, the source's owner, takes `n` bytes from it directly (R246). -/
  | sourceTake (n : Nat)
  /-- More bytes arrive at the source's end, for one in a loopback (R62). -/
  | sourceSupply (b : Bytes)
deriving DecidableEq, Repr

/-- The answer to a command at its response port (R88). -/
inductive Response where
  | ok
  | data (b : Bytes)
  | endOfInput
  /-- The error kind and, where the error was raised in this command and has one (R200), its sub-reason. -/
  | err (k : ErrKind) (info : Option ErrInfo)
deriving DecidableEq, Repr

/-- What SrcGet returns (R17). -/
inductive SrcResult where
  | full (b : Bytes)
  | short (b : Bytes)
deriving DecidableEq, Repr

/-- The value a record or an operation run as one instruction answers with (log entry 7). -/
inductive OpResult where
  | none
  | done
  | bytes (b : Bytes)
  | word (v : U32)
  | byte (t : Byte)
  | token (method : Byte) (sc : U4)
  | sizeClass (sc : U4)
  | header (h : Header)
  | verdict (v : Verdict)
  | check (c : CkVerdict)
  | source (r : SrcResult)
  | raised (e : Raise)
deriving DecidableEq, Repr

/-- The whole state. -/
structure State where
  tx : Tx
  rx : Rx
  sink : Sink
  source : Source
  /-- The host's inputs not yet taken, the next first. -/
  inbox : List HostInput
  /-- The last answer at TX's response port, none before the first. -/
  txRsp : Option Response
  /-- The last answer at RX's response port, none before the first. -/
  rxRsp : Option Response
  /-- The model's own: what the last record or operation run as one instruction answered (log entry 7). -/
  opResult : OpResult
  /-- The model's own: how many free values have been drawn (log entry 4). -/
  freeCount : Nat
deriving DecidableEq, Repr

/-! ### Updates of one component -/

def State.setTx (s : State) (x : Tx) : State := { s with tx := x }
def State.setRx (s : State) (x : Rx) : State := { s with rx := x }
def State.setSink (s : State) (x : Sink) : State := { s with sink := x }
def State.setSource (s : State) (x : Source) : State := { s with source := x }
def State.setInbox (s : State) (x : List HostInput) : State := { s with inbox := x }
def State.setTxRsp (s : State) (x : Option Response) : State := { s with txRsp := x }
def State.setRxRsp (s : State) (x : Option Response) : State := { s with rxRsp := x }
def State.setOpResult (s : State) (x : OpResult) : State := { s with opResult := x }
def State.setFreeCount (s : State) (x : Nat) : State := { s with freeCount := x }

/-! ### Reset -/

/-- TX after its reset (R34, R230). The source gives BLOCK_SIZE and SC no value before TX.CONFIG; they are 0 here
(DESIGN CHOICE, log entry 8). -/
def Tx.reset : Tx :=
  { state := .unconfigured, blockSize := 0, sc := 0, abuf := [], prologueDone := false, pos := 0 }

/-- RX after its reset (R34, R230). -/
def Rx.reset : Rx := { state := .uninitialized, dbuf := [], dcur := 0, err := none, pos := 0 }

/-- A sink that holds nothing and has been asked nothing (DESIGN CHOICE, log entry 9). -/
def Sink.fresh : Sink :=
  { accepted := [], flushed := 0, flushRequests := 0, answers := [], flushAnswers := [], used := false }

/-- A source that holds nothing and has been asked nothing (DESIGN CHOICE, log entry 9). -/
def Source.fresh : Source := { rest := [], answers := [], requests := [], used := false }

/-- The machine right after reset of both framers, with no input pending (R34, R230). -/
def State.reset : State :=
  { tx := Tx.reset, rx := Rx.reset, sink := Sink.fresh, source := Source.fresh, inbox := [],
    txRsp := none, rxRsp := none, opResult := .none, freeCount := 0 }

end Sys2Proof.Machine
end

