-- ==== Sys2Proof/Machine/Flags.lean ====
section
/-! DEFINITION. Status: the flags of R29 and the codes of R30, R88 and R200 (labels only: no rule depends on a code).
There are no arithmetic condition codes (R29). -/

namespace Sys2Proof.Machine

/-- "Finished" is `TX.STATE = Finished` (R29). -/
def State.finished (s : State) : Bool := decide (s.tx.state = .finished)

/-- "Terminated" (marker seen) is `RX.STATE = Terminated` (R29). -/
def State.terminated (s : State) : Bool := decide (s.rx.state = .terminated)

/-- The code of `TX.STATE`, 2 bits (R30). -/
def TxState.code : TxState → BitVec 2
  | .unconfigured => 0
  | .ready => 1
  | .finished => 2
  | .failed => 3

/-- The code of `RX.STATE`, 3 bits; 5 to 7 never occur (R30). -/
def RxState.code : RxState → BitVec 3
  | .uninitialized => 0
  | .idle => 1
  | .decodingBlock => 2
  | .terminated => 3
  | .failed => 4

/-- The code of an error kind, 1 to 6 (R200). -/
def ErrKind.code : ErrKind → BitVec 3
  | .config => 1
  | .format => 2
  | .corruption => 3
  | .truncation => 4
  | .backend => 5
  | .io => 6

/-- The code of `RX.ERR`, 0 for None (R30). -/
def errCode : Option ErrKind → BitVec 3
  | none => 0
  | some k => k.code

/-- The 3-bit `status` of a response port (R88). -/
def Response.status : Response → BitVec 3
  | .ok => 0
  | .data _ => 0
  | .endOfInput => 7
  | .err k _ => k.code

end Sys2Proof.Machine
end

