-- ==== Sys2Proof/Machine/Ops.lean ====
section
/-! DEFINITION. The operations every meaning is made of: the result of a run of steps inside one command, error entry (R18,
R206, R207) and the way out of it (R230), and the stream primitives (R17). -/

namespace Sys2Proof.Machine

/-- How a sequence of steps inside one command ends (R18): it goes on, it has raised an error and performed its entry, or
it never ends. -/
inductive Res (α : Type) where
  | ok (a : α) (s : State)
  | raised (e : Raise) (s : State)
  | stuck (f : Fault)
deriving Repr

/-- The next step runs only if the one before it went on: "a command reports the first error its pseudocode reaches and
stops" (R210). -/
def Res.bind {α β : Type} (r : Res α) (f : α → State → Res β) : Res β :=
  match r with
  | .ok a s => f a s
  | .raised e s => .raised e s
  | .stuck x => .stuck x

/-! ### Updates of the registers -/

/-- `RX.POS <- RX.POS + n` (R17). -/
def Rx.moved (x : Rx) (n : Nat) : Rx := { x with pos := x.pos + n }

/-- `TX.POS <- TX.POS + n` (R17). -/
def Tx.moved (x : Tx) (n : Nat) : Tx := { x with pos := x.pos + n }

/-- RX's registers after its error entry with kind `k` (R206); POS keeps what was consumed. -/
def Rx.failedWith (x : Rx) (k : ErrKind) : Rx := { x with err := some k, state := .failed, dbuf := [], dcur := 0 }

/-- TX's registers after a fatal error (R207): ABUF and PROLOGUE_DONE hold the free values numbered `n`, ABUF within its
bound (R21). -/
def Tx.failedWith (x : Tx) (n : Nat) : Tx :=
  { x with state := .failed, abuf := (Config.freeAbuf n).take x.blockSize, prologueDone := Config.freePrologueDone n }

/-- `TX.ABUF <- b`. -/
def Tx.withAbuf (x : Tx) (b : Bytes) : Tx := { x with abuf := b }

/-- `TX.PROLOGUE_DONE <- 1` (R145). -/
def Tx.prologuePut (x : Tx) : Tx := { x with prologueDone := true }

/-! ### Error entry and reset -/

/-- Error entry (R18). RX: the kind is latched, the state is Failed, the buffer is emptied (R206). TX: ConfigError and
FormatError change nothing; every other kind makes the state Failed and leaves ABUF and PROLOGUE_DONE with free values
(R207). -/
def raiseError (u : Framer) (e : Raise) (s : State) : State :=
  match u with
  | .rx => s.setRx (s.rx.failedWith e.kind)
  | .tx =>
    if e.kind = .config ∨ e.kind = .format then s
    else (s.setTx (s.tx.failedWith s.freeCount)).setFreeCount (s.freeCount + 1)

/-- `raise K(info)` of R18, inside a command of framer `u`. -/
def raising {α : Type} (u : Framer) (k : ErrKind) (info : Option ErrInfo) (s : State) : Res α :=
  .raised ⟨k, info⟩ (raiseError u ⟨k, info⟩ s)

/-- Reset of one framer, the only way out of Failed, Finished and Terminated (R212, R230): its registers, and that it has
made no request yet; no request is made and the endpoint keeps what it holds. -/
def resetFramer (u : Framer) (s : State) : State :=
  match u with
  | .tx => (s.setTx Tx.reset).setSink { s.sink with used := false }
  | .rx => (s.setRx Rx.reset).setSource { s.source with used := false }

/-! ### The source (R17) -/

/-- The answer to one request SrcRead(k). -/
inductive SrcReply where
  | data (b : Bytes)
  | ended
  | ioError (e : EndpointError)
  | never
deriving DecidableEq, Repr

/-- The source after one request for `k` bytes in which up to `given` bytes were obtained. -/
def Source.asked (src : Source) (k given : Nat) : Source :=
  { src with rest := src.rest.drop given, answers := src.answers.tail, requests := k :: src.requests, used := true }

/-- SrcRead(k), k ≥ 1: one blocking request; 1 to k bytes, or the end of input, or an error (R17). -/
def srcRead (k : Nat) (s : State) : SrcReply × State :=
  match s.source.answers.headD (.data k) with
  | .data extra =>
    let b := s.source.rest.take (min k (extra + 1))
    if b = [] then (.ended, s.setSource (s.source.asked k 0))
    else (.data b, s.setSource (s.source.asked k (min k (extra + 1))))
  | .ioError e => (.ioError e, s.setSource (s.source.asked k 0))
  | .never => (.never, s.setSource (s.source.asked k 0))

/-- The loop of SrcGet(n) (R17), `acc` obtained so far. Every answer carries at least one byte, so `fuel = n - |acc|` rounds
suffice (R244). -/
def srcGetLoop (n : Nat) : Nat → Bytes → State → Res SrcResult
  | 0, acc, s => .ok (.full acc) s
  | fuel + 1, acc, s =>
    if acc.length < n then
      match srcRead (n - acc.length) s with
      | (.data b, s') => srcGetLoop n fuel (acc ++ b) (s'.setRx (s'.rx.moved b.length))
      | (.ended, s') => .ok (.short acc) s'
      | (.ioError e, s') => raising .rx .io (some (.endpointError e)) s'
      | (.never, _) => .stuck .sourceNeverAnswers
    else .ok (.full acc) s

/-- SrcGet(n): read exactly `n` bytes (R17); SrcGet(0) makes no request. -/
def srcGet (n : Nat) (s : State) : Res SrcResult := srcGetLoop n n [] s

/-! ### The sink (R17) -/

/-- The answer to one request SinkWrite(b). -/
inductive SinkReply where
  | count (c : Nat)
  | ioError (e : EndpointError)
  | never
deriving DecidableEq, Repr

/-- The sink after one write request of which it took `b`. -/
def Sink.written (k : Sink) (b : Bytes) : Sink :=
  { k with accepted := k.accepted ++ b, answers := k.answers.tail, used := true }

/-- The sink after one flush request; `n` accepted bytes are covered by an Ok. -/
def Sink.flushAsked (k : Sink) (n : Nat) : Sink :=
  { k with flushAnswers := k.flushAnswers.tail, flushRequests := k.flushRequests + 1, flushed := n, used := true }

/-- SinkWrite(b), |b| ≥ 1: one blocking request; the sink appends the bytes it takes, in order (R17). -/
def sinkWrite (b : Bytes) (s : State) : SinkReply × State :=
  match s.sink.answers.headD (.count b.length) with
  | .count c => (.count (min c b.length), s.setSink (s.sink.written (b.take c)))
  | .ioError taken e => (.ioError e, s.setSink (s.sink.written (b.take taken)))
  | .never => (.never, s.setSink (s.sink.written []))

/-- The loop of SinkPut(b) (R17). Every accepted count is at least one, so `fuel = |b|` rounds suffice (R244). -/
def sinkPutLoop : Nat → Bytes → State → Res Unit
  | 0, _, s => .ok () s
  | fuel + 1, b, s =>
    if b = [] then .ok () s
    else
      match sinkWrite b s with
      | (.count 0, s') => raising .tx .io (some .writeZero) s'
      | (.count (c + 1), s') =>
        sinkPutLoop fuel (b.drop (c + 1)) (s'.setTx (s'.tx.moved (c + 1)))
      | (.ioError e, s') => raising .tx .io (some (.endpointError e)) s'
      | (.never, _) => .stuck .sinkNeverAnswers

/-- SinkPut(b): write all of `b` (R17); SinkPut([]) makes no request. What the sink holds after an IoError is log entries
6's and 26's. -/
def sinkPut (b : Bytes) (s : State) : Res Unit := sinkPutLoop b.length b s

/-- SinkFlush(): one blocking request; Ok covers everything accepted so far (R17, R60). After an IoError the sink keeps
every byte the command put before, one choice of the prefix R149 and U1 leave unspecified (DESIGN CHOICE, log entry 26). -/
def sinkFlush (s : State) : Res Unit :=
  match s.sink.flushAnswers.headD .ok with
  | .ok => .ok () (s.setSink (s.sink.flushAsked s.sink.accepted.length))
  | .ioError e => raising .tx .io (some (.endpointError e)) (s.setSink (s.sink.flushAsked s.sink.flushed))
  | .never => .stuck .flushNeverAnswers

/-! ### How a run of steps becomes an outcome -/

/-- A TX command answers Ok, or the error it raised (R88, R207). -/
def txAnswer (r : Res Unit) : Host.Outcome State Fault Refusal :=
  match r with
  | .ok _ s => .next (s.setTxRsp (some .ok))
  | .raised e s => .next (s.setTxRsp (some (.err e.kind e.info)))
  | .stuck f => .fault f

/-- A record or an operation run as one instruction leaves its answer in `opResult` (log entry 7). -/
def opAnswer {α : Type} (show_ : α → OpResult) (r : Res α) : Host.Outcome State Fault Refusal :=
  match r with
  | .ok a s => .next (s.setOpResult (show_ a))
  | .raised e s => .next (s.setOpResult (.raised e))
  | .stuck f => .fault f

/-- A combinational operation: its value, and no register changes (R110 to R117, R130, R131). -/
def opValue (v : OpResult) (s : State) : Host.Outcome State Fault Refusal := .next (s.setOpResult v)

/-- An operation that TX's commands invoke runs only where they do, in Ready (R89, R144; log entry 10). -/
def whenTxReady (s : State) (body : Host.Outcome State Fault Refusal) : Host.Outcome State Fault Refusal :=
  if s.tx.state = .ready then body else .refused .txOperationOutOfState

/-- A record or an operation that RX.READ reaches runs only in the RX states in which it is reached (R28, R170; log entry
10). -/
def whenRx (s : State) (states : List RxState) (body : Host.Outcome State Fault Refusal) :
    Host.Outcome State Fault Refusal :=
  if s.rx.state ∈ states then body else .refused .rxOperationOutOfState

/-- An operation with a stated precondition on its operands. -/
def whenOperands (ok : Bool) (body : Host.Outcome State Fault Refusal) : Host.Outcome State Fault Refusal :=
  if ok then body else .refused .operandOutOfDomain

end Sys2Proof.Machine
end

