-- ==== Sys2Proof/Machine/Codec.lean ====
section
/-! DEFINITION. The combinational operations of the header codec (R110 to R117) and of the checksum validator (R130, R131)
run as one instruction: each answers its value and changes no register. -/

namespace Sys2Proof.Machine

/-- LE32.ENC (R110). -/
def execLe32Enc (v : U32) (s : State) : Host.Outcome State Fault Refusal := opValue (.bytes (le32Enc v)) s

/-- LE32.DEC (R111), of a 4-byte sequence. -/
def execLe32Dec (b : Bytes) (s : State) : Host.Outcome State Fault Refusal :=
  whenOperands (decide (b.length = 4)) (opValue (.word (le32Dec b)) s)

/-- TOK.ENC (R112). -/
def execTokEnc (m : Method) (sc : U4) (s : State) : Host.Outcome State Fault Refusal := opValue (.byte (tokEnc m sc)) s

/-- TOK.DEC (R113). -/
def execTokDec (t : Byte) (s : State) : Host.Outcome State Fault Refusal := opValue (.token (tokDec t).1 (tokDec t).2) s

/-- SC.OF (R114), of a legal block size. -/
def execScOf (bs : U32) (s : State) : Host.Outcome State Fault Refusal :=
  whenOperands (legalBlockSize bs.toNat) (opValue (.sizeClass (scOf bs.toNat)) s)

/-- HDR.PACK (R115). -/
def execHdrPack (token : Byte) (clen olen csum : U32) (s : State) : Host.Outcome State Fault Refusal :=
  opValue (.bytes (hdrPack ⟨token, clen, olen, csum⟩)) s

/-- HDR.UNPACK (R116), of a 13-byte sequence. -/
def execHdrUnpack (h : Bytes) (s : State) : Host.Outcome State Fault Refusal :=
  whenOperands (decide (h.length = Config.headerLen)) (opValue (.header (hdrUnpack h)) s)

/-- HDR.CLASSIFY (R117). -/
def execHdrClassify (token : Byte) (clen olen csum : U32) (s : State) : Host.Outcome State Fault Refusal :=
  opValue (.verdict (hdrClassify ⟨token, clen, olen, csum⟩)) s

/-- CK.GEN (R130). -/
def execCkGen (orig : Bytes) (s : State) : Host.Outcome State Fault Refusal := opValue (.word (ckGen orig)) s

/-- CK.VERIFY (R131). -/
def execCkVerify (orig : Bytes) (expected : U32) (s : State) : Host.Outcome State Fault Refusal :=
  opValue (.check (ckVerify orig expected)) s

end Sys2Proof.Machine
end

