-- ==== Sys2Proof/Machine/RxFramer.lean ====
section
/-! DEFINITION. The receive framer: its operations RX.INIT, RX.REFILL, RX.PAYLOAD (R173 to R179), the effect of each wire
record it fetches (R173, R176 to R178), and its command RX.READ (R170). -/

namespace Sys2Proof.Machine

/-! ### What RX does with a fetched record -/

/-- The prologue has been fetched and is MAGIC: Idle (R173). -/
def rxPrologueRead (s : State) : State := s.setRx { s.rx with state := .idle }

/-- The end marker has been fetched: Terminated; no payload, no checksum (R176). -/
def rxMarker (s : State) : State := s.setRx { s.rx with state := .terminated }

/-- Checksum verification and buffer load, the last part of RX.PAYLOAD (R179). A CorruptionError
carries no sub-reason, neither the expected nor the computed checksum (R200). -/
def rxLoad (orig : Bytes) (csum : U32) (s : State) : Res Unit :=
  match ckVerify orig csum with
  | .mismatch => raising .rx .corruption none s
  | .same => .ok () (s.setRx { s.rx with dbuf := orig, dcur := 0, state := .decodingBlock })

/-- The original bytes of a fetched payload: passed through for RAW (R177), `DECOMPRESS` and the length check for LZ4
(R178). -/
def rxReconstruct (m : Method) (payload : Bytes) (olen csum : U32) (s : State) : Res Unit :=
  match m with
  | .raw => rxLoad payload csum s
  | .lz4 =>
    match Config.decompress payload olen.toNat with
    | .error e => raising .rx .backend (some (.backendError e)) s
    | .bytes d =>
      if d.length ≠ olen.toNat then raising .rx .backend (some .inconsistentLength) s
      else rxLoad d csum s

/-- RX.PAYLOAD (R177 to R179): fetch exactly `clen` bytes, reconstruct, verify, load. -/
def rxPayload (m : Method) (clen olen csum : U32) (s : State) : Res Unit :=
  (srcGet clen.toNat s).bind fun r s' =>
    match r with
    | .short _ => raising .rx .truncation (some .midPayload) s'
    | .full payload => rxReconstruct m payload olen csum s'

/-! ### RX.INIT and RX.REFILL -/

/-- RX.INIT (R173): a source that ends inside the prologue is a format error. -/
def rxInit (s : State) : Res Unit :=
  (srcGet Config.magicLen s).bind fun r s' =>
    match r with
    | .short _ => raising .rx .format (some .shortPrologue) s'
    | .full m => if m = magic then .ok () (rxPrologueRead s') else raising .rx .format (some .badMagic) s'

/-- The source ended exactly where the next header would begin (R174, R13): a parameter decides (log entry 3). -/
def rxBoundaryEnd (s : State) : Res Unit :=
  match Config.eofAtBoundary with
  | .clean => .ok () (s.setRx { s.rx with state := .terminated })
  | .truncation => raising .rx .truncation (some .noMarker) s

/-- What RX does with 13 fetched header bytes (R174 to R176). -/
def rxHeader (h : Bytes) (s : State) : Res Unit :=
  match hdrClassify (hdrUnpack h) with
  | .malformed reason => raising .rx .format (some (.malformed reason)) s
  | .marker => .ok () (rxMarker s)
  | .data m clen olen csum => rxPayload m clen olen csum s

/-- RX.REFILL (R174): one header, validated whole before any payload byte is requested, and its payload. -/
def rxRefill (s : State) : Res Unit :=
  (srcGet Config.headerLen s).bind fun r s' =>
    match r with
    | .short [] => rxBoundaryEnd s'
    | .short (_ :: _) => raising .rx .truncation (some .midHeader) s'
    | .full h => rxHeader h s'

/-! ### The command -/

/-- "if RX.STATE = Uninitialized : RX.INIT()" and "if RX.STATE = Idle : RX.REFILL()" (R170). -/
def rxFetch (s : State) : Res Unit :=
  (if s.rx.state = .uninitialized then rxInit s else .ok () s).bind fun _ s' =>
    if s'.rx.state = .idle then rxRefill s' else .ok () s'

/-- The delivery at the end of RX.READ (R170): at most `n` bytes of the current block; a drained buffer is emptied. -/
def rxDeliver (n : Nat) (s : State) : Bytes × State :=
  let k := min n (s.rx.dbuf.length - s.rx.dcur)
  let out := memRead s.rx.dbuf s.rx.dcur k
  if s.rx.dcur + k = s.rx.dbuf.length then
    (out, s.setRx { s.rx with dbuf := [], dcur := 0, state := .idle })
  else (out, s.setRx { s.rx with dcur := s.rx.dcur + k })

/-- RX.READ after its fetch (R170): EndOfInput in Terminated, else data; an error answers Err(kind) with no data. -/
def rxAnswer (n : Nat) (r : Res Unit) : Host.Outcome State Fault Refusal :=
  match r with
  | .ok _ s =>
    if s.rx.state = .terminated then .next (s.setRxRsp (some .endOfInput))
    else
      let d := rxDeliver n s
      .next (d.2.setRxRsp (some (.data d.1)))
  | .raised e s => .next (s.setRxRsp (some (.err e.kind e.info)))
  | .stuck f => .fault f

/-- RX.READ in Failed: the latched kind, no request, no state change (R170, R212). -/
def rxLatched (s : State) : Host.Outcome State Fault Refusal :=
  match s.rx.err with
  | some k => .next (s.setRxRsp (some (.err k none)))
  | none => .refused .rxFailedWithoutError

/-- RX.READ (R170), the tests in the order written. -/
def execRxRead (n : Nat) (s : State) : Host.Outcome State Fault Refusal :=
  if n = 0 then .refused .rxReadZero
  else
    match s.rx.state with
    | .failed => rxLatched s
    | .terminated => .next (s.setRxRsp (some .endOfInput))
    | .uninitialized => rxAnswer n (rxFetch s)
    | .idle => rxAnswer n (rxFetch s)
    | .decodingBlock => rxAnswer n (rxFetch s)

/-! ### Operations run as one instruction -/

/-- RX.INIT (R173), reached in Uninitialized. -/
def execRxInit (s : State) : Host.Outcome State Fault Refusal :=
  whenRx s [.uninitialized] (opAnswer (fun _ => .done) (rxInit s))

/-- RX.REFILL (R174), reached in Idle. -/
def execRxRefill (s : State) : Host.Outcome State Fault Refusal :=
  whenRx s [.idle] (opAnswer (fun _ => .done) (rxRefill s))

/-- RX.PAYLOAD (R177 to R179), reached in Idle with the fields of a `Data` verdict. -/
def execRxPayload (m : Method) (clen olen csum : U32) (s : State) : Host.Outcome State Fault Refusal :=
  whenRx s [.idle] (whenOperands (dataLengths m clen olen) (opAnswer (fun _ => .done) (rxPayload m clen olen csum s)))

end Sys2Proof.Machine
end

