-- ==== Sys2Proof/Machine/Records.lean ====
section
/-! DEFINITION. The wire records as instructions: what RX does with a record once RX.INIT or RX.REFILL has fetched its 8 or
13 bytes (the "semantics" column of R85; log entry 11). The fetch itself, which advances `RX.POS` past those bytes, is
RX.INIT's or RX.REFILL's. -/

namespace Sys2Proof.Machine

/-- PROLOGUE (R173): met only at wire offset 0, in Uninitialized; RX becomes Idle. -/
def execPrologue (s : State) : Host.Outcome State Fault Refusal :=
  whenRx s [.uninitialized] (opAnswer (fun _ => .done) (.ok () (rxPrologueRead s)))

/-- END (R176): RX becomes Terminated whatever the marker's size class is. -/
def execEndMarker (_sc : U4) (s : State) : Host.Outcome State Fault Refusal :=
  whenRx s [.idle] (opAnswer (fun _ => .done) (.ok () (rxMarker s)))

/-- BLK.RAW (R177, R179). -/
def execBlkRaw (sc : U4) (len csum : U32) (s : State) : Host.Outcome State Fault Refusal :=
  whenRx s [.idle] (whenOperands (dataLengths .raw len len && withinSizeClass sc len)
    (opAnswer (fun _ => .done) (rxPayload .raw len len csum s)))

/-- BLK.LZ4 (R178, R179). -/
def execBlkLz4 (sc : U4) (clen olen csum : U32) (s : State) : Host.Outcome State Fault Refusal :=
  whenRx s [.idle] (whenOperands (dataLengths .lz4 clen olen && withinSizeClass sc olen)
    (opAnswer (fun _ => .done) (rxPayload .lz4 clen olen csum s)))

end Sys2Proof.Machine
end

