-- ==== Sys2Proof/Machine/Streams.lean ====
section
/-! DEFINITION. The stream primitives (R17) run as one instruction, in the states in which their framer makes requests. -/

namespace Sys2Proof.Machine

/-- SrcGet (R17), invoked by RX.INIT in Uninitialized and by RX.REFILL and RX.PAYLOAD in Idle. -/
def execSrcGet (n : Nat) (s : State) : Host.Outcome State Fault Refusal :=
  whenRx s [.uninitialized, .idle] (opAnswer .source (srcGet n s))

/-- SinkPut (R17), invoked by TX's operations in Ready. -/
def execSinkPut (b : Bytes) (s : State) : Host.Outcome State Fault Refusal :=
  whenTxReady s (opAnswer (fun _ => .done) (sinkPut b s))

/-- SinkFlush (R17), invoked by TX.FLUSH and TX.FINISH in Ready. -/
def execSinkFlush (s : State) : Host.Outcome State Fault Refusal :=
  whenTxReady s (opAnswer (fun _ => .done) (sinkFlush s))

end Sys2Proof.Machine
end

