-- ==== Sys2Proof/Machine/TxFramer.lean ====
section
/-! DEFINITION. The transmit framer: its operations TX.PROLOGUE, TX.BLOCK, TX.MARKER (R145 to R147) and its commands
TX.CONFIG, TX.WRITE, TX.FLUSH, TX.FINISH with their gating (R140 to R144). -/

namespace Sys2Proof.Machine

/-! ### Operations -/

/-- TX.PROLOGUE (R145): MAGIC once, before the first header. -/
def txPrologue (s : State) : Res Unit :=
  if s.tx.prologueDone then .ok () s
  else (sinkPut magic s).bind fun _ s' => .ok () (s'.setTx s'.tx.prologuePut)

/-- TX.BLOCK (R146): `COMPRESS` before any request to the sink, then prologue, header, payload in that order. After a
BackendError on a later block of a TX.WRITE the sink keeps that write's earlier blocks whole and nothing of this one, one
choice of the prefix R149 and U1 leave unspecified (DESIGN CHOICE, log entry 26). -/
def txBlock (orig : Bytes) (s : State) : Res Unit :=
  match Config.compress orig with
  | .error e => raising .tx .backend (some (.backendError e)) s
  | .bytes c =>
    let chosen := selectMethod orig c
    (txPrologue s).bind fun _ s1 =>
      (sinkPut (blockHeader s.tx.sc chosen.1 chosen.2 orig) s1).bind fun _ s2 => sinkPut chosen.2 s2

/-- TX.MARKER (R147): the prologue if it is still due, then the 13 bytes of the end marker. -/
def txMarker (s : State) : Res Unit :=
  (txPrologue s).bind fun _ s' => sinkPut (markerBytes s.tx.sc) s'

/-- "if |TX.ABUF| > 0 : TX.BLOCK(TX.ABUF) ; TX.ABUF <- []" (R142, R143). -/
def txEmitPending (s : State) : Res Unit :=
  if s.tx.abuf = [] then .ok () s
  else (txBlock s.tx.abuf s).bind fun _ s' => .ok () (s'.setTx (s'.tx.withAbuf []))

/-- The body of R141's loop for one slice `k` of `rem`: append it, and emit the block if the buffer is full. -/
def txAppend (slice : Bytes) (s : State) : Res Unit :=
  let abuf := memWrite s.tx.abuf s.tx.abuf.length slice
  let s' := s.setTx (s.tx.withAbuf abuf)
  if abuf.length = s.tx.blockSize then
    (txBlock abuf s').bind fun _ s'' => .ok () (s''.setTx (s''.tx.withAbuf []))
  else .ok () s'

/-- The loop of TX.WRITE (R141). In Ready every slice has at least one byte (R23), so `fuel = |data|` rounds suffice. -/
def txWriteLoop : Nat → Bytes → State → Res Unit
  | 0, rem, s => if rem = [] then .ok () s else .stuck .writeNeverEnds
  | fuel + 1, rem, s =>
    if rem = [] then .ok () s
    else
      let k := min rem.length (s.tx.blockSize - s.tx.abuf.length)
      (txAppend (rem.take k) s).bind fun _ s' => txWriteLoop fuel (rem.drop k) s'

/-! ### Gating (R144) -/

/-- TX.WRITE, TX.FLUSH and TX.FINISH by `TX.STATE` (R144): the body runs in Ready; Finished answers
FormatError(UseAfterFinish) with no state change and no request; the rest is refused. -/
def txGated (s : State) (body : Res Unit) : Host.Outcome State Fault Refusal :=
  match s.tx.state with
  | .unconfigured => .refused .txUnconfigured
  | .ready => txAnswer body
  | .finished => txAnswer (raising .tx .format (some .useAfterFinish) s)
  | .failed => .refused .txFailed

/-! ### Commands -/

/-- The tests of TX.CONFIG on the block size (R140), in order: the range, then the power of two. -/
def configError (bs : U32) : Option ErrInfo :=
  if bs.toNat < Config.minBlockSize ∨ Config.maxBlockSize < bs.toNat then some .outOfRange
  else if isPowerOfTwo bs.toNat = false then some .notPowerOfTwo
  else none

/-- TX.CONFIG once its gate is open (R140): no request to the sink on either path. -/
def txConfigure (bs : U32) (s : State) : Res Unit :=
  match configError bs with
  | some info => raising .tx .config (some info) s
  | none => .ok () (s.setTx { s.tx with blockSize := bs.toNat, sc := scOf bs.toNat, state := .ready })

/-- TX.CONFIG (R140, gating R144). -/
def execTxConfig (bs : U32) (s : State) : Host.Outcome State Fault Refusal :=
  match s.tx.state with
  | .unconfigured => txAnswer (txConfigure bs s)
  | .ready => .refused .txAlreadyConfigured
  | .finished => .refused .txAlreadyConfigured
  | .failed => .refused .txFailed

/-- TX.WRITE (R141): all of `data` is accepted or the command fails. -/
def execTxWrite (data : Bytes) (s : State) : Host.Outcome State Fault Refusal :=
  txGated s (txWriteLoop data.length data s)

/-- TX.FLUSH (R142): a buffered remainder goes out as a short block; the flush request is made in any case. -/
def execTxFlush (s : State) : Host.Outcome State Fault Refusal :=
  txGated s ((txEmitPending s).bind fun _ s' => sinkFlush s')

/-- TX.FINISH (R143): pending block, marker, flush, then Finished. -/
def execTxFinish (s : State) : Host.Outcome State Fault Refusal :=
  txGated s ((txEmitPending s).bind fun _ s1 => (txMarker s1).bind fun _ s2 => (sinkFlush s2).bind fun _ s3 =>
    .ok () (s3.setTx { s3.tx with state := .finished }))

/-! ### Operations run as one instruction -/

/-- TX.PROLOGUE (R145). -/
def execTxPrologue (s : State) : Host.Outcome State Fault Refusal :=
  whenTxReady s (opAnswer (fun _ => .done) (txPrologue s))

/-- TX.BLOCK (R146) under its precondition 1 ≤ |orig| ≤ BLOCK_SIZE. -/
def execTxBlock (orig : Bytes) (s : State) : Host.Outcome State Fault Refusal :=
  whenTxReady s (whenOperands (decide (1 ≤ orig.length) && decide (orig.length ≤ s.tx.blockSize))
    (opAnswer (fun _ => .done) (txBlock orig s)))

/-- TX.MARKER (R147). -/
def execTxMarker (s : State) : Host.Outcome State Fault Refusal :=
  whenTxReady s (opAnswer (fun _ => .done) (txMarker s))

end Sys2Proof.Machine
end

