-- ==== Sys2Proof/Machine/Dispatch.lean ====
section
/-! DEFINITION. Each instruction's meaning, one arm per constructor of Instr. -/

namespace Sys2Proof.Machine

def exec (i : Instr) (s : State) : Host.Outcome State Fault Refusal :=
  match i with
  -- wire records
  | .prologue => Sys2Proof.Machine.execPrologue s
  | .endMarker sc => Sys2Proof.Machine.execEndMarker sc s
  | .blkRaw sc len csum => Sys2Proof.Machine.execBlkRaw sc len csum s
  | .blkLz4 sc clen olen csum => Sys2Proof.Machine.execBlkLz4 sc clen olen csum s
  -- host commands
  | .txConfig bs => Sys2Proof.Machine.execTxConfig bs s
  | .txWrite data => Sys2Proof.Machine.execTxWrite data s
  | .txFlush => Sys2Proof.Machine.execTxFlush s
  | .txFinish => Sys2Proof.Machine.execTxFinish s
  | .rxRead n => Sys2Proof.Machine.execRxRead n s
  -- header codec and checksum validator
  | .le32Enc v => Sys2Proof.Machine.execLe32Enc v s
  | .le32Dec b => Sys2Proof.Machine.execLe32Dec b s
  | .tokEnc m sc => Sys2Proof.Machine.execTokEnc m sc s
  | .tokDec t => Sys2Proof.Machine.execTokDec t s
  | .scOf bs => Sys2Proof.Machine.execScOf bs s
  | .hdrPack token clen olen csum => Sys2Proof.Machine.execHdrPack token clen olen csum s
  | .hdrUnpack h => Sys2Proof.Machine.execHdrUnpack h s
  | .hdrClassify token clen olen csum => Sys2Proof.Machine.execHdrClassify token clen olen csum s
  | .ckGen orig => Sys2Proof.Machine.execCkGen orig s
  | .ckVerify orig expected => Sys2Proof.Machine.execCkVerify orig expected s
  -- framer operations
  | .txPrologue => Sys2Proof.Machine.execTxPrologue s
  | .txBlock orig => Sys2Proof.Machine.execTxBlock orig s
  | .txMarker => Sys2Proof.Machine.execTxMarker s
  | .rxInit => Sys2Proof.Machine.execRxInit s
  | .rxRefill => Sys2Proof.Machine.execRxRefill s
  | .rxPayload m clen olen csum => Sys2Proof.Machine.execRxPayload m clen olen csum s
  -- stream primitives
  | .srcGet n => Sys2Proof.Machine.execSrcGet n s
  | .sinkPut b => Sys2Proof.Machine.execSinkPut b s
  | .sinkFlush => Sys2Proof.Machine.execSinkFlush s

end Sys2Proof.Machine
end

