-- ==== Sys2Proof/Machine/HostPort.lean ====
section
/-! DEFINITION. What the host does to the hardware: commands at the two ports, resets, and its own use of the endpoints it
owns (R20, R88, R150, R215, R230, R246). -/

namespace Sys2Proof.Machine

/-- A fetched encoding is decoded and run; one the decoder rejects has no meaning (R18, R88). -/
def runEncoded (e : Encoded) (s : State) : Host.Outcome State Fault Refusal :=
  match decode e with
  | .ok i => exec i s
  | .error _ => .refused .undecodable

/-- TX is the only writer of the sink from its first request until it is Finished or Failed (R150, R215). -/
def sinkBorrowed (s : State) : Bool := s.sink.used && decide (s.tx.state = .ready)

/-- RX is the only reader of the source from its first request until it is Terminated or Failed (R215). -/
def sourceBorrowed (s : State) : Bool :=
  s.source.used && decide (s.rx.state ≠ .terminated) && decide (s.rx.state ≠ .failed)

/-- One input of the host. -/
def runInput (x : HostInput) (s : State) : Host.Outcome State Fault Refusal :=
  match x with
  | .tx c => runEncoded (.tx c) s
  | .rx c => runEncoded (.rx c) s
  | .txReset => .next (resetFramer .tx s)
  | .rxReset => .next (resetFramer .rx s)
  | .sinkWrite b =>
    if sinkBorrowed s then .refused .sinkInUse
    else .next (s.setSink { s.sink with accepted := s.sink.accepted ++ b })
  | .sourceTake n =>
    if sourceBorrowed s then .refused .sourceInUse
    else .next (s.setSource { s.source with rest := s.source.rest.drop n })
  | .sourceSupply b => .next (s.setSource { s.source with rest := s.source.rest ++ b })

/-- A table row's encoding placed where the next step meets it (log entry 5). A command is the next input. A prologue or a
header is what the source holds next, with RX in the state in which it fetches one and an RX.READ of one byte as the next
input; a data block's payload is zeros. -/
def placeEncoded (e : Encoded) (s : State) : State :=
  match e with
  | .tx c => s.setInbox (.tx c :: s.inbox)
  | .rx c => s.setInbox (.rx c :: s.inbox)
  | .wireStart b =>
    ((s.setRx { s.rx with state := .uninitialized, dbuf := [], dcur := 0, err := none }).setSource
      { s.source with rest := b ++ markerBytes 0 ++ s.source.rest, answers := [] }).setInbox
        (.rx { op := 0, n := 1 } :: s.inbox)
  | .wireRecord b =>
    let payload : Bytes :=
      match decodeRecord b with
      | .ok (.blkRaw _ len _) => List.replicate len.toNat 0
      | .ok (.blkLz4 _ clen _ _) => List.replicate clen.toNat 0
      | _ => []
    ((s.setRx { s.rx with state := .idle, dbuf := [], dcur := 0, err := none }).setSource
      { s.source with rest := b ++ payload ++ s.source.rest, answers := [] }).setInbox
        (.rx { op := 0, n := 1 } :: s.inbox)

end Sys2Proof.Machine
end

