-- ==== Sys2Proof/Machine/Step.lean ====
section
/-! DEFINITION. One step: one input of the host, whole (R18, R20). -/

namespace Sys2Proof.Machine

/-- Takes the next input and runs it; with none the hardware is idle and keeps all its state (R209, R220). -/
def step (s : State) : Host.Outcome State Fault Refusal :=
  match s.inbox with
  | [] => .next s
  | x :: rest => runInput x (s.setInbox rest)

/-- A table row's word stored where step meets its next instruction (log entry 5). -/
def State.withFetchWord (s : State) (nbits w : Nat) : State := placeEncoded (encodedOfTableWord nbits w) s

end Sys2Proof.Machine
end

