-- ==== Sys2Proof/Safety.lean ====
section
/-! DEFINITION. What claims call a good state: the invariants that hold between commands (R23), the buffers' capacity bounds
(R56), and endpoints that answer every request without an error. -/

namespace Sys2Proof.Machine

/-- The invariant of TX's registers (R23, R27, R34): buffer, block size and size class by state. -/
def Tx.inv (x : Tx) : Bool :=
  match x.state with
  | .unconfigured => decide (x.abuf = []) && !x.prologueDone && decide (x.pos = 0)
  | .ready => legalBlockSize x.blockSize && decide (x.sc = scOf x.blockSize) && decide (x.abuf.length < x.blockSize)
  | .finished => legalBlockSize x.blockSize && decide (x.sc = scOf x.blockSize) && decide (x.abuf = []) && x.prologueDone
  | .failed => legalBlockSize x.blockSize && decide (x.sc = scOf x.blockSize) && decide (x.abuf.length ≤ x.blockSize)

/-- The invariant of RX's registers (R23): DecodingBlock exactly with undelivered bytes, an empty buffer otherwise, and a
latched error exactly in Failed. -/
def Rx.inv (x : Rx) : Bool :=
  decide (x.state = .decodingBlock ↔ x.dcur < x.dbuf.length) &&
  decide (x.state ≠ .decodingBlock → x.dbuf = [] ∧ x.dcur = 0) &&
  decide (x.err ≠ none ↔ x.state = .failed) &&
  decide (x.dbuf.length ≤ Config.maxBlockSize)

/-- The invariants of R23, and the bounds on the registers of R21 and R22. -/
def State.inv (s : State) : Bool := s.tx.inv && s.rx.inv

/-- The form of the machine's memories (R56): the block buffers keep within their capacity and the read cursor within its
buffer. There is no addressable memory (R32; log entry 12). -/
def Memory.wf (s : State) : Bool :=
  decide (s.tx.abuf.length ≤ Config.maxBlockSize) && decide (s.rx.dbuf.length ≤ Config.maxBlockSize) &&
  decide (s.rx.dcur ≤ s.rx.dbuf.length)

/-- The sink accepts at least one byte of every write request to come, and every flush. -/
def Sink.cooperates (k : Sink) : Prop :=
  (∀ a ∈ k.answers, ∃ c, a = .count (c + 1)) ∧ (∀ a ∈ k.flushAnswers, a = .ok)

/-- The source answers every request to come with data or the end of input. -/
def Source.cooperates (src : Source) : Prop := ∀ a ∈ src.answers, ∃ extra, a = .data extra

/-- The sink answers every request to come, with whatever answer (R244). -/
def Sink.answering (k : Sink) : Prop := .never ∉ k.answers ∧ .never ∉ k.flushAnswers

/-- The source answers every request to come, with whatever answer (R244). -/
def Source.answering (src : Source) : Prop := .never ∉ src.answers

/-- The answers that fail a write request, each with the sub-reason of the IoError it raises: the sink's error, and a count
of zero (R208). -/
def SinkAnswer.failsWith (bad : SinkAnswer) (info : ErrInfo) : Prop :=
  (∃ taken e, bad = .ioError taken e ∧ info = .endpointError e) ∨ bad = .count 0 ∧ info = .writeZero

/-- Nothing but RX's registers, the source, RX's response port and `opResult` differs. -/
def sameOutsideRx (s t : State) : Prop :=
  t.tx = s.tx ∧ t.sink = s.sink ∧ t.inbox = s.inbox ∧ t.txRsp = s.txRsp ∧ t.freeCount = s.freeCount

/-- Nothing but TX's registers, the sink, TX's response port, `opResult` and the count of free values differs. -/
def sameOutsideTx (s t : State) : Prop :=
  t.rx = s.rx ∧ t.source = s.source ∧ t.inbox = s.inbox ∧ t.rxRsp = s.rxRsp

/-- MAGIC if TX has not put it yet, else nothing (R145). -/
def prologueDue (x : Tx) : Bytes := if x.prologueDone then [] else magic

/-- The bytes of the record that stores `orig` when `COMPRESS` answers `c` (R146): header, then payload. -/
def recordBytes (sc : U4) (orig c : Bytes) : Bytes :=
  blockHeader sc (selectMethod orig c).1 (selectMethod orig c).2 orig ++ (selectMethod orig c).2

/-- The `i`-th slice of `n` bytes of `b`, counted from 0 (R148). -/
def sliceOf (n i : Nat) (b : Bytes) : Bytes := memRead b (i * n) n

/-- The commands and operations of TX, with the sink primitives they use (R20, R89). -/
def ofTx : Instr → Bool
  | .txConfig _ | .txWrite _ | .txFlush | .txFinish | .txPrologue | .txBlock _ | .txMarker | .sinkPut _ | .sinkFlush => true
  | .prologue | .endMarker _ | .blkRaw _ _ _ | .blkLz4 _ _ _ _ | .rxRead _ | .rxInit | .rxRefill | .rxPayload _ _ _ _
  | .srcGet _ | .le32Enc _ | .le32Dec _ | .tokEnc _ _ | .tokDec _ | .scOf _ | .hdrPack _ _ _ _ | .hdrUnpack _
  | .hdrClassify _ _ _ _ | .ckGen _ | .ckVerify _ _ => false

/-- The wire records, the command and the operations of RX, with the source primitive they use (R20, R89). -/
def ofRx : Instr → Bool
  | .prologue | .endMarker _ | .blkRaw _ _ _ | .blkLz4 _ _ _ _ | .rxRead _ | .rxInit | .rxRefill | .rxPayload _ _ _ _
  | .srcGet _ => true
  | .txConfig _ | .txWrite _ | .txFlush | .txFinish | .txPrologue | .txBlock _ | .txMarker | .sinkPut _ | .sinkFlush
  | .le32Enc _ | .le32Dec _ | .tokEnc _ _ | .tokDec _ | .scOf _ | .hdrPack _ _ _ _ | .hdrUnpack _ | .hdrClassify _ _ _ _
  | .ckGen _ | .ckVerify _ _ => false

/-- The combinational operations of the codec and the checksum validator (R20, R89). -/
def combinational (i : Instr) : Bool := !ofTx i && !ofRx i

/-! ### The pseudo-forms of R91 -/

/-- `ENCODE(bs, data)` (R91): TX.CONFIG, TX.WRITE, TX.FINISH, one step each. -/
def encodeRun (bs : U32) (data : Bytes) (s : State) : Host.Outcome State Fault Refusal :=
  core.run 3 (s.setInbox [.tx ⟨0, bs, []⟩, .tx ⟨1, 0, data⟩, .tx ⟨3, 0, []⟩])

/-- `DECODE-ALL(n)` (R91): RX.READ n until a result other than Data, at most `fuel` times; the concatenation of the Data
results, the final result (none if there is none yet), and the state then. -/
def decodeAll (n : Nat) : Nat → State → Bytes × Option Response × State
  | 0, s => ([], none, s)
  | fuel + 1, s =>
    match exec (.rxRead n) s with
    | .next t =>
      match t.rxRsp with
      | some (.data b) => (b ++ (decodeAll n fuel t).1, (decodeAll n fuel t).2)
      | r => ([], r, t)
    | .fault _ => ([], none, s)
    | .refused _ => ([], none, s)

end Sys2Proof.Machine
end

