-- ==== Sys2Proof/Certificates/Slice0/Obligations.lean ====
section
/-! DEFINITION. The statements about the machine, made from the numbered rules of spec/; OBLIGATIONS.json lists them.
`opResult` is the model's own place for the answer of a record or an operation run as one instruction (log entry 7), and
the state in which one runs is log entry 10's; `cooperates` speaks of the choices an endpoint's schedule holds (log entry
6); the sub-reason of an error is log entry 19's. What the sink holds after a failed TX command is log entry 26's, within
the prefix that R149 and U1 leave unspecified; that it is untouched when `COMPRESS` fails on the command's first block is
R146's and R210's. -/

open Sys2Proof Sys2Proof.Machine

/-! ### The header codec -/

/-- R110: LE32.ENC puts the least significant byte first; it changes no register. -/
def Obligations.Le32EncPutsLeastSignificantByteFirst : Prop :=
  (∀ (v : U32) (s : State), ∃ b0 b1 b2 b3 : Byte,
    exec (.le32Enc v) s = .next (s.setOpResult (.bytes [b0, b1, b2, b3])) ∧
    b0.toNat = v.toNat % 2 ^ 8 ∧ b1.toNat = v.toNat / 2 ^ 8 % 2 ^ 8 ∧ b2.toNat = v.toNat / 2 ^ 16 % 2 ^ 8 ∧
    b3.toNat = v.toNat / 2 ^ 24 % 2 ^ 8) ∧
  ∀ s : State,
    exec (.le32Enc 0) s = .next (s.setOpResult (.bytes [0, 0, 0, 0])) ∧
    exec (.le32Enc 0xFFFFFFFF) s = .next (s.setOpResult (.bytes [0xFF, 0xFF, 0xFF, 0xFF])) ∧
    exec (.le32Enc 33554432) s = .next (s.setOpResult (.bytes [0, 0, 0, 2])) ∧
    exec (.le32Enc 0x0677E452) s = .next (s.setOpResult (.bytes [0x52, 0xE4, 0x77, 0x06])) ∧
    exec (.le32Enc 3) s = .next (s.setOpResult (.bytes [3, 0, 0, 0]))

/-- R111: LE32.DEC is the unsigned sum over the four bytes, and the two directions invert each other; an originalLength
with its top bit set is a large length, and HDR.CLASSIFY rejects it. -/
def Obligations.Le32DecIsTheUnsignedInverse : Prop :=
  (∀ (b0 b1 b2 b3 : Byte) (s : State), ∃ v : U32,
    exec (.le32Dec [b0, b1, b2, b3]) s = .next (s.setOpResult (.word v)) ∧
    v.toNat = b0.toNat + b1.toNat * 2 ^ 8 + b2.toNat * 2 ^ 16 + b3.toNat * 2 ^ 24 ∧
    exec (.le32Enc v) s = .next (s.setOpResult (.bytes [b0, b1, b2, b3]))) ∧
  (∀ (v : U32) (b : Bytes) (s : State), exec (.le32Enc v) s = .next (s.setOpResult (.bytes b)) →
    exec (.le32Dec b) s = .next (s.setOpResult (.word v))) ∧
  (∀ (token : Byte) (clen v csum : U32) (s : State), 2 ^ 31 ≤ v.toNat →
    ∃ r, exec (.hdrClassify token clen v csum) s = .next (s.setOpResult (.verdict (.malformed r)))) ∧
  ∀ s : State,
    exec (.le32Dec [0xFF, 0xFF, 0xFF, 0xFF]) s = .next (s.setOpResult (.word 4294967295)) ∧
    exec (.le32Dec [0x52, 0xE4, 0x77, 0x06]) s = .next (s.setOpResult (.word 0x0677E452))

/-- R112 and R113: the token is the method's code plus the size class, and TOK.DEC takes any token apart. -/
def Obligations.TokenIsMethodNibbleAndSizeClass : Prop :=
  (∀ (m : Method) (sc : U4) (s : State), ∃ t : Byte,
    exec (.tokEnc m sc) s = .next (s.setOpResult (.byte t)) ∧
    t.toNat = (match m with | .raw => 0x10 | .lz4 => 0x20) + sc.toNat ∧
    exec (.tokDec t) s = .next (s.setOpResult (.token m.code sc))) ∧
  (∀ (t : Byte) (s : State), ∃ (m : Byte) (sc : U4), exec (.tokDec t) s = .next (s.setOpResult (.token m sc)) ∧
    m.toNat = t.toNat / 16 * 16 ∧ sc.toNat = t.toNat % 16) ∧
  ∀ s : State,
    exec (.tokEnc .raw 0) s = .next (s.setOpResult (.byte 0x10)) ∧
    exec (.tokEnc .lz4 15) s = .next (s.setOpResult (.byte 0x2F)) ∧
    exec (.tokEnc .raw 15) s = .next (s.setOpResult (.byte 0x1F)) ∧
    exec (.tokDec 0x10) s = .next (s.setOpResult (.token 0x10 0)) ∧
    exec (.tokDec 0x26) s = .next (s.setOpResult (.token 0x20 6)) ∧
    exec (.tokDec 0x00) s = .next (s.setOpResult (.token 0x00 0)) ∧
    exec (.tokDec 0xFF) s = .next (s.setOpResult (.token 0xF0 15))

/-- R114: SC.OF is max(0, log2(bs) - 10) on the 20 legal sizes, and the class covers the size. -/
def Obligations.ScOfIsClampedLog2 : Prop :=
  ∀ (k : Nat) (bs : U32) (s : State), 6 ≤ k → k ≤ 25 → bs.toNat = 2 ^ k →
    ∃ sc : U4, exec (.scOf bs) s = .next (s.setOpResult (.sizeClass sc)) ∧
      (sc.toNat : Int) = max 0 ((k : Int) - 10) ∧ bs.toNat ≤ 2 ^ (10 + sc.toNat)

/-- R115: HDR.PACK is the token and the three fields, 13 bytes, with no validation. -/
def Obligations.HdrPackConcatenatesTheFields : Prop :=
  (∀ (token : Byte) (clen olen csum : U32) (s : State), ∃ c o k : Bytes,
    exec (.le32Enc clen) s = .next (s.setOpResult (.bytes c)) ∧
    exec (.le32Enc olen) s = .next (s.setOpResult (.bytes o)) ∧
    exec (.le32Enc csum) s = .next (s.setOpResult (.bytes k)) ∧
    exec (.hdrPack token clen olen csum) s = .next (s.setOpResult (.bytes ([token] ++ c ++ o ++ k))) ∧
    ([token] ++ c ++ o ++ k).length = 13) ∧
  (∀ (sc : U4) (s : State),
    exec (.hdrPack (0x10 ||| sc.setWidth 8) 0 0 0) s =
      .next (s.setOpResult (.bytes ((0x10 ||| sc.setWidth 8) :: List.replicate 12 0)))) ∧
  (∀ (c : U32) (s : State), exec (.hdrPack 0x1F 33554432 33554432 c) s =
      .next (s.setOpResult (.bytes ([0x1F, 0, 0, 0, 2, 0, 0, 0, 2] ++ le32Enc c)))) ∧
  ∀ s : State, exec (.hdrPack 0x10 3 3 0x0677E452) s = .next (s.setOpResult
    (.bytes [0x10, 3, 0, 0, 0, 3, 0, 0, 0, 0x52, 0xE4, 0x77, 0x06]))

/-- R116: the codec is a bijection between 13-byte strings and headers. -/
def Obligations.HdrUnpackIsABijection : Prop :=
  (∀ (token : Byte) (clen olen csum : U32) (h : Bytes) (s : State),
    exec (.hdrPack token clen olen csum) s = .next (s.setOpResult (.bytes h)) →
    exec (.hdrUnpack h) s = .next (s.setOpResult (.header ⟨token, clen, olen, csum⟩))) ∧
  (∀ (h : Bytes) (s : State), h.length = 13 → ∃ (token : Byte) (clen olen csum : U32),
    exec (.hdrUnpack h) s = .next (s.setOpResult (.header ⟨token, clen, olen, csum⟩)) ∧
    h.head? = some token ∧
    exec (.le32Dec ((h.drop 1).take 4)) s = .next (s.setOpResult (.word clen)) ∧
    exec (.le32Dec ((h.drop 5).take 4)) s = .next (s.setOpResult (.word olen)) ∧
    exec (.le32Dec ((h.drop 9).take 4)) s = .next (s.setOpResult (.word csum)) ∧
    exec (.hdrPack token clen olen csum) s = .next (s.setOpResult (.bytes h))) ∧
  ∀ s : State, exec (.hdrUnpack [0x10, 3, 0, 0, 0, 3, 0, 0, 0, 0x52, 0xE4, 0x77, 0x06]) s =
    .next (s.setOpResult (.header ⟨0x10, 3, 3, 0x0677E452⟩))

/-- R117: which headers are the marker, which are data, and which reason the others get: the first test that fails. -/
def Obligations.HdrClassifyVerdicts : Prop :=
  ∀ (token : Byte) (clen olen csum : U32) (s : State), ∃ v : Verdict,
    exec (.hdrClassify token clen olen csum) s = .next (s.setOpResult (.verdict v)) ∧
    (let raw := token.toNat / 16 = 1
     let lz4 := token.toNat / 16 = 2
     let a := ¬ raw ∧ ¬ lz4
     let b := 33554432 < olen.toNat
     let c := 2 ^ (10 + token.toNat % 16) < olen.toNat
     let d := raw ∧ clen ≠ olen
     let e := lz4 ∧ olen.toNat ≤ clen.toNat
     let f := olen.toNat = 0 ∧ csum ≠ 0
     (v = .malformed .badMethod ↔ a) ∧
     (v = .malformed .originalTooLarge ↔ ¬ a ∧ b) ∧
     (v = .malformed .sizeClass ↔ ¬ a ∧ ¬ b ∧ c) ∧
     (v = .malformed .rawLength ↔ ¬ a ∧ ¬ b ∧ ¬ c ∧ d) ∧
     (v = .malformed .lz4Length ↔ ¬ a ∧ ¬ b ∧ ¬ c ∧ ¬ d ∧ e) ∧
     (v = .malformed .emptyBlock ↔ ¬ a ∧ ¬ b ∧ ¬ c ∧ ¬ d ∧ ¬ e ∧ f) ∧
     (v = .marker ↔ raw ∧ clen = 0 ∧ olen = 0 ∧ csum = 0) ∧
     (v = .data .raw clen olen csum ↔
       raw ∧ clen = olen ∧ 1 ≤ olen.toNat ∧ olen.toNat ≤ 33554432 ∧ olen.toNat ≤ 2 ^ (10 + token.toNat % 16)) ∧
     (v = .data .lz4 clen olen csum ↔
       lz4 ∧ clen.toNat < olen.toNat ∧ olen.toNat ≤ 33554432 ∧ olen.toNat ≤ 2 ^ (10 + token.toNat % 16)))

/-! ### Encodings -/

/-- R85: the opcode map of the wire records by mask and match of the record's little-endian value, END before BLK.RAW,
the header constraints on top. -/
def Obligations.OpcodeMapSelectsTheRecord : Prop :=
  (∀ b : Bytes, decode (.wireStart b) = .ok .prologue ↔
    b.length = 8 ∧ wireValue b &&& 0xFFFFFFFFFFFFFFFF = 0x6B636F6C42345A4C) ∧
  ∀ h : Bytes, h.length = 13 →
    ((∃ sc, decode (.wireRecord h) = .ok (.endMarker sc)) ↔
      wireValue h &&& 0xFFFFFFFFFFFFFFFFFFFFFFFFF0 = 0x10) ∧
    ((∃ sc len csum, decode (.wireRecord h) = .ok (.blkRaw sc len csum)) ↔
      wireValue h &&& 0xFFFFFFFFFFFFFFFFFFFFFFFFF0 ≠ 0x10 ∧ wireValue h &&& 0xF0 = 0x10 ∧
      ∃ clen olen csum, hdrClassify (hdrUnpack h) = .data .raw clen olen csum ∧ 1 ≤ olen.toNat) ∧
    ((∃ sc clen olen csum, decode (.wireRecord h) = .ok (.blkLz4 sc clen olen csum)) ↔
      wireValue h &&& 0xF0 = 0x20 ∧ ∃ clen olen csum, hdrClassify (hdrUnpack h) = .data .lz4 clen olen csum)

/-- Decoding the encoding of a well-formed instruction gives it back, for every record and every command (R81, R85,
R88). -/
def Obligations.DecodeOfEncodeIsTheInstruction : Prop :=
  ∀ (i : Instr) (e : Encoded), WellFormed i = true → encode i = some e → decode e = .ok i

/-- Every 13-byte string that decodes is the encoding of what it decodes to, which is well formed: no bit of a header is
dropped (R116, R117). -/
def Obligations.EncodeOfDecodedRecordIsItsBytes : Prop :=
  ∀ (h : Bytes) (i : Instr), decode (.wireRecord h) = .ok i → encode i = some (.wireRecord h) ∧ WellFormed i = true

/-- Words written out from the spec's encodings decode to their instructions (R81, R82, R88, the source's example). -/
def Obligations.WrittenOutWordsDecode : Prop :=
  decode (.wireStart [0x4C, 0x5A, 0x34, 0x42, 0x6C, 0x6F, 0x63, 0x6B]) = .ok .prologue ∧
  decode (.wireRecord [0x10, 3, 0, 0, 0, 3, 0, 0, 0, 0x52, 0xE4, 0x77, 0x06]) = .ok (.blkRaw 0 3 0x0677E452) ∧
  decode (.wireRecord [0x20, 0x0B, 0, 0, 0, 0x40, 0, 0, 0, 0x75, 0xFC, 0x32, 0x02]) =
    .ok (.blkLz4 0 11 64 0x0232FC75) ∧
  decode (.wireRecord [0x16, 0, 0, 0, 0, 0, 0, 0, 0, 0, 0, 0, 0]) = .ok (.endMarker 6) ∧
  decode (.tx ⟨0, 64, []⟩) = .ok (.txConfig 64) ∧ decode (.tx ⟨1, 0, [0x2E]⟩) = .ok (.txWrite [0x2E]) ∧
  decode (.tx ⟨2, 0, []⟩) = .ok .txFlush ∧ decode (.tx ⟨3, 0, []⟩) = .ok .txFinish ∧
  decode (.rx ⟨0, 3⟩) = .ok (.rxRead 3)

/-! ### The checksum validator -/

/-- R130, R10: CK.GEN(orig) is HASH32(orig), a function of the original bytes alone, and the source's one value of it. -/
def Obligations.CkGenIsAFunctionOfTheBytes : Prop :=
  (∀ (orig : Bytes) (s : State), exec (.ckGen orig) s = .next (s.setOpResult (.word (hash32 orig)))) ∧
  ∀ s : State, exec (.ckGen [46, 46, 46]) s = .next (s.setOpResult (.word 0x0677E452))

/-- R131: CK.VERIFY completes for every sequence and every expected value, in every state, and compares all 32 bits with
what CK.GEN gives. -/
def Obligations.CkVerifyComparesAllBits : Prop :=
  (∀ (orig : Bytes) (expected : U32) (s : State), ∃ v : U32,
    exec (.ckGen orig) s = .next (s.setOpResult (.word v)) ∧
    exec (.ckVerify orig expected) s = .next (s.setOpResult (.check (if v = expected then .same else .mismatch)))) ∧
  ∀ s : State,
    exec (.ckVerify [46, 46, 46] 0x0677E452) s = .next (s.setOpResult (.check .same)) ∧
    exec (.ckVerify [46, 46, 46] 0x0677E453) s = .next (s.setOpResult (.check .mismatch)) ∧
    exec (.ckVerify [46, 46, 46] 0x7677E452) s = .next (s.setOpResult (.check .mismatch))

/-! ### Stream primitives -/

/-- R17 (SrcGet), R54: of a source that answers it consumes exactly min(n, what is left), in order, whatever the sizes of
the answers, and nothing that is not RX's changes. The answers obtained, in order, are `chunks`, each of at least one byte;
the request made after `i` of them asked for exactly n less what they hold, and one more request met the end of a source
that ran short. The record of the requests, latest first, is the source's (log entry 6). From the first request on RX holds
the source (R215; log entry 15). -/
def Obligations.SrcGetConsumesExactlyItsResult : Prop :=
  ∀ (n : Nat) (s : State), (s.rx.state = .uninitialized ∨ s.rx.state = .idle) → s.source.cooperates →
    ∃ t, exec (.srcGet n) s = .next t ∧
      t.opResult = .source (if n ≤ s.source.rest.length then .full (s.source.rest.take n) else .short s.source.rest) ∧
      t.source.rest = s.source.rest.drop n ∧
      t.rx = { s.rx with pos := s.rx.pos + min n s.source.rest.length } ∧
      sameOutsideRx s t ∧ t.rxRsp = s.rxRsp ∧
      ∃ chunks : List Bytes, (∀ c ∈ chunks, 1 ≤ c.length) ∧ chunks.flatten = s.source.rest.take n ∧
        let asked := chunks.length + if n ≤ s.source.rest.length then 0 else 1
        t.source.requests =
          ((List.range asked).map fun i => n - (chunks.take i).flatten.length).reverse ++ s.source.requests ∧
        t.source.answers = s.source.answers.drop asked ∧ t.source.used = (s.source.used || decide (asked ≠ 0))

/-- R17 (SinkPut), R55: into a sink that accepts it appends exactly `b`, in order, and counts it; nothing that is not
TX's changes. From the first request on TX holds the sink (R150; log entry 15); no byte, no request. -/
def Obligations.SinkPutAppendsAllBytes : Prop :=
  ∀ (b : Bytes) (s : State), s.tx.state = .ready → s.sink.cooperates →
    ∃ t, exec (.sinkPut b) s = .next t ∧ t.opResult = .done ∧ t.sink.accepted = s.sink.accepted ++ b ∧
      t.sink.flushed = s.sink.flushed ∧ t.sink.flushRequests = s.sink.flushRequests ∧
      t.sink.used = (s.sink.used || decide (b ≠ [])) ∧
      t.tx = { s.tx with pos := s.tx.pos + b.length } ∧ sameOutsideTx s t ∧ t.txRsp = s.txRsp ∧
      t.freeCount = s.freeCount

/-- R17 (SinkFlush), R60: one request, after which everything accepted before is covered; no byte is put. It is a request
like any other, so TX holds the sink from it on (R150; log entry 15). -/
def Obligations.SinkFlushCoversAllAccepted : Prop :=
  ∀ s : State, s.tx.state = .ready → s.sink.cooperates →
    ∃ t, exec .sinkFlush s = .next t ∧ t.opResult = .done ∧ t.sink.accepted = s.sink.accepted ∧
      t.sink.flushed = s.sink.accepted.length ∧ t.sink.flushRequests = s.sink.flushRequests + 1 ∧
      t.sink.used = true ∧ t.tx = s.tx ∧ sameOutsideTx s t ∧ t.txRsp = s.txRsp ∧ t.freeCount = s.freeCount

/-- R208, R17: an endpoint's error, and a zero count, fail the command with IoError, carried verbatim, without a retry: no
answer after it is used. SrcGet, SinkPut and SinkFlush raise it after any number of good answers before it; whatever
instruction of RX or of TX uses up the answer (a prologue, a header, a payload, a block of a write, a pending block, the
marker), that error is what it answers, and the last answer it uses; and the commands whose first request meets it do use
it up. -/
def Obligations.EndpointErrorsArePropagatedVerbatim : Prop :=
  (∀ (n : Nat) (good : List Nat) (e : EndpointError) (as : List SrcAnswer) (s : State),
    s.rx.state = .uninitialized ∨ s.rx.state = .idle → s.source.answers = good.map .data ++ .ioError e :: as →
    let got := (good.map (· + 1)).sum
    got < n → got ≤ s.source.rest.length →
    ∃ t, exec (.srcGet n) s = .next t ∧ t.opResult = .raised ⟨.io, some (.endpointError e)⟩ ∧
      t.rx = ⟨.failed, [], 0, some .io, s.rx.pos + got⟩ ∧ t.source.rest = s.source.rest.drop got ∧
      t.source.answers = as ∧ sameOutsideRx s t ∧ t.rxRsp = s.rxRsp) ∧
  (∀ (b : Bytes) (good : List Nat) (bad : SinkAnswer) (info : ErrInfo) (as : List SinkAnswer) (s : State),
    bad.failsWith info → s.tx.state = .ready → s.sink.answers = good.map (fun c => .count (c + 1)) ++ bad :: as →
    let put := (good.map (· + 1)).sum
    put < b.length →
    ∃ t, exec (.sinkPut b) s = .next t ∧ t.opResult = .raised ⟨.io, some info⟩ ∧ t.tx.state = .failed ∧
      t.tx.pos = s.tx.pos + put ∧ (∃ p, p <+: b ∧ t.sink.accepted = s.sink.accepted ++ p) ∧ t.sink.answers = as ∧
      sameOutsideTx s t ∧ t.txRsp = s.txRsp) ∧
  (∀ (e : EndpointError) (as : List FlushAnswer) (s : State), s.tx.state = .ready →
    s.sink.flushAnswers = .ioError e :: as →
    ∃ t, exec .sinkFlush s = .next t ∧ t.opResult = .raised ⟨.io, some (.endpointError e)⟩ ∧ t.tx.state = .failed ∧
      t.sink.accepted = s.sink.accepted ∧ t.sink.flushAnswers = as ∧ sameOutsideTx s t ∧ t.txRsp = s.txRsp) ∧
  (∀ (i : Instr) (good : List Nat) (e : EndpointError) (as : List SrcAnswer) (s t : State), ofRx i = true →
    s.source.answers = good.map .data ++ .ioError e :: as → exec i s = .next t →
    t.source.answers.length ≤ as.length →
    t.source.answers = as ∧ t.rx.state = .failed ∧ t.rx.err = some .io ∧
      ((∃ n, i = .rxRead n) → t.rxRsp = some (.err .io (some (.endpointError e)))) ∧
      ((∀ n, i ≠ .rxRead n) → t.opResult = .raised ⟨.io, some (.endpointError e)⟩)) ∧
  (∀ (i : Instr) (good : List Nat) (bad : SinkAnswer) (info : ErrInfo) (as : List SinkAnswer) (s t : State),
    ofTx i = true → bad.failsWith info → s.sink.answers = good.map (fun c => .count (c + 1)) ++ bad :: as →
    exec i s = .next t → t.sink.answers.length ≤ as.length →
    t.sink.answers = as ∧ t.tx.state = .failed ∧
      ((∃ data, i = .txWrite data) ∨ i = .txFlush ∨ i = .txFinish → t.txRsp = some (.err .io (some info))) ∧
      (i = .txPrologue ∨ (∃ orig, i = .txBlock orig) ∨ i = .txMarker ∨ (∃ b, i = .sinkPut b) →
        t.opResult = .raised ⟨.io, some info⟩)) ∧
  (∀ (i : Instr) (e : EndpointError) (as : List FlushAnswer) (s t : State), ofTx i = true →
    s.sink.flushAnswers = .ioError e :: as → exec i s = .next t → t.sink.flushAnswers.length ≤ as.length →
    t.sink.flushAnswers = as ∧ t.tx.state = .failed ∧
      (i = .txFlush ∨ i = .txFinish → t.txRsp = some (.err .io (some (.endpointError e))))) ∧
  (∀ (n : Nat) (e : EndpointError) (as : List SrcAnswer) (s : State), 1 ≤ n → s.rx.state = .idle →
    s.source.answers = .ioError e :: as →
    ∃ t, exec (.rxRead n) s = .next t ∧ t.rxRsp = some (.err .io (some (.endpointError e))) ∧ t.rx.state = .failed ∧
      t.rx.err = some .io ∧ t.source.rest = s.source.rest ∧ t.source.answers = as) ∧
  (∀ (taken : Nat) (e : EndpointError) (as : List SinkAnswer) (s : State), s.tx.state = .ready → s.tx.abuf = [] →
    s.sink.answers = .ioError taken e :: as →
    ∃ t, exec .txFinish s = .next t ∧ t.txRsp = some (.err .io (some (.endpointError e))) ∧ t.tx.state = .failed ∧
      t.sink.answers = as) ∧
  (∀ (as : List SinkAnswer) (s : State), s.tx.state = .ready → s.tx.abuf = [] → s.sink.answers = .count 0 :: as →
    ∃ t, exec .txFinish s = .next t ∧ t.txRsp = some (.err .io (some .writeZero)) ∧ t.tx.state = .failed ∧
      t.sink.answers = as) ∧
  ∀ (e : EndpointError) (as : List FlushAnswer) (s : State), s.tx.state = .ready → s.tx.abuf = [] →
    s.sink.flushAnswers = .ioError e :: as →
    ∃ t, exec .txFlush s = .next t ∧ t.txRsp = some (.err .io (some (.endpointError e))) ∧ t.tx.state = .failed ∧
      t.sink.flushAnswers = as

/-- R244, U12: an endpoint that never answers hangs the command: there is no next state (a fault by name: log entry 17).
SrcGet, SinkPut and SinkFlush hang on such a request after any number of good answers before it; an instruction of RX or of
TX that does answer has not come to it; and the commands whose first request is that one hang. -/
def Obligations.UnansweredRequestHangs : Prop :=
  (∀ (n : Nat) (good : List Nat) (as : List SrcAnswer) (s : State),
    s.rx.state = .uninitialized ∨ s.rx.state = .idle → s.source.answers = good.map .data ++ .never :: as →
    let got := (good.map (· + 1)).sum
    got < n → got ≤ s.source.rest.length → exec (.srcGet n) s = .fault .sourceNeverAnswers) ∧
  (∀ (b : Bytes) (good : List Nat) (as : List SinkAnswer) (s : State), s.tx.state = .ready →
    s.sink.answers = good.map (fun c => .count (c + 1)) ++ .never :: as →
    let put := (good.map (· + 1)).sum
    put < b.length → exec (.sinkPut b) s = .fault .sinkNeverAnswers) ∧
  (∀ (as : List FlushAnswer) (s : State), s.tx.state = .ready → s.sink.flushAnswers = .never :: as →
    exec .sinkFlush s = .fault .flushNeverAnswers) ∧
  (∀ (i : Instr) (good : List Nat) (as : List SrcAnswer) (s t : State), ofRx i = true →
    s.source.answers = good.map .data ++ .never :: as → exec i s = .next t →
    as.length < t.source.answers.length) ∧
  (∀ (i : Instr) (good : List Nat) (as : List SinkAnswer) (s t : State), ofTx i = true →
    s.sink.answers = good.map (fun c => .count (c + 1)) ++ .never :: as → exec i s = .next t →
    as.length < t.sink.answers.length) ∧
  (∀ (i : Instr) (as : List FlushAnswer) (s t : State), ofTx i = true →
    s.sink.flushAnswers = .never :: as → exec i s = .next t → as.length < t.sink.flushAnswers.length) ∧
  (∀ (n : Nat) (as : List SrcAnswer) (s : State), 1 ≤ n → s.rx.state = .idle → s.source.answers = .never :: as →
    exec (.rxRead n) s = .fault .sourceNeverAnswers) ∧
  (∀ (as : List SinkAnswer) (s : State), s.tx.state = .ready → s.tx.abuf = [] → s.sink.answers = .never :: as →
    exec .txFinish s = .fault .sinkNeverAnswers) ∧
  ∀ (as : List FlushAnswer) (s : State), s.tx.state = .ready → s.tx.abuf = [] → s.sink.flushAnswers = .never :: as →
    exec .txFlush s = .fault .flushNeverAnswers

/-! ### TX -/

/-- R144: the gating table of the TX commands. -/
def Obligations.TxGatingTable : Prop :=
  ∀ (bs : U32) (data : Bytes) (s : State),
    let useAfterFinish := s.setTxRsp (some (.err .format (some .useAfterFinish)))
    (s.tx.state = .unconfigured → (∃ t, exec (.txConfig bs) s = .next t) ∧
      exec (.txWrite data) s = .refused .txUnconfigured ∧ exec .txFlush s = .refused .txUnconfigured ∧
      exec .txFinish s = .refused .txUnconfigured) ∧
    (s.tx.state = .ready → exec (.txConfig bs) s = .refused .txAlreadyConfigured ∧
      ∀ r, exec (.txWrite data) s ≠ .refused r ∧ exec .txFlush s ≠ .refused r ∧ exec .txFinish s ≠ .refused r) ∧
    (s.tx.state = .finished → exec (.txConfig bs) s = .refused .txAlreadyConfigured ∧
      exec (.txWrite data) s = .next useAfterFinish ∧ exec .txFlush s = .next useAfterFinish ∧
      exec .txFinish s = .next useAfterFinish) ∧
    (s.tx.state = .failed → exec (.txConfig bs) s = .refused .txFailed ∧
      exec (.txWrite data) s = .refused .txFailed ∧ exec .txFlush s = .refused .txFailed ∧
      exec .txFinish s = .refused .txFailed)

/-- R140: TX.CONFIG, `op` 0, accepts exactly 2^6 .. 2^25 and answers every other size with ConfigError, changing
nothing; no request is made to the sink on either path. -/
def Obligations.TxConfigAcceptsExactlyTheLegalSizes : Prop :=
  (∀ (bs : U32) (d : Bytes), decode (.tx ⟨0, bs, d⟩) = .ok (.txConfig bs)) ∧
  ∀ (bs : U32) (s : State), s.tx.state = .unconfigured →
    ((∃ k, 6 ≤ k ∧ k ≤ 25 ∧ bs.toNat = 2 ^ k) →
      exec (.txConfig bs) s = .next ((s.setTx
        { s.tx with blockSize := bs.toNat, sc := scOf bs.toNat, state := .ready }).setTxRsp (some .ok))) ∧
    ((bs.toNat < 64 ∨ 33554432 < bs.toNat) →
      exec (.txConfig bs) s = .next (s.setTxRsp (some (.err .config (some .outOfRange))))) ∧
    (64 ≤ bs.toNat → bs.toNat ≤ 33554432 → (¬ ∃ k, bs.toNat = 2 ^ k) →
      exec (.txConfig bs) s = .next (s.setTxRsp (some (.err .config (some .notPowerOfTwo)))))

/-- R141: a write that does not fill the buffer only appends to it: no block, no prologue, no request; an empty write
does nothing at all. -/
def Obligations.TxWriteBelowCapacityOnlyBuffers : Prop :=
  ∀ (data : Bytes) (s : State), s.tx.state = .ready → s.tx.abuf.length + data.length < s.tx.blockSize →
    exec (.txWrite data) s =
      .next ((s.setTx { s.tx with abuf := s.tx.abuf ++ data }).setTxRsp (some .ok))

/-- R141, R205: into a sink that accepts, TX.WRITE completes: it answers Ok if the backend answers for every block the
write fills, block `i` being the `i`-th slice of the buffered bytes and the data, and otherwise the backend's own error for
the first of these blocks on which it fails. -/
def Obligations.TxWriteCompletes : Prop :=
  ∀ (data : Bytes) (s : State), s.tx.state = .ready → s.tx.abuf.length < s.tx.blockSize → s.sink.cooperates →
    let whole := s.tx.abuf ++ data
    let q := whole.length / s.tx.blockSize
    ((∀ i, i < q → ∃ c, Config.compress (sliceOf s.tx.blockSize i whole) = .bytes c) →
      ∃ t, exec (.txWrite data) s = .next t ∧ t.txRsp = some .ok ∧ t.tx.state = .ready) ∧
    ∀ (i : Nat) (e : Config.BackendError), i < q →
      (∀ j, j < i → ∃ c, Config.compress (sliceOf s.tx.blockSize j whole) = .bytes c) →
      Config.compress (sliceOf s.tx.blockSize i whole) = .error e →
      ∃ t, exec (.txWrite data) s = .next t ∧ t.txRsp = some (.err .backend (some (.backendError e))) ∧
        t.tx.state = .failed

/-- R141 (consequence), R148: with `a` bytes buffered a successful write of `L` bytes emits floor((a + L) / BLOCK_SIZE)
blocks, block `i` storing the `i`-th slice of the buffered bytes and the data, after MAGIC if it is still due, and keeps
the rest, (a + L) mod BLOCK_SIZE bytes; no flush is requested, and nothing else changes. -/
def Obligations.TxWriteEmitsExactlyTheFullBlocks : Prop :=
  ∀ (data : Bytes) (s t : State), s.tx.state = .ready → s.tx.abuf.length < s.tx.blockSize →
    exec (.txWrite data) s = .next t → t.txRsp = some .ok →
    let whole := s.tx.abuf ++ data
    let q := whole.length / s.tx.blockSize
    ∃ recs : List Bytes, recs.length = q ∧
      (∀ i, i < q → ∃ c, Config.compress (sliceOf s.tx.blockSize i whole) = .bytes c ∧
        recs[i]? = some (recordBytes s.tx.sc (sliceOf s.tx.blockSize i whole) c)) ∧
      t.sink.accepted = s.sink.accepted ++ (if q = 0 then [] else prologueDue s.tx) ++ recs.flatten ∧
      t.tx.abuf = whole.drop (q * s.tx.blockSize) ∧ t.tx.abuf.length = whole.length % s.tx.blockSize ∧
      t.tx.prologueDone = (s.tx.prologueDone || decide (q ≠ 0)) ∧
      t.tx.pos + s.sink.accepted.length = s.tx.pos + t.sink.accepted.length ∧
      t.tx.state = .ready ∧ t.tx.blockSize = s.tx.blockSize ∧ t.tx.sc = s.tx.sc ∧
      t.sink.flushRequests = s.sink.flushRequests ∧ t.sink.flushed = s.sink.flushed ∧
      sameOutsideTx s t ∧ t.freeCount = s.freeCount ∧ t.opResult = s.opResult

/-- R141 (consequence): how the host splits its data over several TX.WRITE commands changes nothing: two successful
writes end in the same state as one write of both. -/
def Obligations.TxWriteSplitIsInvisible : Prop :=
  ∀ (a b : Bytes) (s t u : State), s.tx.state = .ready → s.tx.abuf.length < s.tx.blockSize →
    exec (.txWrite a) s = .next t → exec (.txWrite b) t = .next u → exec (.txWrite (a ++ b)) s = .next u

/-- R142: TX.FLUSH puts nothing for an empty buffer, not even the prologue, and a short block otherwise; it makes one
flush request in either case and leaves TX Ready; a backend failure comes before any request. -/
def Obligations.TxFlushEmitsThePendingBlock : Prop :=
  ∀ s : State, s.tx.state = .ready → s.sink.cooperates →
    ∃ t, exec .txFlush s = .next t ∧ sameOutsideTx s t ∧ t.opResult = s.opResult ∧
      (s.tx.abuf = [] → t.txRsp = some .ok ∧ t.tx = s.tx ∧ t.sink.accepted = s.sink.accepted ∧
        t.sink.flushed = t.sink.accepted.length ∧ t.sink.flushRequests = s.sink.flushRequests + 1 ∧
        t.freeCount = s.freeCount) ∧
      (s.tx.abuf ≠ [] → ∀ c, Config.compress s.tx.abuf = .bytes c →
        t.txRsp = some .ok ∧
        t.sink.accepted = s.sink.accepted ++ prologueDue s.tx ++ recordBytes s.tx.sc s.tx.abuf c ∧
        t.sink.flushed = t.sink.accepted.length ∧ t.sink.flushRequests = s.sink.flushRequests + 1 ∧
        t.tx = { s.tx with
          abuf := [], prologueDone := true,
          pos := s.tx.pos + (prologueDue s.tx ++ recordBytes s.tx.sc s.tx.abuf c).length } ∧
        t.freeCount = s.freeCount) ∧
      (s.tx.abuf ≠ [] → ∀ e, Config.compress s.tx.abuf = .error e →
        t.txRsp = some (.err .backend (some (.backendError e))) ∧ t.tx.state = .failed ∧ t.sink = s.sink)

/-- R143: TX.FINISH emits the pending block, then the end marker, then flushes, and TX is Finished; a backend failure
comes before any request. -/
def Obligations.TxFinishEndsTheContainer : Prop :=
  ∀ s : State, s.tx.state = .ready → s.sink.cooperates →
    ∃ t, exec .txFinish s = .next t ∧ sameOutsideTx s t ∧ t.opResult = s.opResult ∧
      (s.tx.abuf = [] → t.txRsp = some .ok ∧
        t.sink.accepted = s.sink.accepted ++ prologueDue s.tx ++ markerBytes s.tx.sc ∧
        t.sink.flushed = t.sink.accepted.length ∧ t.sink.flushRequests = s.sink.flushRequests + 1 ∧
        t.tx = { s.tx with
          state := .finished, prologueDone := true,
          pos := s.tx.pos + (prologueDue s.tx ++ markerBytes s.tx.sc).length } ∧
        t.freeCount = s.freeCount) ∧
      (s.tx.abuf ≠ [] → ∀ c, Config.compress s.tx.abuf = .bytes c →
        t.txRsp = some .ok ∧
        t.sink.accepted =
          s.sink.accepted ++ prologueDue s.tx ++ recordBytes s.tx.sc s.tx.abuf c ++ markerBytes s.tx.sc ∧
        t.sink.flushed = t.sink.accepted.length ∧ t.sink.flushRequests = s.sink.flushRequests + 1 ∧
        t.tx = { s.tx with
          state := .finished, abuf := [], prologueDone := true,
          pos := s.tx.pos + (prologueDue s.tx ++ recordBytes s.tx.sc s.tx.abuf c ++ markerBytes s.tx.sc).length } ∧
        t.freeCount = s.freeCount) ∧
      (s.tx.abuf ≠ [] → ∀ e, Config.compress s.tx.abuf = .error e →
        t.txRsp = some (.err .backend (some (.backendError e))) ∧ t.tx.state = .failed ∧ t.sink = s.sink)

/-- R145: TX.PROLOGUE puts the eight bytes of MAGIC and sets the flag if the flag is clear, and does nothing if it is
set. -/
def Obligations.TxProloguePutsMagicOnce : Prop :=
  ∀ s : State, s.tx.state = .ready →
    (s.tx.prologueDone = true → exec .txPrologue s = .next (s.setOpResult .done)) ∧
    (s.tx.prologueDone = false → s.sink.cooperates →
      ∃ t, exec .txPrologue s = .next t ∧ t.opResult = .done ∧
        t.sink.accepted = s.sink.accepted ++ [0x4C, 0x5A, 0x34, 0x42, 0x6C, 0x6F, 0x63, 0x6B] ∧
        t.sink.flushRequests = s.sink.flushRequests ∧
        t.tx = { s.tx with prologueDone := true, pos := s.tx.pos + 8 } ∧ sameOutsideTx s t ∧ t.txRsp = s.txRsp)

/-- R146, R210: TX.BLOCK stores LZ4 exactly when the backend's answer is strictly shorter, RAW otherwise, with the
checksum of the original bytes and the configured size class; a backend failure raises BackendError before any request.
-/
def Obligations.TxBlockStoresTheShorterForm : Prop :=
  ∀ (orig : Bytes) (s : State), s.tx.state = .ready → 1 ≤ orig.length → orig.length ≤ s.tx.blockSize →
    s.sink.cooperates →
    ∃ t, exec (.txBlock orig) s = .next t ∧ sameOutsideTx s t ∧ t.txRsp = s.txRsp ∧
      (∀ c, Config.compress orig = .bytes c →
        ∃ (m : Method) (payload : Bytes) (hdr : Bytes),
          (m = .lz4 ∧ payload = c ∧ c.length < orig.length ∨ m = .raw ∧ payload = orig ∧ orig.length ≤ c.length) ∧
          hdr = hdrPack ⟨tokEnc m s.tx.sc, BitVec.ofNat 32 payload.length, BitVec.ofNat 32 orig.length, ckGen orig⟩ ∧
          t.opResult = .done ∧ t.sink.accepted = s.sink.accepted ++ prologueDue s.tx ++ hdr ++ payload ∧
          t.sink.flushRequests = s.sink.flushRequests ∧
          t.tx = { s.tx with
            prologueDone := true, pos := s.tx.pos + (prologueDue s.tx).length + 13 + payload.length } ∧
          t.freeCount = s.freeCount) ∧
      (∀ e, Config.compress orig = .error e →
        t.opResult = .raised ⟨.backend, some (.backendError e)⟩ ∧ t.tx.state = .failed ∧ t.sink = s.sink)

/-- R147: TX.MARKER puts the end marker of the configured size class, 13 bytes, after MAGIC if it is still due. -/
def Obligations.TxMarkerPutsThirteenBytes : Prop :=
  ∀ s : State, s.tx.state = .ready → s.sink.cooperates →
    ∃ t, exec .txMarker s = .next t ∧ t.opResult = .done ∧
      t.sink.accepted =
        s.sink.accepted ++ prologueDue s.tx ++ (0x10 ||| s.tx.sc.setWidth 8) :: List.replicate 12 0 ∧
      t.sink.flushRequests = s.sink.flushRequests ∧
      t.tx = { s.tx with prologueDone := true, pos := s.tx.pos + (prologueDue s.tx).length + 13 } ∧
      sameOutsideTx s t ∧ t.txRsp = s.txRsp

/-- R207, R149: an error answer of a TX command: ConfigError and FormatError change nothing but the answer; BackendError
and IoError make TX Failed, and the sink holds what it held plus bytes after it. -/
def Obligations.TxErrorEntry : Prop :=
  ∀ (i : Instr) (s t : State) (k : ErrKind) (info : Option ErrInfo),
    (∃ bs, i = .txConfig bs) ∨ (∃ data, i = .txWrite data) ∨ i = .txFlush ∨ i = .txFinish →
    exec i s = .next t → t.txRsp = some (.err k info) →
    (k = .config ∨ k = .format → t = s.setTxRsp (some (.err k info))) ∧
    (k = .backend ∨ k = .io → t.tx.state = .failed ∧ s.sink.accepted <+: t.sink.accepted ∧
      t.tx.blockSize = s.tx.blockSize ∧ t.tx.sc = s.tx.sc ∧ s.tx.pos ≤ t.tx.pos ∧
      t.tx.pos - s.tx.pos ≤ t.sink.accepted.length - s.sink.accepted.length) ∧
    (k ≠ .corruption ∧ k ≠ .truncation)

/-- R119: every header TX emits is classified Data or Marker, with the fields TX put in it. -/
def Obligations.EmittedHeadersAreLegal : Prop :=
  (∀ (bs : Nat) (orig c : Bytes), legalBlockSize bs = true → 1 ≤ orig.length → orig.length ≤ bs →
    ∃ (m : Method) (payload : Bytes), (m = .lz4 ∧ payload = c ∧ c.length < orig.length ∨ m = .raw ∧ payload = orig) ∧
      recordBytes (scOf bs) orig c = blockHeader (scOf bs) m payload orig ++ payload ∧
      hdrClassify (hdrUnpack (blockHeader (scOf bs) m payload orig)) =
        .data m (BitVec.ofNat 32 payload.length) (BitVec.ofNat 32 orig.length) (hash32 orig)) ∧
  ∀ sc : U4, hdrClassify (hdrUnpack (markerBytes sc)) = .marker

/-! ### RX -/

/-- R173: RX.INIT becomes Idle exactly when the first eight bytes are MAGIC; anything else, and a source that ends inside
the prologue, is FormatError. -/
def Obligations.RxInitDetectsThePrologue : Prop :=
  ∀ s : State, s.rx.state = .uninitialized → s.source.cooperates →
    ∃ t, exec .rxInit s = .next t ∧ sameOutsideRx s t ∧ t.rxRsp = s.rxRsp ∧
      t.source.rest = s.source.rest.drop 8 ∧ t.rx.pos = s.rx.pos + min 8 s.source.rest.length ∧
      (s.source.rest.take 8 = [0x4C, 0x5A, 0x34, 0x42, 0x6C, 0x6F, 0x63, 0x6B] →
        t.opResult = .done ∧ t.rx = { s.rx with state := .idle, pos := s.rx.pos + 8 }) ∧
      (s.source.rest.take 8 ≠ [0x4C, 0x5A, 0x34, 0x42, 0x6C, 0x6F, 0x63, 0x6B] →
        t.opResult = .raised ⟨.format, some (if s.source.rest.length < 8 then .shortPrologue else .badMagic)⟩ ∧
        t.rx.state = .failed ∧ t.rx.err = some .format ∧ t.rx.dbuf = [] ∧ t.rx.dcur = 0)

/-- R174, R13: RX.REFILL where the source ends: between blocks the parameter decides, inside a header it is
TruncationError. -/
def Obligations.RxRefillAtTheEndOfTheSource : Prop :=
  ∀ s : State, s.rx.state = .idle → s.source.cooperates → s.source.rest.length < 13 →
    ∃ t, exec .rxRefill s = .next t ∧ sameOutsideRx s t ∧ t.rxRsp = s.rxRsp ∧ t.source.rest = [] ∧
      t.rx.pos = s.rx.pos + s.source.rest.length ∧
      (s.source.rest = [] → Config.eofAtBoundary = .clean →
        t.opResult = .done ∧ t.rx = { s.rx with state := .terminated }) ∧
      (s.source.rest = [] → Config.eofAtBoundary = .truncation →
        t.opResult = .raised ⟨.truncation, some .noMarker⟩ ∧ t.rx.state = .failed ∧ t.rx.err = some .truncation) ∧
      (s.source.rest ≠ [] →
        t.opResult = .raised ⟨.truncation, some .midHeader⟩ ∧ t.rx.state = .failed ∧ t.rx.err = some .truncation)

/-- R175, R86, R211: a malformed header is FormatError; its 13 bytes are consumed and no payload byte is, however much
follows. -/
def Obligations.MalformedHeaderIsFormatError : Prop :=
  ∀ (h tail : Bytes) (r : MalformedReason) (s : State), s.rx.state = .idle → s.source.cooperates →
    s.source.rest = h ++ tail → h.length = 13 → hdrClassify (hdrUnpack h) = .malformed r →
    ∃ t, exec .rxRefill s = .next t ∧ t.opResult = .raised ⟨.format, some (.malformed r)⟩ ∧ t.source.rest = tail ∧
      t.rx = ⟨.failed, [], 0, some .format, s.rx.pos + 13⟩ ∧ sameOutsideRx s t ∧ t.rxRsp = s.rxRsp

/-- R174 to R178: RX.REFILL on a header that decodes is SrcGet(13) and then the decoded record. -/
def Obligations.RefillRunsTheFetchedRecord : Prop :=
  ∀ (h tail : Bytes) (i : Instr) (s u : State), s.rx.state = .idle → s.source.rest = h ++ tail → h.length = 13 →
    decode (.wireRecord h) = .ok i → exec (.srcGet 13) s = .next u → u.rx.state = .idle →
    exec .rxRefill s = exec i u

/-- R174, R176, R177, R179: RX.REFILL completes on an end marker, whatever its size class, and on a RAW block whose
checksum matches: it consumes exactly that record. -/
def Obligations.RxRefillFetchesOneRecord : Prop :=
  ∀ (h rest : Bytes) (s : State), s.rx.state = .idle → s.source.cooperates → s.source.rest = h ++ rest → h.length = 13 →
    (∀ sc, decode (.wireRecord h) = .ok (.endMarker sc) →
      ∃ t, exec .rxRefill s = .next t ∧ t.opResult = .done ∧ t.source.rest = rest ∧
        t.rx = { s.rx with state := .terminated, pos := s.rx.pos + 13 } ∧ sameOutsideRx s t ∧ t.rxRsp = s.rxRsp) ∧
    (∀ sc len csum payload tail, decode (.wireRecord h) = .ok (.blkRaw sc len csum) → rest = payload ++ tail →
      payload.length = len.toNat → hash32 payload = csum →
      ∃ t, exec .rxRefill s = .next t ∧ t.opResult = .done ∧ t.source.rest = tail ∧
        t.rx = ⟨.decodingBlock, payload, 0, s.rx.err, s.rx.pos + 13 + len.toNat⟩ ∧ sameOutsideRx s t ∧
        t.rxRsp = s.rxRsp)

/-- R173, R176 (as a wire record once fetched): the prologue makes RX Idle, the end marker makes it Terminated whatever
its size class; nothing is read and nothing else changes (a record's effect without its fetch: log entry 11). -/
def Obligations.PrologueAndMarkerRecords : Prop :=
  ∀ (sc : U4) (s : State),
    (s.rx.state = .uninitialized →
      exec .prologue s = .next ((s.setRx { s.rx with state := .idle }).setOpResult .done)) ∧
    (s.rx.state = .idle →
      exec (.endMarker sc) s = .next ((s.setRx { s.rx with state := .terminated }).setOpResult .done))

/-- R177, R179, R203: a RAW block whose payload is there is loaded exactly if its checksum matches, else CorruptionError
with nothing loaded; the BLK.RAW record and RX.PAYLOAD do the same. -/
def Obligations.RawBlockIsVerifiedThenLoaded : Prop :=
  ∀ (sc : U4) (len csum : U32) (payload tail : Bytes) (s : State), s.rx.state = .idle → s.source.cooperates →
    WellFormed (.blkRaw sc len csum) = true → s.source.rest = payload ++ tail → payload.length = len.toNat →
    ∃ t, exec (.blkRaw sc len csum) s = .next t ∧ exec (.rxPayload .raw len len csum) s = .next t ∧
      t.source.rest = tail ∧ sameOutsideRx s t ∧ t.rxRsp = s.rxRsp ∧
      (hash32 payload = csum →
        t.opResult = .done ∧ t.rx = ⟨.decodingBlock, payload, 0, s.rx.err, s.rx.pos + len.toNat⟩) ∧
      (hash32 payload ≠ csum →
        t.opResult = .raised ⟨.corruption, none⟩ ∧
        t.rx = ⟨.failed, [], 0, some .corruption, s.rx.pos + len.toNat⟩)

/-- R178, R179, R205, R211: an LZ4 block is decompressed, its length checked, then verified over the decompressed bytes;
a backend failure or a wrong length is BackendError before any checksum is looked at. -/
def Obligations.Lz4BlockIsDecompressedThenVerified : Prop :=
  ∀ (sc : U4) (clen olen csum : U32) (payload tail : Bytes) (s : State), s.rx.state = .idle → s.source.cooperates →
    WellFormed (.blkLz4 sc clen olen csum) = true → s.source.rest = payload ++ tail → payload.length = clen.toNat →
    ∃ t, exec (.blkLz4 sc clen olen csum) s = .next t ∧ exec (.rxPayload .lz4 clen olen csum) s = .next t ∧
      t.source.rest = tail ∧ sameOutsideRx s t ∧ t.rxRsp = s.rxRsp ∧
      (∀ e, Config.decompress payload olen.toNat = .error e →
        t.opResult = .raised ⟨.backend, some (.backendError e)⟩ ∧
        t.rx = ⟨.failed, [], 0, some .backend, s.rx.pos + clen.toNat⟩) ∧
      (∀ d, Config.decompress payload olen.toNat = .bytes d →
        (d.length ≠ olen.toNat → t.opResult = .raised ⟨.backend, some .inconsistentLength⟩ ∧
          t.rx = ⟨.failed, [], 0, some .backend, s.rx.pos + clen.toNat⟩) ∧
        (d.length = olen.toNat → hash32 d ≠ csum → t.opResult = .raised ⟨.corruption, none⟩ ∧
          t.rx = ⟨.failed, [], 0, some .corruption, s.rx.pos + clen.toNat⟩) ∧
        (d.length = olen.toNat → hash32 d = csum → t.opResult = .done ∧
          t.rx = ⟨.decodingBlock, d, 0, s.rx.err, s.rx.pos + clen.toNat⟩))

/-- R177, R178, R204: a source that ends before the payload is complete, also before its first byte, is TruncationError,
in RX.PAYLOAD and in both data records. -/
def Obligations.ShortPayloadIsTruncationError : Prop :=
  ∀ (i : Instr) (clen : U32) (s : State), s.rx.state = .idle → s.source.cooperates →
    (∃ m olen csum, i = .rxPayload m clen olen csum) ∨ (∃ sc csum, i = .blkRaw sc clen csum) ∨
      (∃ sc olen csum, i = .blkLz4 sc clen olen csum) →
    WellFormed i = true → s.source.rest.length < clen.toNat →
    ∃ t, exec i s = .next t ∧ t.opResult = .raised ⟨.truncation, some .midPayload⟩ ∧
      t.source.rest = [] ∧ t.rx = ⟨.failed, [], 0, some .truncation, s.rx.pos + s.source.rest.length⟩ ∧
      sameOutsideRx s t ∧ t.rxRsp = s.rxRsp

/-- R170: with undelivered bytes RX.READ delivers min(n, bytes left) of them from the cursor on, makes no request, and
empties a drained buffer. -/
def Obligations.RxReadDeliversFromTheBuffer : Prop :=
  ∀ (n : Nat) (s : State), 1 ≤ n → s.rx.state = .decodingBlock → s.rx.dcur < s.rx.dbuf.length →
    let k := min n (s.rx.dbuf.length - s.rx.dcur)
    let out := (s.rx.dbuf.drop s.rx.dcur).take k
    1 ≤ out.length ∧ out.length ≤ n ∧
    (s.rx.dcur + k < s.rx.dbuf.length → exec (.rxRead n) s =
      .next ((s.setRx { s.rx with dcur := s.rx.dcur + k }).setRxRsp (some (.data out)))) ∧
    (s.rx.dcur + k = s.rx.dbuf.length → exec (.rxRead n) s =
      .next ((s.setRx { s.rx with state := .idle, dbuf := [], dcur := 0 }).setRxRsp (some (.data out))))

/-- R170, R212: in Terminated RX.READ answers EndOfInput and in Failed the latched kind, with no request and no change
but the answer; a read of zero bytes is refused. -/
def Obligations.RxReadInTerminalStates : Prop :=
  ∀ (n : Nat) (k : ErrKind) (s : State),
    (1 ≤ n → s.rx.state = .terminated → exec (.rxRead n) s = .next (s.setRxRsp (some .endOfInput))) ∧
    (1 ≤ n → s.rx.state = .failed → s.rx.err = some k →
      exec (.rxRead n) s = .next (s.setRxRsp (some (.err k none)))) ∧
    exec (.rxRead 0) s = .refused .rxReadZero

/-- R170, R177, R179: in Idle, with a RAW record whose checksum matches at the source's read position, RX.READ consumes
the record and answers the first min(n, length) of its bytes; the bytes after the record stay in the source. Every other
fetch the same way (R170): in Idle RX.READ does what RX.REFILL does, and answers the error it raised, EndOfInput if it left
RX Terminated, or else the first bytes of the block it loaded; in Uninitialized it does what RX.INIT does, and answers the
error it raised or goes on as in Idle; where the fetch never ends, neither does RX.READ. -/
def Obligations.RxReadFetchesARawBlock : Prop :=
  (∀ (n : Nat) (h payload tail : Bytes) (sc : U4) (len csum : U32) (s : State), 1 ≤ n → s.rx.state = .idle →
    s.source.cooperates → s.source.rest = h ++ payload ++ tail → h.length = 13 →
    decode (.wireRecord h) = .ok (.blkRaw sc len csum) → payload.length = len.toNat → hash32 payload = csum →
    ∃ t, exec (.rxRead n) s = .next t ∧ t.rxRsp = some (.data (payload.take n)) ∧ t.source.rest = tail ∧
      t.rx = (if n < len.toNat then ⟨.decodingBlock, payload, n, s.rx.err, s.rx.pos + 13 + len.toNat⟩
        else ⟨.idle, [], 0, s.rx.err, s.rx.pos + 13 + len.toNat⟩) ∧
      sameOutsideRx s t ∧ t.opResult = s.opResult) ∧
  (∀ (n : Nat) (s u : State), 1 ≤ n → s.rx.state = .idle → exec .rxRefill s = .next u →
    let fetched := u.setOpResult s.opResult
    (∃ e, u.opResult = .raised e ∧
      exec (.rxRead n) s = .next (fetched.setRxRsp (some (.err e.kind e.info)))) ∨
    (u.opResult = .done ∧ u.rx.state = .terminated ∧
      exec (.rxRead n) s = .next (fetched.setRxRsp (some .endOfInput))) ∨
    (u.opResult = .done ∧ u.rx.state = .decodingBlock ∧ u.rx.dcur = 0 ∧ 1 ≤ u.rx.dbuf.length ∧
      exec (.rxRead n) s = .next ((fetched.setRx
        (if n < u.rx.dbuf.length then { u.rx with dcur := n }
        else { u.rx with state := .idle, dbuf := [], dcur := 0 })).setRxRsp (some (.data (u.rx.dbuf.take n)))))) ∧
  (∀ (n : Nat) (s u : State), 1 ≤ n → s.rx.state = .uninitialized → exec .rxInit s = .next u →
    let fetched := u.setOpResult s.opResult
    (∃ e, u.opResult = .raised e ∧
      exec (.rxRead n) s = .next (fetched.setRxRsp (some (.err e.kind e.info)))) ∨
    (u.opResult = .done ∧ u.rx.state = .idle ∧ exec (.rxRead n) s = exec (.rxRead n) fetched)) ∧
  ∀ (n : Nat) (f : Fault) (s : State), 1 ≤ n →
    (s.rx.state = .idle → exec .rxRefill s = .fault f → exec (.rxRead n) s = .fault f) ∧
    (s.rx.state = .uninitialized → exec .rxInit s = .fault f → exec (.rxRead n) s = .fault f)

/-- R176, R246, the source's example: on a container of MAGIC and an end marker the first RX.READ answers EndOfInput
having consumed 21 bytes; whatever follows the marker stays in the source. -/
def Obligations.EmptyContainerIsEndOfInput : Prop :=
  ∀ (n : Nat) (sc : U4) (tail : Bytes) (s : State), 1 ≤ n → s.rx.state = .uninitialized → s.source.cooperates →
    s.source.rest = [0x4C, 0x5A, 0x34, 0x42, 0x6C, 0x6F, 0x63, 0x6B] ++
      (0x10 ||| sc.setWidth 8) :: List.replicate 12 0 ++ tail →
    ∃ t, exec (.rxRead n) s = .next t ∧ t.rxRsp = some .endOfInput ∧ t.source.rest = tail ∧
      t.rx = { s.rx with state := .terminated, pos := s.rx.pos + 21 } ∧ sameOutsideRx s t ∧ t.opResult = s.opResult

/-- R206: RX's error entry: whenever a record, an operation or RX.READ takes RX into Failed, the kind is latched, the
buffer is empty, POS counts what was consumed, and RX.READ answers that kind with no data; the error has a sub-reason
unless it is a CorruptionError (R200). -/
def Obligations.RxErrorEntry : Prop :=
  ∀ (i : Instr) (s t : State), ofRx i = true → exec i s = .next t → s.rx.state ≠ .failed → t.rx.state = .failed →
    ∃ k info, t.rx.err = some k ∧ k ≠ .config ∧ t.rx.dbuf = [] ∧ t.rx.dcur = 0 ∧
      (∃ b, s.source.rest = b ++ t.source.rest ∧ t.rx.pos = s.rx.pos + b.length) ∧
      (info = none ↔ k = .corruption) ∧
      ((∃ n, i = .rxRead n) → t.rxRsp = some (.err k info)) ∧
      ((∀ n, i ≠ .rxRead n) → t.opResult = .raised ⟨k, info⟩)

/-- R179, R213: the bytes RX.REFILL loads have passed verification: they are as many as the fetched header's
originalLength, at most 2^25, and their checksum is the header's. -/
def Obligations.LoadedBytesAreVerified : Prop :=
  ∀ s t : State, s.rx.state = .idle → exec .rxRefill s = .next t → t.rx.state = .decodingBlock →
    ∃ (h : Bytes) (m : Method) (clen olen csum : U32), h.length = 13 ∧ h <+: s.source.rest ∧
      hdrClassify (hdrUnpack h) = .data m clen olen csum ∧ t.rx.dbuf.length = olen.toNat ∧
      1 ≤ t.rx.dbuf.length ∧ t.rx.dbuf.length ≤ 33554432 ∧ t.rx.dcur = 0 ∧ hash32 t.rx.dbuf = csum ∧
      t.rx.pos = s.rx.pos + 13 + clen.toNat

/-! ### The whole machine -/

/-- R34, R230: reset of a framer writes its registers and touches nothing else: the sink keeps its bytes, the source its
position, and the other framer everything. Of its endpoint only the note that the framer has made a request is cleared (log
entry 15), and the response ports keep their answers (log entry 20). The two registers the spec leaves without a value are
not spoken of. -/
def Obligations.ResetRestoresOneFramer : Prop :=
  ∀ (rest : List HostInput) (s : State),
    (s.inbox = .txReset :: rest → ∃ x : Tx, x.state = .unconfigured ∧ x.abuf = [] ∧ x.prologueDone = false ∧ x.pos = 0 ∧
      step s = .next (((s.setInbox rest).setTx x).setSink { s.sink with used := false })) ∧
    (s.inbox = .rxReset :: rest →
      step s = .next (((s.setInbox rest).setRx ⟨.uninitialized, [], 0, none, 0⟩).setSource
        { s.source with used := false }))

/-- R20, R88, R220 (log entries 14 and 16): a step runs the decoded command on the state without that input; an encoding
the decoder rejects is refused; with no input the hardware is idle. -/
def Obligations.StepRunsTheDecodedCommand : Prop :=
  (∀ (c : TxCmd) (i : Instr) (rest : List HostInput) (s : State), s.inbox = .tx c :: rest →
    decode (.tx c) = .ok i → step s = exec i (s.setInbox rest)) ∧
  (∀ (c : RxCmd) (i : Instr) (rest : List HostInput) (s : State), s.inbox = .rx c :: rest →
    decode (.rx c) = .ok i → step s = exec i (s.setInbox rest)) ∧
  (∀ (n : Nat) (rest : List HostInput) (s : State), s.inbox = .rx ⟨1, n⟩ :: rest → step s = .refused .undecodable) ∧
  ∀ s : State, s.inbox = [] → step s = .next s

/-- R150, R215, U15 (the form of the host's own accesses is log entry 15's): while TX holds the sink the host's own
write is refused, and while RX holds the source the host's own read is; otherwise the host may use what it owns: the sink
before TX's first request and in every state but Ready, the source before RX's first request and in Terminated and Failed;
and then only the endpoint's bytes change. Bytes that arrive at the source's end (R62) are no use of it and never refused. -/
def Obligations.BorrowedEndpointsAreTheUnits : Prop :=
  ∀ (b : Bytes) (n : Nat) (rest : List HostInput) (s : State),
    (s.inbox = .sinkWrite b :: rest → s.sink.used = true → s.tx.state = .ready → step s = .refused .sinkInUse) ∧
    (s.inbox = .sinkWrite b :: rest →
      s.sink.used = false ∨ s.tx.state = .unconfigured ∨ s.tx.state = .finished ∨ s.tx.state = .failed →
      step s = .next ((s.setInbox rest).setSink { s.sink with accepted := s.sink.accepted ++ b })) ∧
    (s.inbox = .sourceTake n :: rest → s.source.used = true → s.rx.state ≠ .terminated → s.rx.state ≠ .failed →
      step s = .refused .sourceInUse) ∧
    (s.inbox = .sourceTake n :: rest → s.source.used = false ∨ s.rx.state = .terminated ∨ s.rx.state = .failed →
      step s = .next ((s.setInbox rest).setSource { s.source with rest := s.source.rest.drop n })) ∧
    (s.inbox = .sourceSupply b :: rest →
      step s = .next ((s.setInbox rest).setSource { s.source with rest := s.source.rest ++ b }))

/-- R23, R34: the invariants hold at reset (with the values of log entries 8 and 9 where the spec gives none). -/
def Obligations.ResetMeetsTheInvariant : Prop := State.reset.inv = true ∧ Memory.wf State.reset = true

/-- R23, R56: every step, and every instruction, keeps the invariants of R23, and with them the buffers' bounds. -/
def Obligations.InvariantIsKept : Prop :=
  (∀ s t : State, s.inv = true → step s = .next t → t.inv = true ∧ Memory.wf t = true) ∧
  ∀ (i : Instr) (s t : State), s.inv = true → exec i s = .next t → t.inv = true

/-- R244, R18: with endpoints that answer every request, be it with an error or a count of zero, nothing hangs from a state
that meets the invariant: no input and no instruction faults, and every instruction that makes requests answers in the
states and on the operands in which it executes. R244 asks that the requests to the backends be answered too: that they
always are is the model's assumption (log entry 2), which the Lean does not state as a hypothesis because no backend of the
model can hang. -/
def Obligations.AnsweringEndpointsNeverHang : Prop :=
  ∀ s : State, s.inv = true → s.sink.answering → s.source.answering →
    (∀ f : Fault, step s ≠ .fault f) ∧
    (∀ (i : Instr) (f : Fault), exec i s ≠ .fault f) ∧
    (∀ i : Instr, s.tx.state = .ready →
      (∃ data, i = .txWrite data) ∨ i = .txFlush ∨ i = .txFinish ∨ i = .txPrologue ∨ i = .txMarker ∨
        (∃ orig, i = .txBlock orig ∧ 1 ≤ orig.length ∧ orig.length ≤ s.tx.blockSize) ∨ (∃ b, i = .sinkPut b) ∨
        i = .sinkFlush →
      ∃ t, exec i s = .next t) ∧
    (∀ i : Instr, s.rx.state = .uninitialized → i = .rxInit ∨ (∃ n, i = .srcGet n) → ∃ t, exec i s = .next t) ∧
    (∀ i : Instr, s.rx.state = .idle →
      i = .rxRefill ∨ (∃ n, i = .srcGet n) ∨
        ((∃ m clen olen csum, i = .rxPayload m clen olen csum) ∨ (∃ sc len csum, i = .blkRaw sc len csum) ∨
          (∃ sc clen olen csum, i = .blkLz4 sc clen olen csum)) ∧ WellFormed i = true →
      ∃ t, exec i s = .next t) ∧
    ∀ n : Nat, 1 ≤ n → ∃ t, exec (.rxRead n) s = .next t

/-- R27: the transitions of TX.STATE: an instruction makes no other; a step other than a reset of TX neither, and only a
transaction at TX's port makes one. -/
def Obligations.TxStateTransitions : Prop :=
  (∀ (i : Instr) (s t : State), exec i s = .next t →
    (s.tx.state = .unconfigured → t.tx.state = .unconfigured ∨ t.tx.state = .ready ∧ ∃ bs, i = .txConfig bs) ∧
    (s.tx.state = .ready → t.tx.state = .ready ∨ t.tx.state = .finished ∧ i = .txFinish ∨
      t.tx.state = .failed ∧ ofTx i = true) ∧
    (s.tx.state = .finished → t.tx.state = .finished) ∧ (s.tx.state = .failed → t.tx.state = .failed)) ∧
  ∀ (x : HostInput) (rest : List HostInput) (s t : State), s.inbox = x :: rest → x ≠ .txReset → step s = .next t →
    (s.tx.state = .unconfigured → t.tx.state = .unconfigured ∨
      t.tx.state = .ready ∧ ∃ bs data, x = .tx ⟨0, bs, data⟩) ∧
    (s.tx.state = .ready → t.tx.state = .ready ∨ t.tx.state = .finished ∧ (∃ bs data, x = .tx ⟨3, bs, data⟩) ∨
      t.tx.state = .failed ∧ ∃ op bs data, x = .tx ⟨op, bs, data⟩ ∧ op ≠ 0) ∧
    (s.tx.state = .finished → t.tx.state = .finished) ∧ (s.tx.state = .failed → t.tx.state = .failed) ∧
    ((∀ c, x ≠ .tx c) → t.tx.state = s.tx.state)

/-- R28, R231: the transitions of RX.STATE: Terminated and Failed are left only by a reset of RX, nothing else leads
back to Uninitialized, and from DecodingBlock RX goes to Idle or stays; this of every instruction and of every step that is
no reset of RX, and only a transaction at RX's port makes a transition. -/
def Obligations.RxStateTransitions : Prop :=
  (∀ (i : Instr) (s t : State), exec i s = .next t →
    (s.rx.state = .decodingBlock → t.rx.state = .decodingBlock ∨ t.rx.state = .idle) ∧
    (s.rx.state ≠ .uninitialized → t.rx.state ≠ .uninitialized) ∧
    (s.rx.state = .terminated → t.rx.state = .terminated) ∧ (s.rx.state = .failed → t.rx.state = .failed)) ∧
  ∀ (x : HostInput) (rest : List HostInput) (s t : State), s.inbox = x :: rest → x ≠ .rxReset → step s = .next t →
    (s.rx.state = .decodingBlock → t.rx.state = .decodingBlock ∨ t.rx.state = .idle) ∧
    (s.rx.state ≠ .uninitialized → t.rx.state ≠ .uninitialized) ∧
    (s.rx.state = .terminated → t.rx.state = .terminated) ∧ (s.rx.state = .failed → t.rx.state = .failed) ∧
    ((∀ c, x ≠ .rx c) → t.rx.state = s.rx.state)

/-- R30: BLOCK_SIZE and SC are written by TX.CONFIG only. -/
def Obligations.OnlyConfigWritesBlockSize : Prop :=
  ∀ (i : Instr) (s t : State), exec i s = .next t → (∀ bs, i ≠ .txConfig bs) →
    t.tx.blockSize = s.tx.blockSize ∧ t.tx.sc = s.tx.sc

/-- R44: TX's instructions leave RX, its source and its answers alone, RX's instructions TX, its sink and its answers,
and the combinational ones change no register at all. -/
def Obligations.FramersAreIndependent : Prop :=
  ∀ (i : Instr) (s t : State), exec i s = .next t →
    (ofTx i = true → sameOutsideTx s t) ∧ (ofRx i = true → sameOutsideRx s t) ∧
    (combinational i = true → ∃ r, t = s.setOpResult r)

/-- R54, R59, R26, R33: the streams are sequential: whatever an instruction does, the bytes the sink has accepted stay,
in place, and RX consumes a run of the source's next bytes, possibly none, that POS counts exactly. -/
def Obligations.StreamsAreSequential : Prop :=
  ∀ (i : Instr) (s t : State), exec i s = .next t →
    s.sink.accepted <+: t.sink.accepted ∧
    ∃ b, s.source.rest = b ++ t.source.rest ∧ t.rx.pos = s.rx.pos + b.length

/-- Every operation whose operands do not meet its stated precondition, or that stands outside the states in which it is
invoked, is refused by name (the model's choice: log entry 10): the state is looked at first, and RX.PAYLOAD's lengths are
those of some header that HDR.CLASSIFY answers Data for. -/
def Obligations.OperationsOutsideTheirDomainAreRefused : Prop :=
  ∀ (i : Instr) (s : State),
    (∀ b, i = .le32Dec b → b.length ≠ 4 → exec i s = .refused .operandOutOfDomain) ∧
    (∀ h, i = .hdrUnpack h → h.length ≠ 13 → exec i s = .refused .operandOutOfDomain) ∧
    (∀ bs, i = .scOf bs → (¬ ∃ k, 6 ≤ k ∧ k ≤ 25 ∧ bs.toNat = 2 ^ k) → exec i s = .refused .operandOutOfDomain) ∧
    (i = .txPrologue ∨ i = .txMarker ∨ i = .sinkFlush ∨ (∃ b, i = .sinkPut b) ∨ (∃ b, i = .txBlock b) →
      s.tx.state ≠ .ready → exec i s = .refused .txOperationOutOfState) ∧
    (∀ b, i = .txBlock b → s.tx.state = .ready → (b = [] ∨ s.tx.blockSize < b.length) →
      exec i s = .refused .operandOutOfDomain) ∧
    (i = .rxRefill ∨ (∃ sc, i = .endMarker sc) ∨ (∃ m c o k, i = .rxPayload m c o k) ∨
        (∃ sc len k, i = .blkRaw sc len k) ∨ (∃ sc c o k, i = .blkLz4 sc c o k) →
      s.rx.state ≠ .idle → exec i s = .refused .rxOperationOutOfState) ∧
    (∀ m c o k, i = .rxPayload m c o k → s.rx.state = .idle →
      (∀ token, hdrClassify ⟨token, c, o, k⟩ ≠ .data m c o k) → exec i s = .refused .operandOutOfDomain) ∧
    ((∃ sc len k, i = .blkRaw sc len k) ∨ (∃ sc c o k, i = .blkLz4 sc c o k) → s.rx.state = .idle →
      WellFormed i = false → exec i s = .refused .operandOutOfDomain) ∧
    (i = .rxInit ∨ i = .prologue → s.rx.state ≠ .uninitialized → exec i s = .refused .rxOperationOutOfState) ∧
    (∀ n, i = .srcGet n → s.rx.state ≠ .uninitialized → s.rx.state ≠ .idle →
      exec i s = .refused .rxOperationOutOfState)

/-- R119, R11: what TX.BLOCK puts, RX.REFILL loads back: the original bytes, unless the pair of backends is at fault (LZ4
was chosen and DECOMPRESS does not invert COMPRESS on this block). -/
def Obligations.BlockRoundTrip : Prop :=
  ∀ (orig : Bytes) (s : State), s.tx.state = .ready → legalBlockSize s.tx.blockSize = true →
    s.tx.sc = scOf s.tx.blockSize → s.tx.prologueDone = true → 1 ≤ orig.length → orig.length ≤ s.tx.blockSize →
    s.sink.cooperates →
    ∃ t : State, exec (.txBlock orig) s = .next t ∧
      ∀ c, Config.compress orig = .bytes c → ∃ wire : Bytes, t.sink.accepted = s.sink.accepted ++ wire ∧
        ∀ (tail : Bytes) (r : State), r.rx.state = .idle → r.source.cooperates → r.source.rest = wire ++ tail →
          (c.length < orig.length ∧ Config.decompress c orig.length ≠ .bytes orig) ∨
          ∃ u, exec .rxRefill r = .next u ∧ u.opResult = .done ∧ u.rx.state = .decodingBlock ∧ u.rx.dbuf = orig ∧
            u.source.rest = tail

/-- R91, R148, R180: `DECODE-ALL` of what `ENCODE(bs, data)` puts is `(data, EndOfInput)`, for every legal block size
and any positive read size, with whatever follows the container left in the source; unless the pair of backends is at
fault on one of the blocks. -/
def Obligations.EncodeThenDecodeIsTheData : Prop :=
  ∀ (bs : U32) (data tail : Bytes) (n : Nat) (tx t rx : State), tx.tx = Tx.reset → legalBlockSize bs.toNat = true →
    encodeRun bs data tx = .next t → t.txRsp = some .ok → 1 ≤ n → rx.rx = Rx.reset → rx.source.cooperates →
    tx.sink.accepted ++ rx.source.rest = t.sink.accepted ++ tail →
    (∃ i c, Config.compress (sliceOf bs.toNat i data) = .bytes c ∧ c.length < (sliceOf bs.toNat i data).length ∧
      Config.decompress c (sliceOf bs.toNat i data).length ≠ .bytes (sliceOf bs.toNat i data)) ∨
    ∃ u, decodeAll n (data.length + 1) rx = (data, some .endOfInput, u) ∧ u.source.rest = tail ∧
      u.rx.state = .terminated
end

