-- ==== Sys2Proof/Laws/Codec.lean ====
section
/-! SUPPORT. The codec's laws: byte order, token, header, verdicts, block sizes. -/

namespace Sys2Proof

/-! ### Byte order -/

@[simp] theorem le32Enc_length (v : U32) : (le32Enc v).length = 4 := rfl

theorem le32Enc_bytes (v : U32) : ∃ b0 b1 b2 b3 : Byte, le32Enc v = [b0, b1, b2, b3] ∧
    b0.toNat = v.toNat % 2 ^ 8 ∧ b1.toNat = v.toNat / 2 ^ 8 % 2 ^ 8 ∧ b2.toNat = v.toNat / 2 ^ 16 % 2 ^ 8 ∧
    b3.toNat = v.toNat / 2 ^ 24 % 2 ^ 8 :=
  ⟨_, _, _, _, rfl, by simp [BitVec.extractLsb'_toNat, Nat.shiftRight_eq_div_pow]⟩

theorem le32Dec_bytes (b0 b1 b2 b3 : Byte) : (le32Dec [b0, b1, b2, b3]).toNat =
    b0.toNat + b1.toNat * 2 ^ 8 + b2.toNat * 2 ^ 16 + b3.toNat * 2 ^ 24 := by
  have h0 := b0.isLt; have h1 := b1.isLt; have h2 := b2.isLt; have h3 := b3.isLt
  simp [le32Dec, BitVec.toNat_ofNat]
  omega

theorem le32Dec_le32Enc (v : U32) : le32Dec (le32Enc v) = v := by
  obtain ⟨b0, b1, b2, b3, he, h0, h1, h2, h3⟩ := le32Enc_bytes v
  apply BitVec.eq_of_toNat_eq
  rw [he, le32Dec_bytes, h0, h1, h2, h3]
  have := v.isLt
  omega

theorem bytes_of_length_four {b : Bytes} (h : b.length = 4) : ∃ b0 b1 b2 b3, b = [b0, b1, b2, b3] := by
  match b, h with
  | [b0, b1, b2, b3], _ => exact ⟨b0, b1, b2, b3, rfl⟩

theorem le32Enc_le32Dec {b : Bytes} (h : b.length = 4) : le32Enc (le32Dec b) = b := by
  obtain ⟨b0, b1, b2, b3, rfl⟩ := bytes_of_length_four h
  obtain ⟨c0, c1, c2, c3, he, h0, h1, h2, h3⟩ := le32Enc_bytes (le32Dec [b0, b1, b2, b3])
  rw [le32Dec_bytes] at h0 h1 h2 h3
  have i0 := b0.isLt; have i1 := b1.isLt; have i2 := b2.isLt; have i3 := b3.isLt
  rw [he]
  congr 1
  · apply BitVec.eq_of_toNat_eq; omega
  congr 1
  · apply BitVec.eq_of_toNat_eq; omega
  congr 1
  · apply BitVec.eq_of_toNat_eq; omega
  congr 1
  apply BitVec.eq_of_toNat_eq; omega

/-! ### The token -/

theorem tokDec_tokEnc (m : Method) (sc : U4) : tokDec (tokEnc m sc) = (m.code, sc) := by
  revert sc; cases m <;> decide

theorem methodOf_code (m : Method) : methodOf m.code = some m := by cases m <;> decide

theorem methodOf_eq_some {c : Byte} {m : Method} (h : methodOf c = some m) : c = m.code := by
  unfold methodOf at h
  split_ifs at h <;> simp_all

/-- A token whose high nibble is a method's code is that method's token. -/
theorem tokEnc_of_tokDec {t : Byte} {m : Method} (h : (tokDec t).1 = m.code) : tokEnc m (tokDec t).2 = t := by
  revert t; cases m <;> decide

/-! ### The header -/

@[simp] theorem hdrPack_length (h : Header) : (hdrPack h).length = 13 := rfl

theorem hdrUnpack_hdrPack (h : Header) : hdrUnpack (hdrPack h) = h := by
  cases h with
  | mk t c o k =>
    have e : hdrUnpack (hdrPack ⟨t, c, o, k⟩) = ⟨t, le32Dec (le32Enc c), le32Dec (le32Enc o), le32Dec (le32Enc k)⟩ := rfl
    rw [e, le32Dec_le32Enc, le32Dec_le32Enc, le32Dec_le32Enc]

theorem hdrPack_hdrUnpack {h : Bytes} (hl : h.length = 13) : hdrPack (hdrUnpack h) = h := by
  match h, hl with
  | [a, b0, b1, b2, b3, c0, c1, c2, c3, d0, d1, d2, d3], _ =>
    have hb := le32Enc_le32Dec (b := [b0, b1, b2, b3]) rfl
    have hc := le32Enc_le32Dec (b := [c0, c1, c2, c3]) rfl
    have hd := le32Enc_le32Dec (b := [d0, d1, d2, d3]) rfl
    simp [hdrPack, hdrUnpack, hb, hc, hd]

/-- What a `Data` verdict says (R117 (h)). -/
theorem hdrClassify_data {h : Header} {m : Method} {c o k : U32} (hv : hdrClassify h = .data m c o k) :
    c = h.clen ∧ o = h.olen ∧ k = h.csum ∧ (tokDec h.token).1 = m.code ∧
      withinSizeClass (tokDec h.token).2 h.olen = true ∧ dataLengths m h.clen h.olen = true := by
  unfold hdrClassify at hv
  split at hv
  · cases hv
  · rename_i m' hm
    split_ifs at hv with h1 h2 h3 h4 h5 h6
    cases hv
    refine ⟨rfl, rfl, rfl, methodOf_eq_some hm, by simpa using h2, ?_⟩
    have h6' : 1 ≤ h.olen.toNat := Nat.one_le_iff_ne_zero.mpr (fun h0 => h6 (BitVec.eq_of_toNat_eq h0))
    cases m <;> simp_all [dataLengths, lengthsAgree]

/-- A `Data` verdict is given to every header R117 calls one. -/
theorem hdrClassify_of_data {h : Header} {m : Method} (hm : (tokDec h.token).1 = m.code)
    (hsc : withinSizeClass (tokDec h.token).2 h.olen = true) (hl : dataLengths m h.clen h.olen = true) :
    hdrClassify h = .data m h.clen h.olen h.csum := by
  simp only [dataLengths, Bool.and_eq_true, decide_eq_true_eq] at hl
  obtain ⟨⟨h1, h2⟩, h3⟩ := hl
  have h0 : h.olen ≠ 0#32 := by rintro h0; simp [h0] at h1
  unfold hdrClassify
  rw [hm, methodOf_code]
  have hb : ¬ Config.maxBlockSize < h.olen.toNat := by omega
  cases m with
  | raw =>
    have h3' : h.clen = h.olen := by simpa [lengthsAgree] using h3
    simp [hb, hsc, h3', h0]
  | lz4 =>
    have h3' : ¬ h.olen.toNat ≤ h.clen.toNat := by simp [lengthsAgree] at h3; omega
    simp [hb, hsc, h3', h0]

/-- What a `Marker` verdict says (R117 (g)). -/
theorem hdrClassify_marker {h : Header} : hdrClassify h = .marker ↔
    (tokDec h.token).1 = Method.raw.code ∧ h.clen = 0 ∧ h.olen = 0 ∧ h.csum = 0 := by
  constructor
  · intro hv
    unfold hdrClassify at hv
    split at hv
    · cases hv
    · rename_i m hm
      have hm' := methodOf_eq_some hm
      split_ifs at hv with h1 h2 h3 h4 h5 h6
      cases m <;> simp_all
  · rintro ⟨hm, hc, ho, hk⟩
    unfold hdrClassify
    rw [hm, methodOf_code]
    simp [hc, ho, hk, withinSizeClass]

/-- The 104-bit value of a header determines it (R82). -/
theorem wireValue_lt (b : Bytes) : wireValue b < 2 ^ (8 * b.length) := by
  induction b with
  | nil => simp [wireValue]
  | cons a b ih =>
    have := a.isLt
    simp only [wireValue, List.length_cons, Nat.mul_add, Nat.pow_add]
    omega

/-! ### Buffer access -/

@[simp] theorem memWrite_end (buf v : Bytes) : memWrite buf buf.length v = buf ++ v := by
  simp [memWrite]

/-- A legal block size is one of the 20 powers of two 2^6 .. 2^25 (R9). -/
theorem legalBlockSize_iff (n : Nat) : legalBlockSize n = true ↔ ∃ k, 6 ≤ k ∧ k ≤ 25 ∧ n = 2 ^ k := by
  simp only [legalBlockSize, isPowerOfTwo, Bool.and_eq_true, decide_eq_true_eq]
  simp only [Config.minBlockSize, Config.maxBlockSize]
  constructor
  · rintro ⟨⟨h1, h2⟩, h3⟩
    refine ⟨n.log2, ?_, ?_, h3⟩
    · by_contra h
      have : 2 ^ n.log2 ≤ 2 ^ 5 := Nat.pow_le_pow_right (by omega) (by omega)
      rw [← h3] at this
      omega
    · by_contra h
      have : 2 ^ 26 ≤ 2 ^ n.log2 := Nat.pow_le_pow_right (by omega) (by omega)
      rw [← h3] at this
      omega
  · rintro ⟨k, h1, h2, rfl⟩
    have a := Nat.pow_le_pow_right (n := 2) (by omega) h1
    have b := Nat.pow_le_pow_right (n := 2) (by omega) h2
    rw [Nat.log2_two_pow]
    exact ⟨⟨a, b⟩, rfl⟩

/-- The size class covers the block size (R114, R119). -/
theorem blockSize_le_sizeClass {n : Nat} (h : legalBlockSize n = true) :
    n ≤ 2 ^ (Config.scBase + (scOf n).toNat) ∧ n ≤ Config.maxBlockSize := by
  obtain ⟨k, h1, h2, rfl⟩ := (legalBlockSize_iff n).mp h
  have hm : (scOf (2 ^ k)).toNat = k - 10 := by
    simp only [scOf, Nat.log2_two_pow, Config.scBase, BitVec.toNat_ofNat]; omega
  rw [hm]
  exact ⟨Nat.pow_le_pow_right (by omega) (by simp [Config.scBase]; omega),
    (Nat.pow_le_pow_right (by omega) h2).trans (by simp [Config.maxBlockSize])⟩
end Sys2Proof
end

