-- ==== Sys2Proof/Laws/Decode.lean ====
section
/-! SUPPORT. Records as numbers and as instructions: the masks of the opcode map (R85) and the record decoder. -/

namespace Sys2Proof

/-- The method nibble by mask (R85). -/
theorem and_F0 (n : Nat) : n &&& 0xF0 = n % 256 / 16 * 16 := by
  have e : (0xF0 : Nat) = (2 ^ 4 - 1) * 2 ^ 4 := by norm_num
  have e2 : n % 256 / 16 * 16 = n % 2 ^ 8 / 2 ^ 4 * 2 ^ 4 := by norm_num
  rw [e, e2]
  apply Nat.eq_of_testBit_eq
  intro i
  simp only [Nat.testBit_and, Nat.testBit_mul_two_pow, Nat.testBit_two_pow_sub_one,
    Nat.testBit_div_two_pow, Nat.testBit_mod_two_pow]
  by_cases h4 : 4 ≤ i
  · by_cases h8 : i < 8
    · simp [h4, h8, show i - 4 < 4 by omega]
    · simp [h4, h8, show ¬ i - 4 < 4 by omega]
  · simp [h4]

/-- All but the size class, by mask (R85). -/
theorem and_high (n : Nat) (h : n < 2 ^ 104) : n &&& 0xFFFFFFFFFFFFFFFFFFFFFFFFF0 = n / 16 * 16 := by
  have e1 : (0xFFFFFFFFFFFFFFFFFFFFFFFFF0 : Nat) = (2 ^ 100 - 1) * 2 ^ 4 := by norm_num
  have e2 : n / 16 * 16 = n / 2 ^ 4 * 2 ^ 4 := by norm_num
  rw [e1, e2]
  apply Nat.eq_of_testBit_eq
  intro i
  simp only [Nat.testBit_and, Nat.testBit_mul_two_pow, Nat.testBit_two_pow_sub_one, Nat.testBit_div_two_pow]
  by_cases h4 : 4 ≤ i
  · by_cases h104 : i < 104
    · simp [h4, show i - 4 < 100 by omega]
    · have h0 : Nat.testBit n i = false :=
        Nat.testBit_lt_two_pow (lt_of_lt_of_le h (Nat.pow_le_pow_right (by norm_num) (by omega)))
      simp [h4, h0]
  · simp [h4]

theorem wireValue_cons (b : Byte) (bs : Bytes) : wireValue (b :: bs) = b.toNat + 2 ^ 8 * wireValue bs := rfl

/-- Four bytes and the rest. -/
theorem wireValue_four (b0 b1 b2 b3 : Byte) (bs : Bytes) :
    wireValue (b0 :: b1 :: b2 :: b3 :: bs) = (le32Dec [b0, b1, b2, b3]).toNat + 2 ^ 32 * wireValue bs := by
  rw [le32Dec_bytes, wireValue_cons, wireValue_cons, wireValue_cons, wireValue_cons]
  generalize wireValue bs = w
  omega

/-- The 104-bit value of a header by its fields (R82). -/
theorem wireValue_fields {b : Bytes} (hl : b.length = 13) :
    wireValue b = (hdrUnpack b).token.toNat + 2 ^ 8 * ((hdrUnpack b).clen.toNat +
      2 ^ 32 * ((hdrUnpack b).olen.toNat + 2 ^ 32 * (hdrUnpack b).csum.toNat)) := by
  match b, hl with
  | [a, b0, b1, b2, b3, c0, c1, c2, c3, d0, d1, d2, d3], _ =>
    have e : hdrUnpack [a, b0, b1, b2, b3, c0, c1, c2, c3, d0, d1, d2, d3] =
      ⟨a, le32Dec [b0, b1, b2, b3], le32Dec [c0, c1, c2, c3], le32Dec [d0, d1, d2, d3]⟩ := rfl
    rw [e, wireValue_cons, wireValue_four, wireValue_four, wireValue_four]
    have z : wireValue [] = 0 := rfl
    rw [z, Nat.mul_zero, Nat.add_zero]

/-- The token's nibbles as numbers (R113). -/
theorem tokDec_nat (t : Byte) : ((tokDec t).1 = Method.raw.code ↔ t.toNat / 16 = 1) ∧
   ((tokDec t).1 = Method.lz4.code ↔ t.toNat / 16 = 2) ∧ (tokDec t).2.toNat = t.toNat % 16 := by
  revert t; decide

/-- The record decoder on 13 bytes. -/
theorem decodeRecord_eq {b : Bytes} (hl : b.length = 13) : decodeRecord b = match hdrClassify (hdrUnpack b) with
    | .marker => .ok (.endMarker (tokDec (hdrUnpack b).token).2)
    | .data .raw _ olen csum => .ok (.blkRaw (tokDec (hdrUnpack b).token).2 olen csum)
    | .data .lz4 clen olen csum => .ok (.blkLz4 (tokDec (hdrUnpack b).token).2 clen olen csum)
    | .malformed r => .error (.malformed r) := by
  have hn : b.length = Config.headerLen := hl
  cases h : hdrClassify (hdrUnpack b) with
  | marker => simp [decodeRecord, hn, h]
  | malformed => simp [decodeRecord, hn, h]
  | data m _ _ _ => cases m <;> simp [decodeRecord, hn, h]

/-- Byte strings of one length with the same value are the same. -/
theorem wireValue_inj {b c : Bytes} (hl : b.length = c.length) (h : wireValue b = wireValue c) : b = c := by
  induction b generalizing c with
  | nil => exact (List.length_eq_zero_iff.mp hl.symm).symm
  | cons x b ih =>
    cases c with
    | nil => cases hl
    | cons y c =>
      have hx := x.isLt
      have hy := y.isLt
      simp only [wireValue] at h
      rw [ih (by simpa using hl) (by omega), BitVec.eq_of_toNat_eq (x := x) (y := y) (by omega)]

end Sys2Proof
end

