-- ==== Sys2Proof/Laws/State.lean ====
section
/-! SUPPORT. One lemma per field per update of State, and the updates that cancel or commute, so that no proof unfolds a
record update. -/

namespace Sys2Proof.Machine

/-! ### setTx -/

@[simp] theorem State.setTx_tx (s : State) (x : Tx) : (s.setTx x).tx = x := rfl
@[simp] theorem State.setTx_rx (s : State) (x : Tx) : (s.setTx x).rx = s.rx := rfl
@[simp] theorem State.setTx_sink (s : State) (x : Tx) : (s.setTx x).sink = s.sink := rfl
@[simp] theorem State.setTx_source (s : State) (x : Tx) : (s.setTx x).source = s.source := rfl
@[simp] theorem State.setTx_inbox (s : State) (x : Tx) : (s.setTx x).inbox = s.inbox := rfl
@[simp] theorem State.setTx_txRsp (s : State) (x : Tx) : (s.setTx x).txRsp = s.txRsp := rfl
@[simp] theorem State.setTx_rxRsp (s : State) (x : Tx) : (s.setTx x).rxRsp = s.rxRsp := rfl
@[simp] theorem State.setTx_opResult (s : State) (x : Tx) : (s.setTx x).opResult = s.opResult := rfl
@[simp] theorem State.setTx_freeCount (s : State) (x : Tx) : (s.setTx x).freeCount = s.freeCount := rfl
@[simp] theorem State.setTx_setTx (s : State) (x y : Tx) : (s.setTx x).setTx y = s.setTx y := rfl
@[simp] theorem State.setTx_self (s : State) : s.setTx s.tx = s := rfl

/-! ### setRx -/

@[simp] theorem State.setRx_tx (s : State) (x : Rx) : (s.setRx x).tx = s.tx := rfl
@[simp] theorem State.setRx_rx (s : State) (x : Rx) : (s.setRx x).rx = x := rfl
@[simp] theorem State.setRx_sink (s : State) (x : Rx) : (s.setRx x).sink = s.sink := rfl
@[simp] theorem State.setRx_source (s : State) (x : Rx) : (s.setRx x).source = s.source := rfl
@[simp] theorem State.setRx_inbox (s : State) (x : Rx) : (s.setRx x).inbox = s.inbox := rfl
@[simp] theorem State.setRx_txRsp (s : State) (x : Rx) : (s.setRx x).txRsp = s.txRsp := rfl
@[simp] theorem State.setRx_rxRsp (s : State) (x : Rx) : (s.setRx x).rxRsp = s.rxRsp := rfl
@[simp] theorem State.setRx_opResult (s : State) (x : Rx) : (s.setRx x).opResult = s.opResult := rfl
@[simp] theorem State.setRx_freeCount (s : State) (x : Rx) : (s.setRx x).freeCount = s.freeCount := rfl
@[simp] theorem State.setRx_setRx (s : State) (x y : Rx) : (s.setRx x).setRx y = s.setRx y := rfl
@[simp] theorem State.setRx_self (s : State) : s.setRx s.rx = s := rfl

/-! ### setSink -/

@[simp] theorem State.setSink_tx (s : State) (x : Sink) : (s.setSink x).tx = s.tx := rfl
@[simp] theorem State.setSink_rx (s : State) (x : Sink) : (s.setSink x).rx = s.rx := rfl
@[simp] theorem State.setSink_sink (s : State) (x : Sink) : (s.setSink x).sink = x := rfl
@[simp] theorem State.setSink_source (s : State) (x : Sink) : (s.setSink x).source = s.source := rfl
@[simp] theorem State.setSink_inbox (s : State) (x : Sink) : (s.setSink x).inbox = s.inbox := rfl
@[simp] theorem State.setSink_txRsp (s : State) (x : Sink) : (s.setSink x).txRsp = s.txRsp := rfl
@[simp] theorem State.setSink_rxRsp (s : State) (x : Sink) : (s.setSink x).rxRsp = s.rxRsp := rfl
@[simp] theorem State.setSink_opResult (s : State) (x : Sink) : (s.setSink x).opResult = s.opResult := rfl
@[simp] theorem State.setSink_freeCount (s : State) (x : Sink) : (s.setSink x).freeCount = s.freeCount := rfl
@[simp] theorem State.setSink_setSink (s : State) (x y : Sink) : (s.setSink x).setSink y = s.setSink y := rfl
@[simp] theorem State.setSink_self (s : State) : s.setSink s.sink = s := rfl

/-! ### setSource -/

@[simp] theorem State.setSource_tx (s : State) (x : Source) : (s.setSource x).tx = s.tx := rfl
@[simp] theorem State.setSource_rx (s : State) (x : Source) : (s.setSource x).rx = s.rx := rfl
@[simp] theorem State.setSource_sink (s : State) (x : Source) : (s.setSource x).sink = s.sink := rfl
@[simp] theorem State.setSource_source (s : State) (x : Source) : (s.setSource x).source = x := rfl
@[simp] theorem State.setSource_inbox (s : State) (x : Source) : (s.setSource x).inbox = s.inbox := rfl
@[simp] theorem State.setSource_txRsp (s : State) (x : Source) : (s.setSource x).txRsp = s.txRsp := rfl
@[simp] theorem State.setSource_rxRsp (s : State) (x : Source) : (s.setSource x).rxRsp = s.rxRsp := rfl
@[simp] theorem State.setSource_opResult (s : State) (x : Source) : (s.setSource x).opResult = s.opResult := rfl
@[simp] theorem State.setSource_freeCount (s : State) (x : Source) : (s.setSource x).freeCount = s.freeCount := rfl
@[simp] theorem State.setSource_setSource (s : State) (x y : Source) : (s.setSource x).setSource y = s.setSource y := rfl
@[simp] theorem State.setSource_self (s : State) : s.setSource s.source = s := rfl

/-! ### setInbox -/

@[simp] theorem State.setInbox_tx (s : State) (x : List HostInput) : (s.setInbox x).tx = s.tx := rfl
@[simp] theorem State.setInbox_rx (s : State) (x : List HostInput) : (s.setInbox x).rx = s.rx := rfl
@[simp] theorem State.setInbox_sink (s : State) (x : List HostInput) : (s.setInbox x).sink = s.sink := rfl
@[simp] theorem State.setInbox_source (s : State) (x : List HostInput) : (s.setInbox x).source = s.source := rfl
@[simp] theorem State.setInbox_inbox (s : State) (x : List HostInput) : (s.setInbox x).inbox = x := rfl
@[simp] theorem State.setInbox_txRsp (s : State) (x : List HostInput) : (s.setInbox x).txRsp = s.txRsp := rfl
@[simp] theorem State.setInbox_rxRsp (s : State) (x : List HostInput) : (s.setInbox x).rxRsp = s.rxRsp := rfl
@[simp] theorem State.setInbox_opResult (s : State) (x : List HostInput) : (s.setInbox x).opResult = s.opResult := rfl
@[simp] theorem State.setInbox_freeCount (s : State) (x : List HostInput) : (s.setInbox x).freeCount = s.freeCount := rfl
@[simp] theorem State.setInbox_setInbox (s : State) (x y : List HostInput) : (s.setInbox x).setInbox y = s.setInbox y := rfl
@[simp] theorem State.setInbox_self (s : State) : s.setInbox s.inbox = s := rfl

/-! ### setTxRsp -/

@[simp] theorem State.setTxRsp_tx (s : State) (x : Option Response) : (s.setTxRsp x).tx = s.tx := rfl
@[simp] theorem State.setTxRsp_rx (s : State) (x : Option Response) : (s.setTxRsp x).rx = s.rx := rfl
@[simp] theorem State.setTxRsp_sink (s : State) (x : Option Response) : (s.setTxRsp x).sink = s.sink := rfl
@[simp] theorem State.setTxRsp_source (s : State) (x : Option Response) : (s.setTxRsp x).source = s.source := rfl
@[simp] theorem State.setTxRsp_inbox (s : State) (x : Option Response) : (s.setTxRsp x).inbox = s.inbox := rfl
@[simp] theorem State.setTxRsp_txRsp (s : State) (x : Option Response) : (s.setTxRsp x).txRsp = x := rfl
@[simp] theorem State.setTxRsp_rxRsp (s : State) (x : Option Response) : (s.setTxRsp x).rxRsp = s.rxRsp := rfl
@[simp] theorem State.setTxRsp_opResult (s : State) (x : Option Response) : (s.setTxRsp x).opResult = s.opResult := rfl
@[simp] theorem State.setTxRsp_freeCount (s : State) (x : Option Response) : (s.setTxRsp x).freeCount = s.freeCount := rfl
@[simp] theorem State.setTxRsp_setTxRsp (s : State) (x y : Option Response) : (s.setTxRsp x).setTxRsp y = s.setTxRsp y := rfl
@[simp] theorem State.setTxRsp_self (s : State) : s.setTxRsp s.txRsp = s := rfl

/-! ### setRxRsp -/

@[simp] theorem State.setRxRsp_tx (s : State) (x : Option Response) : (s.setRxRsp x).tx = s.tx := rfl
@[simp] theorem State.setRxRsp_rx (s : State) (x : Option Response) : (s.setRxRsp x).rx = s.rx := rfl
@[simp] theorem State.setRxRsp_sink (s : State) (x : Option Response) : (s.setRxRsp x).sink = s.sink := rfl
@[simp] theorem State.setRxRsp_source (s : State) (x : Option Response) : (s.setRxRsp x).source = s.source := rfl
@[simp] theorem State.setRxRsp_inbox (s : State) (x : Option Response) : (s.setRxRsp x).inbox = s.inbox := rfl
@[simp] theorem State.setRxRsp_txRsp (s : State) (x : Option Response) : (s.setRxRsp x).txRsp = s.txRsp := rfl
@[simp] theorem State.setRxRsp_rxRsp (s : State) (x : Option Response) : (s.setRxRsp x).rxRsp = x := rfl
@[simp] theorem State.setRxRsp_opResult (s : State) (x : Option Response) : (s.setRxRsp x).opResult = s.opResult := rfl
@[simp] theorem State.setRxRsp_freeCount (s : State) (x : Option Response) : (s.setRxRsp x).freeCount = s.freeCount := rfl
@[simp] theorem State.setRxRsp_setRxRsp (s : State) (x y : Option Response) : (s.setRxRsp x).setRxRsp y = s.setRxRsp y := rfl
@[simp] theorem State.setRxRsp_self (s : State) : s.setRxRsp s.rxRsp = s := rfl

/-! ### setOpResult -/

@[simp] theorem State.setOpResult_tx (s : State) (x : OpResult) : (s.setOpResult x).tx = s.tx := rfl
@[simp] theorem State.setOpResult_rx (s : State) (x : OpResult) : (s.setOpResult x).rx = s.rx := rfl
@[simp] theorem State.setOpResult_sink (s : State) (x : OpResult) : (s.setOpResult x).sink = s.sink := rfl
@[simp] theorem State.setOpResult_source (s : State) (x : OpResult) : (s.setOpResult x).source = s.source := rfl
@[simp] theorem State.setOpResult_inbox (s : State) (x : OpResult) : (s.setOpResult x).inbox = s.inbox := rfl
@[simp] theorem State.setOpResult_txRsp (s : State) (x : OpResult) : (s.setOpResult x).txRsp = s.txRsp := rfl
@[simp] theorem State.setOpResult_rxRsp (s : State) (x : OpResult) : (s.setOpResult x).rxRsp = s.rxRsp := rfl
@[simp] theorem State.setOpResult_opResult (s : State) (x : OpResult) : (s.setOpResult x).opResult = x := rfl
@[simp] theorem State.setOpResult_freeCount (s : State) (x : OpResult) : (s.setOpResult x).freeCount = s.freeCount := rfl
@[simp] theorem State.setOpResult_setOpResult (s : State) (x y : OpResult) : (s.setOpResult x).setOpResult y = s.setOpResult y := rfl
@[simp] theorem State.setOpResult_self (s : State) : s.setOpResult s.opResult = s := rfl

/-! ### setFreeCount -/

@[simp] theorem State.setFreeCount_tx (s : State) (x : Nat) : (s.setFreeCount x).tx = s.tx := rfl
@[simp] theorem State.setFreeCount_rx (s : State) (x : Nat) : (s.setFreeCount x).rx = s.rx := rfl
@[simp] theorem State.setFreeCount_sink (s : State) (x : Nat) : (s.setFreeCount x).sink = s.sink := rfl
@[simp] theorem State.setFreeCount_source (s : State) (x : Nat) : (s.setFreeCount x).source = s.source := rfl
@[simp] theorem State.setFreeCount_inbox (s : State) (x : Nat) : (s.setFreeCount x).inbox = s.inbox := rfl
@[simp] theorem State.setFreeCount_txRsp (s : State) (x : Nat) : (s.setFreeCount x).txRsp = s.txRsp := rfl
@[simp] theorem State.setFreeCount_rxRsp (s : State) (x : Nat) : (s.setFreeCount x).rxRsp = s.rxRsp := rfl
@[simp] theorem State.setFreeCount_opResult (s : State) (x : Nat) : (s.setFreeCount x).opResult = s.opResult := rfl
@[simp] theorem State.setFreeCount_freeCount (s : State) (x : Nat) : (s.setFreeCount x).freeCount = x := rfl
@[simp] theorem State.setFreeCount_setFreeCount (s : State) (x y : Nat) : (s.setFreeCount x).setFreeCount y = s.setFreeCount y := rfl
@[simp] theorem State.setFreeCount_self (s : State) : s.setFreeCount s.freeCount = s := rfl

/-- Two states with the same components are the same. -/
theorem State.eq_of_components {s t : State} (h0 : s.tx = t.tx) (h1 : s.rx = t.rx) (h2 : s.sink = t.sink) (h3 : s.source = t.source) (h4 : s.inbox = t.inbox) (h5 : s.txRsp = t.txRsp) (h6 : s.rxRsp = t.rxRsp) (h7 : s.opResult = t.opResult) (h8 : s.freeCount = t.freeCount) : s = t := by
  cases s; cases t; simp_all

end Sys2Proof.Machine
end

