-- ==== Sys2Proof/Laws/Ops.lean ====
section
/-! SUPPORT. What each shared operation does: SrcGet, SinkPut, SinkFlush, error entry; one lemma each that says everything it can do, and one
for endpoints that answer. -/

namespace Sys2Proof.Machine

@[simp] theorem Rx.moved_state (x : Rx) (n : Nat) : (x.moved n).state = x.state := rfl
@[simp] theorem Rx.moved_dbuf (x : Rx) (n : Nat) : (x.moved n).dbuf = x.dbuf := rfl
@[simp] theorem Rx.moved_dcur (x : Rx) (n : Nat) : (x.moved n).dcur = x.dcur := rfl
@[simp] theorem Rx.moved_err (x : Rx) (n : Nat) : (x.moved n).err = x.err := rfl
@[simp] theorem Rx.moved_pos (x : Rx) (n : Nat) : (x.moved n).pos = x.pos + n := rfl
@[simp] theorem Rx.moved_zero (x : Rx) : x.moved 0 = x := rfl
@[simp] theorem Rx.moved_moved (x : Rx) (m n : Nat) : (x.moved m).moved n = x.moved (m + n) := by
  simp [Rx.moved, Nat.add_assoc]
@[simp] theorem Rx.failedWith_state (x : Rx) (k : ErrKind) : (x.failedWith k).state = .failed := rfl
@[simp] theorem Rx.failedWith_dbuf (x : Rx) (k : ErrKind) : (x.failedWith k).dbuf = [] := rfl
@[simp] theorem Rx.failedWith_dcur (x : Rx) (k : ErrKind) : (x.failedWith k).dcur = 0 := rfl
@[simp] theorem Rx.failedWith_err (x : Rx) (k : ErrKind) : (x.failedWith k).err = some k := rfl
@[simp] theorem Rx.failedWith_pos (x : Rx) (k : ErrKind) : (x.failedWith k).pos = x.pos := rfl

@[simp] theorem Res.bind_ok {α β : Type} (a : α) (s : State) (f : α → State → Res β) :
    (Res.ok a s).bind f = f a s := rfl
@[simp] theorem Res.bind_raised {α β : Type} (e : Raise) (s : State) (f : α → State → Res β) :
    (Res.raised e s).bind f = .raised e s := rfl
@[simp] theorem Res.bind_stuck {α β : Type} (x : Fault) (f : α → State → Res β) :
    (Res.stuck x).bind f = .stuck x := rfl

/-- A run that went on went on at its first part. -/
theorem Res.bind_eq_ok {α β : Type} {r : Res α} {f : α → State → Res β} {b : β} {s' : State} (h : r.bind f = .ok b s') :
    ∃ a s1, r = .ok a s1 ∧ f a s1 = .ok b s' := by
  cases r with
  | ok a s1 => exact ⟨a, s1, rfl, h⟩
  | raised e s1 => cases h
  | stuck x => cases h

/-- A run with `g` applied to the state it leaves. -/
def Res.mapState {α : Type} (g : State → State) : Res α → Res α
  | .ok a s => .ok a (g s)
  | .raised e s => .raised e (g s)
  | .stuck f => .stuck f

@[simp] theorem Res.mapState_ok {α : Type} (g : State → State) (a : α) (s : State) :
    (Res.ok a s).mapState g = .ok a (g s) := rfl
@[simp] theorem Res.mapState_raised {α : Type} (g : State → State) (e : Raise) (s : State) :
    (Res.raised e s : Res α).mapState g = .raised e (g s) := rfl
@[simp] theorem Res.mapState_stuck {α : Type} (g : State → State) (f : Fault) :
    (Res.stuck f : Res α).mapState g = .stuck f := rfl

theorem Res.mapState_bind {α β : Type} (g : State → State) (r : Res α) (f f' : α → State → Res β)
    (hf : ∀ a s, f' a (g s) = (f a s).mapState g) : (r.mapState g).bind f' = (r.bind f).mapState g := by
  cases r with
  | ok a s => exact hf a s
  | raised e s => rfl
  | stuck x => rfl

/-- RX's error entry touches RX's registers only. -/
@[simp] theorem raiseError_rx (e : Raise) (s : State) : raiseError .rx e s = s.setRx (s.rx.failedWith e.kind) := rfl

/-- TX's entry of a fatal error. -/
theorem raiseError_tx_fatal {e : Raise} (s : State) (h1 : e.kind ≠ .config) (h2 : e.kind ≠ .format) :
    raiseError .tx e s = (s.setTx (s.tx.failedWith s.freeCount)).setFreeCount (s.freeCount + 1) := by
  simp [raiseError, h1, h2]

/-! ### The source -/

theorem srcRead_spec {k : Nat} {s s' : State} {r : SrcReply} (hk : 1 ≤ k) (h : srcRead k s = (r, s')) :
    ∃ src : Source, s' = s.setSource src ∧ src.answers = s.source.answers.tail ∧
      src.requests = k :: s.source.requests ∧ src.used = true ∧
      match r with
      | .data b => b ≠ [] ∧ b.length ≤ k ∧ s.source.rest = b ++ src.rest
      | .ended => s.source.rest = [] ∧ src.rest = s.source.rest
      | .ioError _ => src.rest = s.source.rest
      | .never => src.rest = s.source.rest := by
  unfold srcRead at h
  split at h
  · rename_i extra _
    simp only at h
    split at h
    · rename_i hb
      obtain ⟨rfl, rfl⟩ := Prod.mk.inj h
      refine ⟨_, rfl, rfl, rfl, rfl, ?_, rfl⟩
      rcases List.take_eq_nil_iff.mp hb with h0 | h0
      · omega
      · exact h0
    · rename_i hb
      obtain ⟨rfl, rfl⟩ := Prod.mk.inj h
      exact ⟨_, rfl, rfl, rfl, rfl, hb, by simp, (List.take_append_drop _ _).symm⟩
  all_goals
    obtain ⟨rfl, rfl⟩ := Prod.mk.inj h
    exact ⟨_, rfl, rfl, rfl, rfl, rfl⟩

/-- Everything a loop of SrcGet(n) can do that has obtained `acc` before: it consumes a run `b` of the source's next bytes
and moves POS by its length, and ends full, short (the source is then empty), with the endpoint's error, or never. -/
def SrcGetPost (n : Nat) (acc : Bytes) (s : State) : Res SrcResult → Prop
  | .ok r s' => ∃ (src : Source) (b : Bytes), s' = (s.setSource src).setRx (s.rx.moved b.length) ∧
      s.source.rest = b ++ src.rest ∧
      ((r = .full (acc ++ b) ∧ acc.length + b.length = n) ∨
        (r = .short (acc ++ b) ∧ acc.length + b.length < n ∧ src.rest = []))
  | .raised e s' => ∃ (src : Source) (b : Bytes) (x : EndpointError), e = ⟨.io, some (.endpointError x)⟩ ∧
      s' = (s.setSource src).setRx ((s.rx.moved b.length).failedWith .io) ∧ s.source.rest = b ++ src.rest ∧
      acc.length + b.length < n
  | .stuck f => f = .sourceNeverAnswers

theorem srcGetLoop_post (n fuel : Nat) (acc : Bytes) (s : State) (hacc : acc.length ≤ n)
    (hf : n ≤ acc.length + fuel) : SrcGetPost n acc s (srcGetLoop n fuel acc s) := by
  have hdone (acc : Bytes) (s : State) (h : acc.length = n) : SrcGetPost n acc s (.ok (.full acc) s) :=
    ⟨s.source, [], by simp, rfl, .inl ⟨by simp, by simpa using h⟩⟩
  induction fuel generalizing acc s with
  | zero => exact hdone acc s (by omega)
  | succ fuel ih =>
    rw [srcGetLoop]
    split_ifs with hlt
    · generalize hr : srcRead (n - acc.length) s = reply
      obtain ⟨r, s1⟩ := reply
      obtain ⟨src, rfl, -, -, -, hspec⟩ := srcRead_spec (by omega) hr
      cases r with
      | data b =>
        obtain ⟨hb, hle, hrest⟩ := hspec
        have hb0 : 0 < b.length := List.length_pos_iff.mpr hb
        have step := ih (acc ++ b) ((s.setSource src).setRx (s.rx.moved b.length)) (by simp; omega)
          (by simp; omega)
        revert step
        simp only [State.setSource_rx]
        generalize srcGetLoop n fuel (acc ++ b) _ = res
        cases res with
        | ok r s' =>
          rintro ⟨src', b', rfl, hr', hcase⟩
          refine ⟨src', b ++ b', ?_, ?_, ?_⟩
          · apply State.eq_of_components <;> simp
          · simp at hr'; rw [hrest, hr', List.append_assoc]
          · simpa [List.append_assoc, Nat.add_assoc] using hcase
        | raised e s' =>
          rintro ⟨src', b', x, he, rfl, hr', hlt'⟩
          refine ⟨src', b ++ b', x, he, ?_, ?_, ?_⟩
          · apply State.eq_of_components <;> simp
          · simp at hr'; rw [hrest, hr', List.append_assoc]
          · simpa [Nat.add_assoc] using hlt'
        | stuck f => exact id
      | ended =>
        obtain ⟨h0, hs⟩ := hspec
        refine ⟨src, [], ?_, by simp [hs], .inr ⟨by simp, by simpa using hlt, by rw [hs, h0]⟩⟩
        apply State.eq_of_components <;> simp
      | ioError e =>
        refine ⟨src, [], e, rfl, ?_, by simpa using hspec.symm, by simpa using hlt⟩
        apply State.eq_of_components <;> simp
      | never => rfl
    · exact hdone acc s (by omega)

/-- Everything SrcGet(n) can do (R17). -/
theorem srcGet_post (n : Nat) (s : State) : SrcGetPost n [] s (srcGet n s) :=
  srcGetLoop_post n n [] s (by simp) (by simp)

theorem Source.cooperates_asked {src : Source} (hs : src.cooperates) (k n : Nat) : (src.asked k n).cooperates :=
  fun a h => hs a (List.mem_of_mem_tail h)

theorem srcRead_cooperates {k : Nat} {s s' : State} {r : SrcReply} (hs : s.source.cooperates)
    (h : srcRead k s = (r, s')) : ((∃ b, r = .data b) ∨ r = .ended) ∧ s'.source.cooperates := by
  have hhead : ∃ x, s.source.answers.headD (.data k) = .data x := by
    cases ha : s.source.answers with
    | nil => exact ⟨k, rfl⟩
    | cons a as => exact hs a (by simp [ha])
  obtain ⟨x, hx⟩ := hhead
  unfold srcRead at h
  simp only [hx] at h
  split_ifs at h <;> obtain ⟨rfl, rfl⟩ := Prod.mk.inj h
  · exact ⟨.inr rfl, Source.cooperates_asked hs _ _⟩
  · exact ⟨.inl ⟨_, rfl⟩, Source.cooperates_asked hs _ _⟩

theorem srcGetLoop_cooperates (n fuel : Nat) (acc : Bytes) (s : State) (hs : s.source.cooperates) :
    ∃ r s', srcGetLoop n fuel acc s = .ok r s' ∧ s'.source.cooperates := by
  induction fuel generalizing acc s with
  | zero => exact ⟨_, _, rfl, hs⟩
  | succ fuel ih =>
    rw [srcGetLoop]
    split_ifs
    · generalize hr : srcRead (n - acc.length) s = reply
      obtain ⟨r, s1⟩ := reply
      obtain ⟨⟨b, rfl⟩ | rfl, h1⟩ := srcRead_cooperates hs hr
      · exact ih _ _ h1
      · exact ⟨_, _, rfl, h1⟩
    · exact ⟨_, _, rfl, hs⟩

/-- The requests of a loop of SrcGet(n) that ends with a result, `acc` obtained before (R17, R54): the data answers it got
are `chunks`, the request made after `i` of them asked for what was still missing then, and a short result took one request
more. -/
theorem srcGetLoop_requests {n fuel : Nat} {acc : Bytes} {s s' : State} {r : SrcResult}
    (hacc : acc.length ≤ n) (hf : n ≤ acc.length + fuel) (h : srcGetLoop n fuel acc s = .ok r s') :
    ∃ (chunks : List Bytes) (extra : Nat), (∀ c ∈ chunks, 1 ≤ c.length) ∧
      (r = .full (acc ++ chunks.flatten) ∧ extra = 0 ∨ r = .short (acc ++ chunks.flatten) ∧ extra = 1) ∧
      s'.source.requests = ((List.range (chunks.length + extra)).map fun i =>
        n - (acc.length + (chunks.take i).flatten.length)).reverse ++ s.source.requests ∧
      s'.source.answers = s.source.answers.drop (chunks.length + extra) ∧
      s'.source.used = (s.source.used || decide (chunks.length + extra ≠ 0)) := by
  have hdone {acc : Bytes} {s s' : State} {r : SrcResult} (h : (Res.ok (.full acc) s : Res SrcResult) = .ok r s') :
      r = .full acc ∧ s' = s := by cases h; exact ⟨rfl, rfl⟩
  induction fuel generalizing acc s with
  | zero =>
    obtain ⟨rfl, rfl⟩ := hdone h
    exact ⟨[], 0, by simp, .inl (by simp), by simp, by simp, by simp⟩
  | succ fuel ih =>
    rw [srcGetLoop] at h
    split_ifs at h with hlt
    · generalize hr : srcRead (n - acc.length) s = reply at h
      obtain ⟨q, s1⟩ := reply
      obtain ⟨src, rfl, hans, hreq, hused, hspec⟩ := srcRead_spec (by omega) hr
      cases q with
      | data b =>
        obtain ⟨hb, hle, -⟩ := hspec
        have hb0 : 1 ≤ b.length := List.length_pos_iff.mpr hb
        obtain ⟨chunks, extra, hpos, hcase, hreq', hans', hused'⟩ := ih (by simp; omega) (by simp; omega) h
        refine ⟨b :: chunks, extra, ?_, ?_, ?_, ?_, by rw [hused']; simp [hused]⟩
        · simpa using ⟨hb0, hpos⟩
        · simpa [List.append_assoc] using hcase
        · rw [hreq', show (b :: chunks).length + extra = (chunks.length + extra) + 1 by simp; omega,
            List.range_succ_eq_map]
          simp [hreq, Function.comp_def, Nat.add_assoc]
        · rw [hans', show (b :: chunks).length + extra = (chunks.length + extra) + 1 by simp; omega]
          simp [hans]
      | ended =>
        cases h
        exact ⟨[], 1, by simp, .inr (by simp), by simp [hreq], by simp [hans], by simp [hused]⟩
      | ioError e => simp [raising] at h
      | never => simp at h
    · obtain ⟨rfl, rfl⟩ := hdone h
      exact ⟨[], 0, by simp, .inl (by simp), by simp, by simp, by simp⟩

/-- SrcGet(n) of a source that answers (R17): it consumes min(n, what is left), whatever the sizes of the answers. -/
theorem srcGet_of_cooperates (n : Nat) (s : State) (hs : s.source.cooperates) :
    ∃ src : Source, src.rest = s.source.rest.drop n ∧ src.cooperates ∧
      srcGet n s = .ok (if n ≤ s.source.rest.length then .full (s.source.rest.take n) else .short s.source.rest)
        ((s.setSource src).setRx (s.rx.moved (min n s.source.rest.length))) := by
  obtain ⟨r, s', h, hc⟩ := srcGetLoop_cooperates n n [] s hs
  have hp := srcGet_post n s
  rw [srcGet, h] at hp
  obtain ⟨src, b, rfl, hrest, hcase⟩ := hp
  refine ⟨src, ?_, by simpa using hc, ?_⟩
  · rcases hcase with ⟨-, hl⟩ | ⟨-, hl, h0⟩
    · rw [hrest, List.drop_left' (by simpa using hl)]
    · rw [h0, List.drop_eq_nil_of_le]; simp [hrest, h0] at hl ⊢; omega
  · rw [srcGet, h]
    rcases hcase with ⟨rfl, hl⟩ | ⟨rfl, hl, h0⟩
    · simp at hl
      simp [hrest, ← hl]
    · have hb : s.source.rest = b := by simp [hrest, h0]
      simp at hl
      simp [hb, Nat.not_le.mpr hl, Nat.min_eq_right (Nat.le_of_lt hl)]

/-! ### The sink -/

@[simp] theorem Tx.moved_state (x : Tx) (n : Nat) : (x.moved n).state = x.state := rfl
@[simp] theorem Tx.moved_blockSize (x : Tx) (n : Nat) : (x.moved n).blockSize = x.blockSize := rfl
@[simp] theorem Tx.moved_sc (x : Tx) (n : Nat) : (x.moved n).sc = x.sc := rfl
@[simp] theorem Tx.moved_abuf (x : Tx) (n : Nat) : (x.moved n).abuf = x.abuf := rfl
@[simp] theorem Tx.moved_prologueDone (x : Tx) (n : Nat) : (x.moved n).prologueDone = x.prologueDone := rfl
@[simp] theorem Tx.moved_pos (x : Tx) (n : Nat) : (x.moved n).pos = x.pos + n := rfl
@[simp] theorem Tx.moved_zero (x : Tx) : x.moved 0 = x := rfl
@[simp] theorem Tx.moved_moved (x : Tx) (m n : Nat) : (x.moved m).moved n = x.moved (m + n) := by
  simp [Tx.moved, Nat.add_assoc]
@[simp] theorem Tx.failedWith_state (x : Tx) (n : Nat) : (x.failedWith n).state = .failed := rfl
@[simp] theorem Tx.failedWith_blockSize (x : Tx) (n : Nat) : (x.failedWith n).blockSize = x.blockSize := rfl
@[simp] theorem Tx.failedWith_sc (x : Tx) (n : Nat) : (x.failedWith n).sc = x.sc := rfl
@[simp] theorem Tx.failedWith_pos (x : Tx) (n : Nat) : (x.failedWith n).pos = x.pos := rfl
@[simp] theorem Tx.withAbuf_state (x : Tx) (b : Bytes) : (x.withAbuf b).state = x.state := rfl
@[simp] theorem Tx.withAbuf_blockSize (x : Tx) (b : Bytes) : (x.withAbuf b).blockSize = x.blockSize := rfl
@[simp] theorem Tx.withAbuf_sc (x : Tx) (b : Bytes) : (x.withAbuf b).sc = x.sc := rfl
@[simp] theorem Tx.withAbuf_abuf (x : Tx) (b : Bytes) : (x.withAbuf b).abuf = b := rfl
@[simp] theorem Tx.withAbuf_prologueDone (x : Tx) (b : Bytes) : (x.withAbuf b).prologueDone = x.prologueDone := rfl
@[simp] theorem Tx.withAbuf_pos (x : Tx) (b : Bytes) : (x.withAbuf b).pos = x.pos := rfl
@[simp] theorem Tx.withAbuf_withAbuf (x : Tx) (b c : Bytes) : (x.withAbuf b).withAbuf c = x.withAbuf c := rfl
@[simp] theorem Tx.withAbuf_self (x : Tx) : x.withAbuf x.abuf = x := rfl
@[simp] theorem Tx.prologuePut_state (x : Tx) : x.prologuePut.state = x.state := rfl
@[simp] theorem Tx.prologuePut_blockSize (x : Tx) : x.prologuePut.blockSize = x.blockSize := rfl
@[simp] theorem Tx.prologuePut_sc (x : Tx) : x.prologuePut.sc = x.sc := rfl
@[simp] theorem Tx.prologuePut_abuf (x : Tx) : x.prologuePut.abuf = x.abuf := rfl
@[simp] theorem Tx.prologuePut_prologueDone (x : Tx) : x.prologuePut.prologueDone = true := rfl
@[simp] theorem Tx.prologuePut_pos (x : Tx) : x.prologuePut.pos = x.pos := rfl

/-- Everything one request SinkWrite(b) can do: it appends a run of `b` from its start, and changes nothing else of the
sink but its choices. -/
theorem sinkWrite_spec {b : Bytes} {s s' : State} {r : SinkReply} (h : sinkWrite b s = (r, s')) :
    ∃ (k : Sink) (n : Nat), s' = s.setSink k ∧ k.accepted = s.sink.accepted ++ b.take n ∧ n ≤ b.length ∧
      k.flushed = s.sink.flushed ∧ k.flushRequests = s.sink.flushRequests ∧
      k.flushAnswers = s.sink.flushAnswers ∧ k.answers = s.sink.answers.tail ∧ k.used = true ∧
      match r with
      | .count c => n = c
      | .ioError _ => True
      | .never => n = 0 := by
  unfold sinkWrite at h
  split at h <;> obtain ⟨rfl, rfl⟩ := Prod.mk.inj h
  · exact ⟨_, min _ b.length, rfl, by simp [Sink.written], Nat.min_le_right _ _, rfl, rfl, rfl, rfl, rfl, rfl⟩
  · rename_i c _ _ _
    exact ⟨_, min c b.length, rfl, by simp [Sink.written], Nat.min_le_right _ _, rfl, rfl, rfl, rfl, rfl, trivial⟩
  · exact ⟨_, 0, rfl, by simp [Sink.written], by omega, rfl, rfl, rfl, rfl, rfl, rfl⟩

/-- `k` is the sink `k0` with bytes appended by write requests only. -/
structure Sink.Appended (k0 k : Sink) (b : Bytes) : Prop where
  accepted : k.accepted = k0.accepted ++ b
  flushed : k.flushed = k0.flushed
  flushRequests : k.flushRequests = k0.flushRequests
  flushAnswers : k.flushAnswers = k0.flushAnswers

theorem Sink.Appended.refl (k : Sink) : k.Appended k [] := ⟨by simp, rfl, rfl, rfl⟩

theorem Sink.Appended.trans {k0 k1 k2 : Sink} {b c : Bytes} (h1 : k0.Appended k1 b) (h2 : k1.Appended k2 c) :
    k0.Appended k2 (b ++ c) :=
  ⟨by rw [h2.accepted, h1.accepted, List.append_assoc], h2.flushed.trans h1.flushed,
    h2.flushRequests.trans h1.flushRequests, h2.flushAnswers.trans h1.flushAnswers⟩

/-- A prefix `p` of `b`: what a failing SinkPut(b) may leave in the sink (R17). `n` bytes of it were counted. -/
def PutPost (b : Bytes) (s : State) : Res Unit → Prop
  | .ok _ s' => ∃ k : Sink, s' = (s.setSink k).setTx (s.tx.moved b.length) ∧ s.sink.Appended k b
  | .raised e s' => ∃ (k : Sink) (p : Bytes) (n : Nat), e.kind = .io ∧ p <+: b ∧ n ≤ p.length ∧
      s' = ((s.setSink k).setTx ((s.tx.moved n).failedWith s.freeCount)).setFreeCount (s.freeCount + 1) ∧
      s.sink.Appended k p
  | .stuck f => f = .sinkNeverAnswers

theorem sinkPutLoop_post (fuel : Nat) (b : Bytes) (s : State) (hf : b.length ≤ fuel) :
    PutPost b s (sinkPutLoop fuel b s) := by
  have hdone (s : State) : PutPost [] s (.ok () s) := ⟨s.sink, by simp, .refl _⟩
  induction fuel generalizing b s with
  | zero =>
    obtain rfl : b = [] := List.length_eq_zero_iff.mp (by omega)
    exact hdone s
  | succ fuel ih =>
    rw [sinkPutLoop]
    split_ifs with hb
    · subst hb; exact hdone s
    · generalize hr : sinkWrite b s = reply
      obtain ⟨r, s1⟩ := reply
      obtain ⟨k, n, rfl, hacc, hn, hfl, hfr, hfa, -, -, hspec⟩ := sinkWrite_spec hr
      have happ : s.sink.Appended k (b.take n) := ⟨hacc, hfl, hfr, hfa⟩
      cases r with
      | count c =>
       cases c with
       | zero =>
        subst hspec
        refine ⟨k, _, 0, rfl, List.take_prefix 0 b, by simp, ?_, happ⟩
        rw [raiseError_tx_fatal _ (by simp) (by simp)]
        apply State.eq_of_components <;> simp
       | succ c =>
        obtain rfl : n = c + 1 := hspec
        have step := ih (b.drop (c + 1)) ((s.setSink k).setTx (s.tx.moved (c + 1))) (by simp; omega)
        revert step
        simp only [State.setSink_tx]
        generalize sinkPutLoop fuel (b.drop (c + 1)) _ = res
        cases res with
        | ok _ s' =>
          rintro ⟨k', rfl, h'⟩
          refine ⟨k', ?_, by simpa using happ.trans h'⟩
          apply State.eq_of_components <;> simp
          rw [show c + 1 + (b.length - (c + 1)) = b.length by omega]
        | raised e s' =>
          rintro ⟨k', p, m, he, hp, hm, rfl, h'⟩
          refine ⟨k', b.take (c + 1) ++ p, c + 1 + m, he, ?_, ?_, ?_, happ.trans h'⟩
          · obtain ⟨q, hq⟩ := hp
            exact ⟨q, by rw [List.append_assoc, hq, List.take_append_drop]⟩
          · simp; omega
          · apply State.eq_of_components <;> simp
        | stuck f => exact id
      | ioError e =>
        refine ⟨k, _, 0, rfl, List.take_prefix n b, by simp, ?_, happ⟩
        rw [raiseError_tx_fatal _ (by simp) (by simp)]
        apply State.eq_of_components <;> simp
      | never => rfl

/-- Everything SinkPut(b) can do (R17). -/
theorem sinkPut_post (b : Bytes) (s : State) : PutPost b s (sinkPut b s) := sinkPutLoop_post _ b s le_rfl

theorem sinkPutLoop_cooperates (fuel : Nat) (b : Bytes) (s : State) (hs : s.sink.cooperates) :
    ∃ s', sinkPutLoop fuel b s = .ok () s' ∧ s'.sink.cooperates := by
  induction fuel generalizing b s with
  | zero => exact ⟨_, rfl, hs⟩
  | succ fuel ih =>
    rw [sinkPutLoop]
    split_ifs with hb
    · exact ⟨_, rfl, hs⟩
    · have hpos : 0 < b.length := List.length_pos_iff.mpr hb
      obtain ⟨c, k, hw, hk⟩ : ∃ c k, sinkWrite b s = (.count (c + 1), s.setSink k) ∧ k.cooperates := by
        unfold sinkWrite
        cases ha : s.sink.answers with
        | nil =>
          refine ⟨b.length - 1, s.sink.written b, ?_, by simp [Sink.written, ha], hs.2⟩
          simp [show b.length - 1 + 1 = b.length by omega]
        | cons a as =>
          obtain ⟨x, rfl⟩ := hs.1 a (by simp [ha])
          refine ⟨min (x + 1) b.length - 1, s.sink.written (b.take (x + 1)), ?_, ?_, hs.2⟩
          · simp [show min (x + 1) b.length - 1 + 1 = min (x + 1) b.length by omega]
          · intro a h
            simp only [Sink.written, ha, List.tail_cons] at h
            exact hs.1 a (by simp [ha, h])
      rw [hw]
      exact ih _ _ (by simpa using hk)

/-- A SinkPut that went on made a request exactly if it had a byte to put (R17, R150). -/
theorem sinkPutLoop_used {fuel : Nat} {b : Bytes} {s s' : State} (hf : b.length ≤ fuel)
    (h : sinkPutLoop fuel b s = .ok () s') : s'.sink.used = (s.sink.used || decide (b ≠ [])) := by
  induction fuel generalizing b s with
  | zero =>
    obtain rfl : b = [] := List.length_eq_zero_iff.mp (by omega)
    cases h; simp
  | succ fuel ih =>
    rw [sinkPutLoop] at h
    split_ifs at h with hb
    · cases h; simp [hb]
    · generalize hr : sinkWrite b s = reply at h
      obtain ⟨r, s1⟩ := reply
      obtain ⟨k, n, rfl, -, -, -, -, -, -, hused, -⟩ := sinkWrite_spec hr
      cases r with
      | count c =>
        cases c with
        | zero => simp [raising] at h
        | succ c => rw [ih (by simp; omega) h]; simp [hused, hb]
      | ioError e => simp [raising] at h
      | never => simp at h

/-- SinkPut(b) into a sink that accepts (R17). -/
theorem sinkPut_of_cooperates (b : Bytes) (s : State) (hs : s.sink.cooperates) :
    ∃ k : Sink, sinkPut b s = .ok () ((s.setSink k).setTx (s.tx.moved b.length)) ∧ s.sink.Appended k b ∧
      k.cooperates := by
  obtain ⟨s', h, hc⟩ := sinkPutLoop_cooperates b.length b s hs
  have hp := sinkPut_post b s
  rw [sinkPut, h] at hp
  obtain ⟨k, rfl, happ⟩ := hp
  exact ⟨k, h, happ, by simpa using hc⟩

/-- Everything SinkFlush can do (R17, R60). -/
theorem sinkFlush_cases (s : State) :
    (∃ k : Sink, sinkFlush s = .ok () (s.setSink k) ∧ k.accepted = s.sink.accepted ∧
        k.flushed = s.sink.accepted.length ∧ k.flushRequests = s.sink.flushRequests + 1 ∧
        k.answers = s.sink.answers ∧ k.flushAnswers = s.sink.flushAnswers.tail) ∨
      (∃ (k : Sink) (x : EndpointError), sinkFlush s = .raised ⟨.io, some (.endpointError x)⟩
          (((s.setSink k).setTx (s.tx.failedWith s.freeCount)).setFreeCount (s.freeCount + 1)) ∧
        k.accepted = s.sink.accepted ∧ k.flushed = s.sink.flushed ∧ k.flushRequests = s.sink.flushRequests + 1) ∨
      sinkFlush s = .stuck .flushNeverAnswers := by
  unfold sinkFlush
  split
  · exact .inl ⟨_, rfl, rfl, rfl, rfl, rfl, rfl⟩
  · rename_i e _
    refine .inr (.inl ⟨s.sink.flushAsked s.sink.flushed, e, ?_, rfl, rfl, rfl⟩)
    rw [raising, raiseError_tx_fatal _ (by simp) (by simp)]
    rfl
  · exact .inr (.inr rfl)

/-- SinkFlush of a sink that accepts (R60). -/
theorem sinkFlush_of_cooperates (s : State) (hs : s.sink.cooperates) :
    ∃ k : Sink, sinkFlush s = .ok () (s.setSink k) ∧ k.accepted = s.sink.accepted ∧
      k.flushed = s.sink.accepted.length ∧ k.flushRequests = s.sink.flushRequests + 1 ∧ k.cooperates ∧
      k.used = true := by
  have hok : s.sink.flushAnswers.headD .ok = .ok := by
    cases ha : s.sink.flushAnswers with
    | nil => rfl
    | cons a as => exact hs.2 a (by simp [ha])
  exact ⟨s.sink.flushAsked s.sink.accepted.length, by simp only [sinkFlush, hok], rfl, rfl, rfl,
    ⟨hs.1, fun a h => hs.2 a (List.mem_of_mem_tail h)⟩, rfl⟩

end Sys2Proof.Machine
end

