-- ==== Sys2Proof/Laws/Rx.lean ====
section
/-! SUPPORT. What a run of RX's steps does: one lemma per operation that covers every way it can end. -/

namespace Sys2Proof.Machine

/-! ### Whatever a run of RX's steps does -/

/-- RX went from `s` to `s'`: it consumed the source's next bytes `b` and counted them in POS; everything that is not RX's
is as it was. -/
def RxMoved (s s' : State) (b : Bytes) : Prop :=
  ∃ (src : Source) (x : Rx), s' = (s.setSource src).setRx x ∧ s.source.rest = b ++ src.rest ∧
    x.pos = s.rx.pos + b.length

/-- RX went from `s` to `s'` and failed there (R206): the kind is latched, the buffer is empty, what was consumed is
counted; only CorruptionError has no sub-reason (R200). -/
def RxFailed (s : State) (e : Raise) (s' : State) : Prop :=
  (e.kind ≠ .config ∧ (e.info = none ↔ e.kind = .corruption)) ∧
  ∃ (src : Source) (b : Bytes), s.source.rest = b ++ src.rest ∧
    s' = (s.setSource src).setRx ((s.rx.moved b.length).failedWith e.kind)

/-- The three ways a run of RX's steps from `s` can end. -/
def RxPost (s : State) : Res Unit → Prop
  | .ok _ s' => ∃ b, RxMoved s s' b
  | .raised e s' => RxFailed s e s'
  | .stuck f => f = .sourceNeverAnswers

theorem RxMoved.opResult_eq {s s' : State} {b : Bytes} (h : RxMoved s s' b) : s'.opResult = s.opResult := by
  obtain ⟨_, _, rfl, -, -⟩ := h
  rfl

theorem RxFailed.opResult_eq {s s' : State} {e : Raise} (h : RxFailed s e s') : s'.opResult = s.opResult := by
  obtain ⟨-, _, _, -, rfl⟩ := h
  rfl

theorem RxMoved.refl (s : State) : RxMoved s s [] := ⟨s.source, s.rx, by simp, by simp, by simp⟩

theorem RxMoved.trans {s s1 s2 : State} {b c : Bytes} (h1 : RxMoved s s1 b) (h2 : RxMoved s1 s2 c) :
    RxMoved s s2 (b ++ c) := by
  obtain ⟨k1, x1, rfl, ha1, hp1⟩ := h1
  obtain ⟨k2, x2, rfl, ha2, hp2⟩ := h2
  simp only [State.setRx_source, State.setSource_source, State.setRx_rx] at ha2 hp2
  refine ⟨k2, x2, ?_, by rw [ha1, ha2, List.append_assoc], by rw [hp2, hp1]; simp [Nat.add_assoc]⟩
  apply State.eq_of_components <;> simp

theorem RxMoved.then_failed {s s1 s2 : State} {b : Bytes} {e : Raise} (h1 : RxMoved s s1 b) (h2 : RxFailed s1 e s2) :
    RxFailed s e s2 := by
  obtain ⟨k1, x1, rfl, ha1, hp1⟩ := h1
  obtain ⟨he, k2, p, ha2, rfl⟩ := h2
  simp only [State.setRx_source, State.setSource_source] at ha2
  refine ⟨he, k2, b ++ p, by rw [ha1, ha2, List.append_assoc], ?_⟩
  apply State.eq_of_components <;> simp [Rx.failedWith, hp1, Nat.add_assoc]

theorem RxMoved.setRx {s s' : State} {b : Bytes} (h : RxMoved s s' b) {x : Rx} (hp : x.pos = s'.rx.pos) :
    RxMoved s (s'.setRx x) b := by
  obtain ⟨k1, x1, rfl, ha1, hp1⟩ := h
  exact ⟨k1, x, rfl, ha1, hp.trans hp1⟩

theorem RxPost.bind {s : State} {r : Res Unit} {f : Unit → State → Res Unit} (hr : RxPost s r)
    (hf : ∀ s1 b, r = .ok () s1 → RxMoved s s1 b → RxPost s1 (f () s1)) : RxPost s (r.bind f) := by
  cases r with
  | ok u s1 =>
    obtain ⟨b, h1⟩ := hr
    have h2 := hf s1 b rfl h1
    rw [Res.bind_ok]
    revert h2
    cases f () s1 with
    | ok u2 s2 => exact fun ⟨c, h2⟩ => ⟨_, h1.trans h2⟩
    | raised e s2 => exact fun h2 => h1.then_failed h2
    | stuck x => exact id
  | raised e s1 => exact hr
  | stuck x => exact hr

/-- RX raises an error where it stands. -/
theorem raising_rxPost {k : ErrKind} {info : Option ErrInfo} (hk : k ≠ .config ∧ (info = none ↔ k = .corruption))
    (s : State) : RxPost s (raising .rx k info s) :=
  ⟨hk, s.source, [], by simp, by simp⟩

/-- SrcGet, then a run of RX's steps. -/
theorem srcGet_bind_rxPost {n : Nat} {s : State} {f : SrcResult → State → Res Unit}
    (hf : ∀ r s1 b, srcGet n s = .ok r s1 → RxMoved s s1 b → RxPost s1 (f r s1)) :
    RxPost s ((srcGet n s).bind f) := by
  have h := srcGet_post n s
  revert h hf
  cases srcGet n s with
  | ok r s1 =>
    rintro hf ⟨src, b, hs1, hrest, -⟩
    have h1 : RxMoved s s1 b := ⟨src, _, hs1, hrest, rfl⟩
    have h2 := hf r s1 b rfl h1
    rw [Res.bind_ok]
    revert h2
    cases f r s1 with
    | ok u2 s2 => exact fun ⟨c, h2⟩ => ⟨_, h1.trans h2⟩
    | raised e s2 => exact fun h2 => h1.then_failed h2
    | stuck x => exact id
  | raised e s1 =>
    rintro - ⟨src, b, x, rfl, hs1, hrest, -⟩
    exact ⟨by simp, src, b, hrest, hs1⟩
  | stuck x => exact fun _ h => h

theorem rxLoad_rxPost (orig : Bytes) (csum : U32) (s : State) : RxPost s (rxLoad orig csum s) := by
  unfold rxLoad
  split
  · exact raising_rxPost (by simp) s
  · exact ⟨[], (RxMoved.refl s).setRx rfl⟩

theorem rxReconstruct_rxPost (m : Method) (payload : Bytes) (olen csum : U32) (s : State) :
    RxPost s (rxReconstruct m payload olen csum s) := by
  unfold rxReconstruct
  split
  · exact rxLoad_rxPost _ _ s
  · split
    · exact raising_rxPost (by simp) s
    · split_ifs
      · exact raising_rxPost (by simp) s
      · exact rxLoad_rxPost _ _ s

theorem rxPayload_rxPost (m : Method) (clen olen csum : U32) (s : State) : RxPost s (rxPayload m clen olen csum s) :=
  srcGet_bind_rxPost fun r s1 _ _ _ => by
    cases r with
    | full p => exact rxReconstruct_rxPost _ _ _ _ s1
    | short p => exact raising_rxPost (by simp) s1

theorem rxInit_rxPost (s : State) : RxPost s (rxInit s) :=
  srcGet_bind_rxPost fun r s1 _ _ _ => by
    cases r with
    | full p =>
      simp only
      split_ifs
      · exact ⟨[], (RxMoved.refl s1).setRx rfl⟩
      · exact raising_rxPost (by simp) s1
    | short p => exact raising_rxPost (by simp) s1

theorem rxBoundaryEnd_rxPost (s : State) : RxPost s (rxBoundaryEnd s) := by
  unfold rxBoundaryEnd
  split
  · exact ⟨[], (RxMoved.refl s).setRx rfl⟩
  · exact raising_rxPost (by simp) s

theorem rxHeader_rxPost (h : Bytes) (s : State) : RxPost s (rxHeader h s) := by
  unfold rxHeader
  split
  · exact raising_rxPost (by simp) s
  · exact ⟨[], (RxMoved.refl s).setRx rfl⟩
  · exact rxPayload_rxPost _ _ _ _ s

theorem rxRefill_rxPost (s : State) : RxPost s (rxRefill s) :=
  srcGet_bind_rxPost fun r s1 _ _ _ => by
    split
    · exact rxBoundaryEnd_rxPost s1
    · exact raising_rxPost (by simp) s1
    · exact rxHeader_rxPost _ s1

theorem rxFetch_rxPost (s : State) : RxPost s (rxFetch s) := by
  have h0 : RxPost s (if s.rx.state = .uninitialized then rxInit s else .ok () s) := by
    split_ifs
    · exact rxInit_rxPost s
    · exact ⟨[], .refl s⟩
  refine h0.bind fun s1 _ _ _ => ?_
  split_ifs
  · exact rxRefill_rxPost s1
  · exact ⟨[], .refl s1⟩

/-! ### What a run that went on has left -/

@[simp] theorem raising_ne_ok {α : Type} (u : Framer) (k : ErrKind) (info : Option ErrInfo) (s s' : State) (a : α) :
    raising u k info s ≠ .ok a s' := nofun

/-- A block of at least one byte stands in the buffer, none of it delivered (R179). -/
def Rx.loaded (x : Rx) : Prop := x.state = .decodingBlock ∧ x.dcur = 0 ∧ 1 ≤ x.dbuf.length

theorem rxInit_ok {s s' : State} (h : rxInit s = .ok () s') : s'.rx.state = .idle := by
  obtain ⟨r, s1, -, h2⟩ := Res.bind_eq_ok h
  cases r with
  | short p => exact absurd h2 (by simp)
  | full p =>
    simp only at h2
    split_ifs at h2
    · cases h2; rfl
    · exact absurd h2 (by simp)

theorem rxLoad_ok {orig : Bytes} {csum : U32} {s s' : State} (h : rxLoad orig csum s = .ok () s')
    (hl : 1 ≤ orig.length) : s'.rx.loaded := by
  unfold rxLoad at h
  split at h
  · exact absurd h (by simp)
  · cases h; exact ⟨rfl, rfl, hl⟩

theorem rxPayload_ok {m : Method} {clen olen csum : U32} {s s' : State} (h : rxPayload m clen olen csum s = .ok () s')
    (hd : dataLengths m clen olen = true) : s'.rx.loaded := by
  simp only [dataLengths, Bool.and_eq_true, decide_eq_true_eq] at hd
  obtain ⟨r, s1, h1, h2⟩ := Res.bind_eq_ok h
  have hp := srcGet_post clen.toNat s
  rw [h1] at hp
  obtain ⟨src, b, -, -, ⟨rfl, hl⟩ | ⟨rfl, -⟩⟩ := hp
  · simp only [List.nil_append, List.length_nil, Nat.zero_add] at h2 hl
    cases m with
    | raw =>
      have hc : clen = olen := by simpa [lengthsAgree] using hd.2
      exact rxLoad_ok h2 (by rw [hl, hc]; exact hd.1.1)
    | lz4 =>
      simp only [rxReconstruct] at h2
      split at h2
      · exact absurd h2 (by simp)
      · split_ifs at h2 with hlen
        · exact absurd h2 (by simp)
        · exact rxLoad_ok h2 (by rw [not_not.mp hlen]; exact hd.1.1)
  · exact absurd h2 (by simp)

/-- RX.REFILL that raised nothing has ended the stream or loaded a block (R174). -/
theorem rxRefill_ok {s s' : State} (h : rxRefill s = .ok () s') : s'.rx.state = .terminated ∨ s'.rx.loaded := by
  obtain ⟨r, s1, -, h2⟩ := Res.bind_eq_ok h
  split at h2
  · unfold rxBoundaryEnd at h2
    split at h2
    · cases h2; exact .inl rfl
    · exact absurd h2 (by simp)
  · exact absurd h2 (by simp)
  · unfold rxHeader at h2
    split at h2
    · exact absurd h2 (by simp)
    · cases h2; exact .inl rfl
    · rename_i hv
      obtain ⟨rfl, rfl, -, -, -, hd⟩ := hdrClassify_data hv
      exact .inr (rxPayload_ok h2 hd)

/-! ### What a run of RX's steps does with the source's answers to come -/

/-- A run of RX's steps ends with `due` true of the source, raises an error `used` tells of, or hangs as `hangs` says. -/
def SrcPost {α : Type} (due : Source → Prop) (used : Raise → Source → Prop) (hangs : Fault → Prop) : Res α → Prop
  | .ok _ s => due s.source
  | .raised e s => due s.source ∨ used e s.source
  | .stuck f => hangs f

section
variable {due : Source → Prop} {used : Raise → Source → Prop} {hangs : Fault → Prop}

theorem SrcPost.bind {α β : Type} {r : Res α} {f : α → State → Res β} (hr : SrcPost due used hangs r)
    (hf : ∀ a s, due s.source → SrcPost due used hangs (f a s)) : SrcPost due used hangs (r.bind f) := by
  cases r with
  | ok a s => exact hf a s hr
  | raised x s => exact hr
  | stuck x => exact hr

theorem raising_srcPost {α : Type} (k : ErrKind) (info : Option ErrInfo) {s : State} (h : due s.source) :
    SrcPost due used hangs (raising .rx k info s : Res α) := .inl (by simpa using h)

theorem rxLoad_srcPost (orig : Bytes) (csum : U32) {s : State} (h : due s.source) :
    SrcPost due used hangs (rxLoad orig csum s) := by
  unfold rxLoad
  split
  · exact raising_srcPost _ _ h
  · simpa [SrcPost] using h

theorem rxReconstruct_srcPost (m : Method) (payload : Bytes) (olen csum : U32) {s : State} (h : due s.source) :
    SrcPost due used hangs (rxReconstruct m payload olen csum s) := by
  cases m with
  | raw => exact rxLoad_srcPost _ _ h
  | lz4 =>
    simp only [rxReconstruct]
    split
    · exact raising_srcPost _ _ h
    · split_ifs
      · exact raising_srcPost _ _ h
      · exact rxLoad_srcPost _ _ h

variable (hget : ∀ (n : Nat) (s : State), due s.source → SrcPost due used hangs (srcGet n s))
include hget

theorem rxPayload_srcPost (m : Method) (clen olen csum : U32) {s : State} (h : due s.source) :
    SrcPost due used hangs (rxPayload m clen olen csum s) :=
  (hget _ s h).bind fun r s1 h1 => by
    cases r with
    | short p => exact raising_srcPost _ _ h1
    | full p => exact rxReconstruct_srcPost _ _ _ _ h1

theorem rxInit_srcPost {s : State} (h : due s.source) : SrcPost due used hangs (rxInit s) :=
  (hget _ s h).bind fun r s1 h1 => by
    cases r with
    | short p => exact raising_srcPost _ _ h1
    | full p =>
      simp only
      split_ifs
      · simpa [SrcPost, rxPrologueRead] using h1
      · exact raising_srcPost _ _ h1

theorem rxRefill_srcPost {s : State} (h : due s.source) : SrcPost due used hangs (rxRefill s) :=
  (hget _ s h).bind fun r s1 h1 => by
    split
    · unfold rxBoundaryEnd
      split
      · simpa [SrcPost] using h1
      · exact raising_srcPost _ _ h1
    · exact raising_srcPost _ _ h1
    · unfold rxHeader
      split
      · exact raising_srcPost _ _ h1
      · simpa [SrcPost, rxMarker] using h1
      · exact rxPayload_srcPost hget _ _ _ _ h1

theorem rxFetch_srcPost {s : State} (h : due s.source) : SrcPost due used hangs (rxFetch s) := by
  refine SrcPost.bind ?_ fun _ s1 h1 => ?_
  · split_ifs
    · exact rxInit_srcPost hget h
    · exact h
  · split_ifs
    · exact rxRefill_srcPost hget h1
    · exact h1

end

/-- The source answers some requests with data, then one with `bad`. -/
def Source.answerDue (bad : SrcAnswer) (as : List SrcAnswer) (src : Source) : Prop :=
  ∃ good : List Nat, src.answers = good.map .data ++ bad :: as

theorem Source.answerDue_length {bad : SrcAnswer} {as : List SrcAnswer} {src : Source} (h : src.answerDue bad as) :
    as.length < src.answers.length := by
  obtain ⟨good, h⟩ := h
  simp only [h, List.length_append, List.length_map, List.length_cons]
  omega

/-- The error of the source was used, nothing after it was, and it is the one raised (R208). -/
def Source.errorUsed (e : EndpointError) (as : List SrcAnswer) (x : Raise) (src : Source) : Prop :=
  src.answers = as ∧ x = ⟨.io, some (.endpointError e)⟩

/-- An answer that is due stays due while SrcGet uses the data answers before it; `hbad` says what it does when met. -/
theorem srcGet_answerDue {bad : SrcAnswer} {as : List SrcAnswer} {used : Raise → Source → Prop} {hangs : Fault → Prop}
    (hbad : ∀ (n fuel : Nat) (acc : Bytes) (s : State), acc.length < n → s.source.answers = bad :: as →
      SrcPost (Source.answerDue bad as) used hangs (srcGetLoop n (fuel + 1) acc s))
    (n : Nat) (s : State) (h : s.source.answerDue bad as) :
    SrcPost (Source.answerDue bad as) used hangs (srcGet n s) := by
  have hloop (fuel : Nat) (acc : Bytes) (s : State) (h : s.source.answerDue bad as) :
      SrcPost (Source.answerDue bad as) used hangs (srcGetLoop n fuel acc s) := by
    induction fuel generalizing acc s with
    | zero => exact h
    | succ fuel ih =>
      by_cases hlt : acc.length < n
      · obtain ⟨good, hg⟩ := h
        cases good with
        | nil => exact hbad n fuel acc s hlt hg
        | cons x good =>
          rw [srcGetLoop, if_pos hlt]
          simp only [srcRead, hg, List.map_cons, List.cons_append, List.headD_cons]
          split_ifs
          · exact ⟨good, by simp [Source.asked, hg]⟩
          · exact ih _ _ ⟨good, by simp [Source.asked, hg]⟩
      · rw [srcGetLoop, if_neg hlt]
        exact h
  exact hloop n [] s h

/-- An error that is due stays due until a SrcGet uses it, and is then what it raises (R208). -/
theorem srcGet_errorDue {e : EndpointError} {as : List SrcAnswer} (n : Nat) (s : State)
    (h : s.source.answerDue (.ioError e) as) :
    SrcPost (Source.answerDue (.ioError e) as) (Source.errorUsed e as) (· = .sourceNeverAnswers) (srcGet n s) :=
  srcGet_answerDue (fun n fuel acc s hlt hg => by
    rw [srcGetLoop, if_pos hlt]
    simp only [srcRead, hg, List.headD_cons]
    exact .inr ⟨by simp [Source.asked, hg], rfl⟩) n s h

/-- A SrcGet that meets an answer that never comes goes no further (R244). -/
theorem srcGet_neverDue {as : List SrcAnswer} (n : Nat) (s : State) (h : s.source.answerDue .never as) :
    SrcPost (Source.answerDue .never as) (fun _ _ => False) (· = .sourceNeverAnswers) (srcGet n s) :=
  srcGet_answerDue (fun n fuel acc s hlt hg => by
    rw [srcGetLoop, if_pos hlt]
    simp only [srcRead, hg, List.headD_cons]
    exact rfl) n s h

/-- A source that answers every request does not hang SrcGet (R244). -/
theorem srcGet_answering (n : Nat) (s : State) (h : s.source.answering) :
    SrcPost Source.answering (fun _ _ => False) (fun _ => False) (srcGet n s) := by
  have hloop (fuel : Nat) (acc : Bytes) (s : State) (h : s.source.answering) :
      SrcPost Source.answering (fun _ _ => False) (fun _ => False) (srcGetLoop n fuel acc s) := by
    induction fuel generalizing acc s with
    | zero => exact h
    | succ fuel ih =>
      rw [srcGetLoop]
      split_ifs with hlt
      · generalize hr : srcRead (n - acc.length) s = reply
        obtain ⟨r, s1⟩ := reply
        obtain ⟨src, rfl, hans, -, -, -⟩ := srcRead_spec (by omega) hr
        have h1 : src.answering := fun ha => h (List.mem_of_mem_tail (hans ▸ ha))
        cases r with
        | data b => exact ih _ _ h1
        | ended => exact h1
        | ioError e => exact raising_srcPost _ _ h1
        | never =>
          unfold srcRead at hr
          split at hr
          · simp only at hr
            split_ifs at hr <;> simp at hr
          · simp at hr
          · rename_i heq
            refine h ?_
            cases ha : s.source.answers with
            | nil => simp [ha] at heq
            | cons a as => simp [ha] at heq; simp [heq]
      · exact h
  exact hloop n [] s h

/-! ### What RX's steps do not touch -/

/-- A part of the state RX's steps neither read nor write. -/
structure RxIgnores (g : State → State) : Prop where
  rx : ∀ s, (g s).rx = s.rx
  source : ∀ s, (g s).source = s.source
  setRx : ∀ s x, (g s).setRx x = g (s.setRx x)
  setSource : ∀ s x, (g s).setSource x = g (s.setSource x)

theorem rxIgnores_setRxRsp (r : Option Response) : RxIgnores (·.setRxRsp r) :=
  ⟨fun _ => rfl, fun _ => rfl, fun _ _ => rfl, fun _ _ => rfl⟩

theorem rxIgnores_setOpResult (r : OpResult) : RxIgnores (·.setOpResult r) :=
  ⟨fun _ => rfl, fun _ => rfl, fun _ _ => rfl, fun _ _ => rfl⟩

variable {g : State → State}

theorem RxIgnores.raising {α : Type} (hg : RxIgnores g) (k : ErrKind) (info : Option ErrInfo) (s : State) :
    (raising .rx k info (g s) : Res α) = (Machine.raising .rx k info s).mapState g := by
  simp only [Machine.raising, raiseError_rx, Res.mapState_raised, hg.rx, hg.setRx]

theorem RxIgnores.srcRead (hg : RxIgnores g) (k : Nat) (s : State) :
    srcRead k (g s) = ((Machine.srcRead k s).1, g (Machine.srcRead k s).2) := by
  unfold Machine.srcRead
  rw [hg.source]
  cases s.source.answers.headD (.data k) with
  | data x => simp only [hg.setSource]; split_ifs <;> simp
  | ioError e => simp [hg.setSource]
  | never => simp [hg.setSource]

theorem RxIgnores.srcGetLoop (hg : RxIgnores g) (n fuel : Nat) (acc : Bytes) (s : State) :
    srcGetLoop n fuel acc (g s) = (Machine.srcGetLoop n fuel acc s).mapState g := by
  induction fuel generalizing acc s with
  | zero => rfl
  | succ fuel ih =>
    unfold Machine.srcGetLoop
    rw [hg.srcRead]
    split_ifs
    · cases h : Machine.srcRead (n - acc.length) s with
      | mk r s' =>
        cases r with
        | data b =>
          simp only [hg.rx, hg.setRx]
          exact ih _ _
        | ended => rfl
        | ioError e => exact hg.raising _ _ _
        | never => rfl
    · rfl

theorem RxIgnores.srcGet (hg : RxIgnores g) (n : Nat) (s : State) :
    srcGet n (g s) = (Machine.srcGet n s).mapState g := hg.srcGetLoop _ _ _ _

theorem RxIgnores.rxLoad (hg : RxIgnores g) (orig : Bytes) (csum : U32) (s : State) :
    rxLoad orig csum (g s) = (Machine.rxLoad orig csum s).mapState g := by
  unfold Machine.rxLoad
  cases ckVerify orig csum with
  | mismatch => exact hg.raising _ _ _
  | same => simp [hg.rx, hg.setRx]

theorem RxIgnores.rxReconstruct (hg : RxIgnores g) (m : Method) (payload : Bytes) (olen csum : U32) (s : State) :
    rxReconstruct m payload olen csum (g s) = (Machine.rxReconstruct m payload olen csum s).mapState g := by
  unfold Machine.rxReconstruct
  cases m with
  | raw => exact hg.rxLoad _ _ _
  | lz4 =>
    simp only
    cases Config.decompress payload olen.toNat with
    | error e => exact hg.raising _ _ _
    | bytes d =>
      simp only
      split_ifs
      · exact hg.raising _ _ _
      · exact hg.rxLoad _ _ _

theorem RxIgnores.rxPayload (hg : RxIgnores g) (m : Method) (clen olen csum : U32) (s : State) :
    rxPayload m clen olen csum (g s) = (Machine.rxPayload m clen olen csum s).mapState g := by
  unfold Machine.rxPayload
  rw [hg.srcGet]
  refine Res.mapState_bind _ _ _ _ fun r s1 => ?_
  cases r with
  | short p => exact hg.raising _ _ _
  | full p => exact hg.rxReconstruct _ _ _ _ _

end Sys2Proof.Machine
end

