-- ==== Sys2Proof/Laws/Tx.lean ====
section
/-! SUPPORT. What a run of TX's steps does: one lemma per operation that covers every way it can end, and one for a sink that accepts. -/

namespace Sys2Proof.Machine

/-! ### Whatever a run of TX's steps does -/

/-- TX went from `s` to `s'`: bytes `b` more are in the sink and counted in POS; the state, BLOCK_SIZE and SC are as they
were, and so is everything that is not TX's. -/
def TxMoved (s s' : State) (b : Bytes) : Prop :=
  ∃ (k : Sink) (x : Tx), s' = (s.setSink k).setTx x ∧ k.accepted = s.sink.accepted ++ b ∧
    x.pos = s.tx.pos + b.length ∧ x.state = s.tx.state ∧ x.blockSize = s.tx.blockSize ∧ x.sc = s.tx.sc

/-- TX went from `s` to `s'` and failed there (R207): the kind is BackendError or IoError, a run `p` of bytes more is in the
sink, `n` of them counted, and ABUF and PROLOGUE_DONE hold free values. -/
def TxFailed (s : State) (e : Raise) (s' : State) : Prop :=
  (e.kind = .backend ∨ e.kind = .io) ∧ ∃ (k : Sink) (p : Bytes) (n : Nat),
    k.accepted = s.sink.accepted ++ p ∧ n ≤ p.length ∧
    s' = ((s.setSink k).setTx ((s.tx.moved n).failedWith s.freeCount)).setFreeCount (s.freeCount + 1)

/-- The three ways a run of TX's steps from `s` can end. -/
def TxPost (s : State) : Res Unit → Prop
  | .ok _ s' => ∃ b, TxMoved s s' b
  | .raised e s' => TxFailed s e s'
  | .stuck f => f = .sinkNeverAnswers ∨ f = .flushNeverAnswers ∨ f = .writeNeverEnds

theorem TxMoved.refl (s : State) : TxMoved s s [] := ⟨s.sink, s.tx, by simp, by simp, by simp, rfl, rfl, rfl⟩

theorem TxMoved.trans {s s1 s2 : State} {b c : Bytes} (h1 : TxMoved s s1 b) (h2 : TxMoved s1 s2 c) :
    TxMoved s s2 (b ++ c) := by
  obtain ⟨k1, x1, rfl, ha1, hp1, hs1, hb1, hc1⟩ := h1
  obtain ⟨k2, x2, rfl, ha2, hp2, hs2, hb2, hc2⟩ := h2
  simp only [State.setTx_sink, State.setSink_sink, State.setTx_tx] at ha2 hp2 hs2 hb2 hc2
  refine ⟨k2, x2, ?_, by rw [ha2, ha1, List.append_assoc], by rw [hp2, hp1]; simp [Nat.add_assoc],
    hs2.trans hs1, hb2.trans hb1, hc2.trans hc1⟩
  apply State.eq_of_components <;> simp

theorem TxMoved.then_failed {s s1 s2 : State} {b : Bytes} {e : Raise} (h1 : TxMoved s s1 b) (h2 : TxFailed s1 e s2) :
    TxFailed s e s2 := by
  obtain ⟨k1, x1, rfl, ha1, hp1, hs1, hb1, hc1⟩ := h1
  obtain ⟨he, k2, p, n, ha2, hn, rfl⟩ := h2
  refine ⟨he, k2, b ++ p, b.length + n, ?_, by simp; omega, ?_⟩
  · simp only [State.setTx_sink, State.setSink_sink] at ha2
    rw [ha2, ha1, List.append_assoc]
  · apply State.eq_of_components <;> simp [Tx.failedWith, Tx.moved, hp1, hb1, hc1, Nat.add_assoc]

/-- A change of ABUF or PROLOGUE_DONE alone. -/
theorem TxMoved.setTx {s s' : State} {b : Bytes} (h : TxMoved s s' b) {x : Tx} (hp : x.pos = s'.tx.pos)
    (hs : x.state = s'.tx.state) (hb : x.blockSize = s'.tx.blockSize) (hc : x.sc = s'.tx.sc) :
    TxMoved s (s'.setTx x) b := by
  obtain ⟨k1, x1, rfl, ha1, hp1, hs1, hb1, hc1⟩ := h
  exact ⟨k1, x, rfl, ha1, hp.trans hp1, hs.trans hs1, hb.trans hb1, hc.trans hc1⟩

theorem TxPost.bind {s : State} {r : Res Unit} {f : Unit → State → Res Unit} (hr : TxPost s r)
    (hf : ∀ s1 b, r = .ok () s1 → TxMoved s s1 b → TxPost s1 (f () s1)) : TxPost s (r.bind f) := by
  cases r with
  | ok u s1 =>
    obtain ⟨b, h1⟩ := hr
    have h2 := hf s1 b rfl h1
    rw [Res.bind_ok]
    revert h2
    cases f () s1 with
    | ok u2 s2 => exact fun ⟨c, h2⟩ => ⟨_, h1.trans h2⟩
    | raised e s2 => exact fun h2 => h1.then_failed h2
    | stuck x => exact id
  | raised e s1 => exact hr
  | stuck x => exact hr

theorem sinkPut_txPost (b : Bytes) (s : State) : TxPost s (sinkPut b s) := by
  have h := sinkPut_post b s
  revert h
  cases sinkPut b s with
  | ok u s' => exact fun ⟨k, h, ha⟩ => ⟨b, k, _, h, ha.accepted, rfl, rfl, rfl, rfl⟩
  | raised e s' => exact fun ⟨k, p, n, he, _, hn, h, ha⟩ => ⟨.inr he, k, p, n, ha.accepted, hn, h⟩
  | stuck f => exact fun h => .inl h

theorem sinkFlush_txPost (s : State) : TxPost s (sinkFlush s) := by
  obtain ⟨k, h, ha, -⟩ | ⟨k, x, h, ha, -⟩ | h := sinkFlush_cases s <;> rw [h]
  · exact ⟨[], k, s.tx, by apply State.eq_of_components <;> simp, by simp [ha], by simp, rfl, rfl, rfl⟩
  · exact ⟨.inr rfl, k, [], 0, by simp [ha], le_rfl, by simp⟩
  · exact .inr (.inl rfl)

theorem txPrologue_txPost (s : State) : TxPost s (txPrologue s) := by
  unfold txPrologue
  split_ifs
  · exact ⟨[], .refl s⟩
  · exact (sinkPut_txPost magic s).bind fun s1 b _ _ => ⟨[], (TxMoved.refl s1).setTx rfl rfl rfl rfl⟩

theorem txBlock_txPost (orig : Bytes) (s : State) : TxPost s (txBlock orig s) := by
  unfold txBlock
  split
  · refine ⟨.inl rfl, s.sink, [], 0, by simp, le_rfl, ?_⟩
    rw [raiseError_tx_fatal _ (by simp) (by simp)]
    simp
  · exact (txPrologue_txPost s).bind fun s1 _ _ _ => (sinkPut_txPost _ s1).bind fun s2 _ _ _ => sinkPut_txPost _ s2

theorem txMarker_txPost (s : State) : TxPost s (txMarker s) :=
  (txPrologue_txPost s).bind fun s1 _ _ _ => sinkPut_txPost _ s1

theorem txEmitPending_txPost (s : State) : TxPost s (txEmitPending s) := by
  unfold txEmitPending
  split_ifs
  · exact ⟨[], .refl s⟩
  · exact (txBlock_txPost _ s).bind fun s1 _ _ _ => ⟨[], (TxMoved.refl s1).setTx rfl rfl rfl rfl⟩

theorem txAppend_txPost (slice : Bytes) (s : State) : TxPost s (txAppend slice s) := by
  have h0 : TxMoved s (s.setTx (s.tx.withAbuf (memWrite s.tx.abuf s.tx.abuf.length slice))) [] :=
    (TxMoved.refl s).setTx rfl rfl rfl rfl
  unfold txAppend
  simp only
  split_ifs
  · have h1 := (txBlock_txPost (memWrite s.tx.abuf s.tx.abuf.length slice)
      (s.setTx (s.tx.withAbuf (memWrite s.tx.abuf s.tx.abuf.length slice)))).bind
        (f := fun _ s2 => .ok () (s2.setTx (s2.tx.withAbuf [])))
        fun s2 _ _ _ => ⟨[], (TxMoved.refl s2).setTx rfl rfl rfl rfl⟩
    revert h1
    generalize Res.bind _ _ = r
    cases r with
    | ok u s2 => exact fun ⟨c, h⟩ => ⟨_, h0.trans h⟩
    | raised e s2 => exact fun h => h0.then_failed h
    | stuck x => exact id
  · exact ⟨[], h0⟩

theorem txWriteLoop_txPost (fuel : Nat) (rem : Bytes) (s : State) : TxPost s (txWriteLoop fuel rem s) := by
  induction fuel generalizing rem s with
  | zero =>
    unfold txWriteLoop
    split_ifs
    · exact ⟨[], .refl s⟩
    · exact .inr (.inr rfl)
  | succ fuel ih =>
    unfold txWriteLoop
    split_ifs
    · exact ⟨[], .refl s⟩
    · exact (txAppend_txPost _ s).bind fun s1 _ _ _ => ih _ s1

theorem Tx.moved_prologuePut (x : Tx) (n : Nat) : x.prologuePut.moved n = (x.moved n).prologuePut := rfl

/-! ### Into a sink that accepts -/

/-- MAGIC is put once (R145). -/
theorem txPrologue_of_cooperates (s : State) (hs : s.sink.cooperates) :
    ∃ k : Sink, txPrologue s =
        .ok () ((s.setSink k).setTx ((s.tx.moved (prologueDue s.tx).length).prologuePut)) ∧
      s.sink.Appended k (prologueDue s.tx) ∧ k.cooperates := by
  unfold txPrologue
  split_ifs with hd
  · refine ⟨s.sink, ?_, by simp [prologueDue, hd, Sink.Appended.refl], hs⟩
    have : (s.tx.moved (prologueDue s.tx).length).prologuePut = s.tx := by
      cases hx : s.tx; simp_all [prologueDue, Tx.prologuePut]
    rw [this]; simp
  · obtain ⟨k, h, ha, hc⟩ := sinkPut_of_cooperates magic s hs
    refine ⟨k, ?_, by simpa [prologueDue, hd] using ha, hc⟩
    rw [h, Res.bind_ok]
    simp [prologueDue, hd]

/-- The marker, with MAGIC before it if it is still due (R147). -/
theorem txMarker_of_cooperates (s : State) (hs : s.sink.cooperates) :
    ∃ k : Sink, txMarker s = .ok () ((s.setSink k).setTx
        ((s.tx.moved (prologueDue s.tx ++ markerBytes s.tx.sc).length).prologuePut)) ∧
      s.sink.Appended k (prologueDue s.tx ++ markerBytes s.tx.sc) ∧ k.cooperates := by
  obtain ⟨k1, h1, ha1, hc1⟩ := txPrologue_of_cooperates s hs
  obtain ⟨k2, h2, ha2, hc2⟩ := sinkPut_of_cooperates (markerBytes s.tx.sc)
    ((s.setSink k1).setTx ((s.tx.moved (prologueDue s.tx).length).prologuePut)) (by simpa using hc1)
  refine ⟨k2, ?_, ha1.trans (by simpa using ha2), hc2⟩
  rw [txMarker, h1, Res.bind_ok, h2]
  congr 1
  apply State.eq_of_components <;> simp [Tx.moved_prologuePut]

/-- TX.BLOCK when the backend answers: MAGIC if it is still due, the header, the payload (R146). -/
theorem txBlock_of_cooperates {orig c : Bytes} (s : State) (hs : s.sink.cooperates)
    (hcomp : Config.compress orig = .bytes c) :
    ∃ k : Sink, txBlock orig s = .ok () ((s.setSink k).setTx
        ((s.tx.moved (prologueDue s.tx ++ recordBytes s.tx.sc orig c).length).prologuePut)) ∧
      s.sink.Appended k (prologueDue s.tx ++ recordBytes s.tx.sc orig c) ∧ k.cooperates := by
  obtain ⟨k1, h1, ha1, hc1⟩ := txPrologue_of_cooperates s hs
  obtain ⟨k2, h2, ha2, hc2⟩ := sinkPut_of_cooperates
    (blockHeader s.tx.sc (selectMethod orig c).1 (selectMethod orig c).2 orig)
    ((s.setSink k1).setTx ((s.tx.moved (prologueDue s.tx).length).prologuePut)) (by simpa using hc1)
  obtain ⟨k3, h3, ha3, hc3⟩ := sinkPut_of_cooperates (selectMethod orig c).2 _
    (show State.sink (State.setTx (State.setSink _ k2) _) |>.cooperates from hc2)
  refine ⟨k3, ?_, ?_, hc3⟩
  · simp only [txBlock, hcomp]
    rw [h1, Res.bind_ok, h2, Res.bind_ok, h3]
    congr 1
    apply State.eq_of_components <;> simp [Tx.moved_prologuePut, recordBytes, Nat.add_assoc]
  · exact ha1.trans ((show k1.Appended k2 _ by simpa using ha2).trans (by simpa using ha3))

/-- TX.BLOCK when the backend fails: BackendError before any request to the sink (R146, R210). -/
theorem txBlock_of_backendError {orig : Bytes} {e : Config.BackendError} (s : State)
    (hcomp : Config.compress orig = .error e) :
    txBlock orig s = .raised ⟨.backend, some (.backendError e)⟩
      ((s.setTx (s.tx.failedWith s.freeCount)).setFreeCount (s.freeCount + 1)) := by
  simp only [txBlock, hcomp, raising]
  rw [raiseError_tx_fatal _ (by simp) (by simp)]

/-! ### A run that went on, whatever the sink -/

/-- A SinkPut that went on put everything. -/
theorem sinkPut_ok {b : Bytes} {s s' : State} (h : sinkPut b s = .ok () s') :
    ∃ k : Sink, s' = (s.setSink k).setTx (s.tx.moved b.length) ∧ s.sink.Appended k b := by
  have hp := sinkPut_post b s
  rw [h] at hp
  exact hp

/-- A TX.PROLOGUE that went on put exactly MAGIC if it was due (R145). -/
theorem txPrologue_ok {s s' : State} (h : txPrologue s = .ok () s') :
    ∃ k : Sink, s' = (s.setSink k).setTx ((s.tx.moved (prologueDue s.tx).length).prologuePut) ∧
      s.sink.Appended k (prologueDue s.tx) := by
  unfold txPrologue at h
  split_ifs at h with hd
  · cases h
    refine ⟨s.sink, ?_, by simp [prologueDue, hd, Sink.Appended.refl]⟩
    have : (s.tx.moved (prologueDue s.tx).length).prologuePut = s.tx := by
      cases hx : s.tx; simp_all [prologueDue, Tx.prologuePut]
    rw [this]; simp
  · obtain ⟨_, s1, h1, h2⟩ := Res.bind_eq_ok h
    obtain ⟨k, rfl, ha⟩ := sinkPut_ok h1
    cases h2
    exact ⟨k, by simp [prologueDue, hd], by simpa [prologueDue, hd] using ha⟩

/-- A TX.MARKER that went on put exactly MAGIC if it was due and the marker (R147). -/
theorem txMarker_ok {s s' : State} (h : txMarker s = .ok () s') :
    ∃ k : Sink, s' = (s.setSink k).setTx ((s.tx.moved (prologueDue s.tx ++ markerBytes s.tx.sc).length).prologuePut) ∧
      s.sink.Appended k (prologueDue s.tx ++ markerBytes s.tx.sc) := by
  obtain ⟨_, s1, h1, h2⟩ := Res.bind_eq_ok h
  obtain ⟨k1, rfl, ha1⟩ := txPrologue_ok h1
  obtain ⟨k2, rfl, ha2⟩ := sinkPut_ok h2
  refine ⟨k2, ?_, ha1.trans (by simpa using ha2)⟩
  apply State.eq_of_components <;> simp [Tx.moved_prologuePut]

/-- A TX.BLOCK that went on put exactly MAGIC if it was due and the block's record (R146). -/
theorem txBlock_ok {orig : Bytes} {s s' : State} (h : txBlock orig s = .ok () s') :
    ∃ (c : Bytes) (k : Sink), Config.compress orig = .bytes c ∧
      s' = (s.setSink k).setTx ((s.tx.moved (prologueDue s.tx ++ recordBytes s.tx.sc orig c).length).prologuePut) ∧
      s.sink.Appended k (prologueDue s.tx ++ recordBytes s.tx.sc orig c) := by
  unfold txBlock at h
  split at h
  · cases h
  · rename_i c hc
    obtain ⟨_, s1, h1, h⟩ := Res.bind_eq_ok h
    obtain ⟨_, s2, h2, h3⟩ := Res.bind_eq_ok h
    obtain ⟨k1, rfl, ha1⟩ := txPrologue_ok h1
    obtain ⟨k2, rfl, ha2⟩ := sinkPut_ok h2
    obtain ⟨k3, rfl, ha3⟩ := sinkPut_ok h3
    refine ⟨c, k3, hc, ?_, ?_⟩
    · apply State.eq_of_components <;> simp [Tx.moved_prologuePut, recordBytes, Nat.add_assoc]
    · exact ha1.trans ((show k1.Appended k2 _ by simpa using ha2).trans (by simpa using ha3))

/-- A slice that fits leaves the buffer below its capacity (R23, R141). -/
theorem txAppend_ok {slice : Bytes} {s s' : State} (h : txAppend slice s = .ok () s')
    (hle : s.tx.abuf.length + slice.length ≤ s.tx.blockSize) (hb : 0 < s.tx.blockSize) :
    s'.tx.abuf.length < s'.tx.blockSize := by
  unfold txAppend at h
  simp only [memWrite_end] at h
  split_ifs at h with hc
  · obtain ⟨_, s2, h3, h4⟩ := Res.bind_eq_ok h
    obtain ⟨c, k, -, rfl, -⟩ := txBlock_ok h3
    cases h4
    simpa using hb
  · cases h
    rw [List.length_append] at hc
    simp; omega

/-- So does the whole of TX.WRITE. -/
theorem txWriteLoop_ok {fuel : Nat} {rem : Bytes} {s s' : State} (h : txWriteLoop fuel rem s = .ok () s')
    (hb : s.tx.abuf.length < s.tx.blockSize) : s'.tx.abuf.length < s'.tx.blockSize := by
  induction fuel generalizing rem s with
  | zero =>
    unfold txWriteLoop at h
    split_ifs at h
    cases h; exact hb
  | succ fuel ih =>
    unfold txWriteLoop at h
    split_ifs at h
    · cases h; exact hb
    · obtain ⟨_, s1, h1, h2⟩ := Res.bind_eq_ok h
      exact ih h2 (txAppend_ok h1 (by simp; omega) (by omega))

/-- An emitted remainder leaves the buffer empty (R142, R143). -/
theorem txEmitPending_ok {s s' : State} (h : txEmitPending s = .ok () s') :
    s'.tx.abuf = [] ∧ s'.tx.state = s.tx.state ∧ s'.tx.blockSize = s.tx.blockSize ∧ s'.tx.sc = s.tx.sc := by
  unfold txEmitPending at h
  split_ifs at h with he
  · cases h; exact ⟨he, rfl, rfl, rfl⟩
  · obtain ⟨_, s1, h1, h2⟩ := Res.bind_eq_ok h
    obtain ⟨c, k, -, rfl, -⟩ := txBlock_ok h1
    cases h2
    exact ⟨rfl, rfl, rfl, rfl⟩

/-! ### What a run of TX's steps does with the sink's answers to come -/

/-- A run of TX's steps ends with `due` true of the sink, raises an error `used` tells of, or hangs as `hangs` says. -/
def SinkPost (due : Sink → Prop) (used : Raise → Sink → Prop) (hangs : Fault → Prop) : Res Unit → Prop
  | .ok _ s => due s.sink
  | .raised e s => due s.sink ∨ used e s.sink
  | .stuck f => hangs f

theorem SinkPost.bind {due : Sink → Prop} {used : Raise → Sink → Prop} {hangs : Fault → Prop} {r : Res Unit}
    {f : Unit → State → Res Unit} (hr : SinkPost due used hangs r)
    (hf : ∀ s, due s.sink → SinkPost due used hangs (f () s)) : SinkPost due used hangs (r.bind f) := by
  cases r with
  | ok a s => exact hf s hr
  | raised x s => exact hr
  | stuck x => exact hr

section
variable {due : Sink → Prop} {used : Raise → Sink → Prop} {hangs : Fault → Prop}
  (hput : ∀ (b : Bytes) (s : State), due s.sink → SinkPost due used hangs (sinkPut b s))
include hput

theorem txPrologue_sinkPost {s : State} (h : due s.sink) : SinkPost due used hangs (txPrologue s) := by
  unfold txPrologue
  split_ifs
  · exact h
  · exact (hput _ s h).bind fun _ h1 => h1

theorem txBlock_sinkPost (orig : Bytes) {s : State} (h : due s.sink) : SinkPost due used hangs (txBlock orig s) := by
  unfold txBlock
  split
  · exact .inl (by simpa [raiseError_tx_fatal] using h)
  · exact (txPrologue_sinkPost hput h).bind fun s1 h1 => (hput _ s1 h1).bind fun s2 h2 => hput _ s2 h2

theorem txMarker_sinkPost {s : State} (h : due s.sink) : SinkPost due used hangs (txMarker s) :=
  (txPrologue_sinkPost hput h).bind fun s1 h1 => hput _ s1 h1

theorem txEmitPending_sinkPost {s : State} (h : due s.sink) : SinkPost due used hangs (txEmitPending s) := by
  unfold txEmitPending
  split_ifs
  · exact h
  · exact (txBlock_sinkPost hput _ h).bind fun _ h1 => h1

theorem txAppend_sinkPost (slice : Bytes) {s : State} (h : due s.sink) : SinkPost due used hangs (txAppend slice s) := by
  unfold txAppend
  dsimp only
  split_ifs
  · refine (txBlock_sinkPost hput _ (s := s.setTx _) ?_).bind fun s1 h1 => ?_
    · exact h
    · exact h1
  · exact h

theorem txWriteLoop_sinkPost (hend : hangs .writeNeverEnds) (fuel : Nat) (rem : Bytes) {s : State} (h : due s.sink) :
    SinkPost due used hangs (txWriteLoop fuel rem s) := by
  induction fuel generalizing rem s with
  | zero =>
    unfold txWriteLoop
    split_ifs
    · exact h
    · exact hend
  | succ fuel ih =>
    unfold txWriteLoop
    split_ifs
    · exact h
    · exact (txAppend_sinkPost hput _ h).bind fun _ h1 => ih _ h1

end

/-- The sink accepts some write requests, then answers one with `bad`. -/
def Sink.answerDue (bad : SinkAnswer) (as : List SinkAnswer) (k : Sink) : Prop :=
  ∃ good : List Nat, k.answers = good.map (fun c => .count (c + 1)) ++ bad :: as

theorem Sink.answerDue_length {bad : SinkAnswer} {as : List SinkAnswer} {k : Sink} (h : k.answerDue bad as) :
    as.length < k.answers.length := by
  obtain ⟨good, h⟩ := h
  simp only [h, List.length_append, List.length_map, List.length_cons]
  omega

/-- The failing answer was used, nothing after it was, and the error raised is its (R208). -/
def Sink.errorUsed (info : ErrInfo) (as : List SinkAnswer) (e : Raise) (k : Sink) : Prop :=
  k.answers = as ∧ e = ⟨.io, some info⟩

/-- An answer that is due stays due while SinkPut uses the counts before it; `hbad` says what it does when met. -/
theorem sinkPut_answerDue {bad : SinkAnswer} {as : List SinkAnswer} {used : Raise → Sink → Prop} {hangs : Fault → Prop}
    (hbad : ∀ (fuel : Nat) (b : Bytes) (s : State), b ≠ [] → s.sink.answers = bad :: as →
      SinkPost (Sink.answerDue bad as) used hangs (sinkPutLoop (fuel + 1) b s))
    (b : Bytes) (s : State) (h : s.sink.answerDue bad as) :
    SinkPost (Sink.answerDue bad as) used hangs (sinkPut b s) := by
  have hloop (fuel : Nat) (b : Bytes) (s : State) (h : s.sink.answerDue bad as) :
      SinkPost (Sink.answerDue bad as) used hangs (sinkPutLoop fuel b s) := by
    induction fuel generalizing b s with
    | zero => exact h
    | succ fuel ih =>
      by_cases hb : b = []
      · rw [sinkPutLoop, if_pos hb]
        exact h
      · have hpos : 0 < b.length := List.length_pos_iff.mpr hb
        obtain ⟨good, hg⟩ := h
        cases good with
        | nil => exact hbad fuel b s hb hg
        | cons x good =>
          rw [sinkPutLoop, if_neg hb]
          simp only [sinkWrite, hg, List.map_cons, List.cons_append, List.headD_cons]
          rw [show min (x + 1) b.length = min (x + 1) b.length - 1 + 1 by omega]
          exact ih _ _ ⟨good, by simp [Sink.written, hg]⟩
  exact hloop _ b s h

/-- A failing answer that is due stays due until a SinkPut uses it, and is then what it raises (R208). -/
theorem sinkPut_errorDue {bad : SinkAnswer} {info : ErrInfo} {as : List SinkAnswer} (hbad : bad.failsWith info)
    (b : Bytes) (s : State) (h : s.sink.answerDue bad as) :
    SinkPost (Sink.answerDue bad as) (Sink.errorUsed info as) (· = .sinkNeverAnswers) (sinkPut b s) :=
  sinkPut_answerDue (fun fuel b s hb hg => by
    rw [sinkPutLoop, if_neg hb]
    obtain ⟨taken, e, rfl, rfl⟩ | ⟨rfl, rfl⟩ := hbad <;>
      simp only [sinkWrite, hg, List.headD_cons, Nat.zero_min] <;>
      exact .inr ⟨by simp [raiseError_tx_fatal, Sink.written, hg], rfl⟩) b s h

/-- A SinkPut that meets an answer that never comes goes no further (R244). -/
theorem sinkPut_neverDue {as : List SinkAnswer} (b : Bytes) (s : State) (h : s.sink.answerDue .never as) :
    SinkPost (Sink.answerDue .never as) (fun _ _ => False) (· = .sinkNeverAnswers) (sinkPut b s) :=
  sinkPut_answerDue (fun fuel b s hb hg => by
    rw [sinkPutLoop, if_neg hb]
    simp only [sinkWrite, hg, List.headD_cons]
    exact rfl) b s h

/-- A sink that answers every request does not hang SinkPut (R244). -/
theorem sinkPut_answering (b : Bytes) (s : State) (h : s.sink.answering) :
    SinkPost Sink.answering (fun _ _ => False) (fun _ => False) (sinkPut b s) := by
  have hloop (fuel : Nat) (b : Bytes) (s : State) (h : s.sink.answering) :
      SinkPost Sink.answering (fun _ _ => False) (fun _ => False) (sinkPutLoop fuel b s) := by
    induction fuel generalizing b s with
    | zero => exact h
    | succ fuel ih =>
      rw [sinkPutLoop]
      split_ifs
      · exact h
      · generalize hr : sinkWrite b s = reply
        obtain ⟨r, s1⟩ := reply
        obtain ⟨k, n, rfl, -, -, -, -, hfa, hans, -, -⟩ := sinkWrite_spec hr
        have h1 : k.answering :=
          ⟨fun ha => h.1 (List.mem_of_mem_tail (hans ▸ ha)), fun ha => h.2 (hfa ▸ ha)⟩
        cases r with
        | count c =>
          cases c with
          | zero => exact .inl (by simpa [raiseError_tx_fatal] using h1)
          | succ c => exact ih _ _ h1
        | ioError e => exact .inl (by simpa [raiseError_tx_fatal] using h1)
        | never =>
          unfold sinkWrite at hr
          split at hr
          · simp at hr
          · simp at hr
          · rename_i heq
            refine h.1 ?_
            cases ha : s.sink.answers with
            | nil => simp [ha] at heq
            | cons a as => simp [ha] at heq; simp [heq]
  exact hloop _ b s h

/-- A sink that answers every request does not hang SinkFlush (R244). -/
theorem sinkFlush_answering (s : State) (h : s.sink.answering) :
    SinkPost Sink.answering (fun _ _ => False) (fun _ => False) (sinkFlush s) := by
  have h1 (n : Nat) : (s.sink.flushAsked n).answering := ⟨h.1, fun ha => h.2 (List.mem_of_mem_tail ha)⟩
  unfold sinkFlush
  split
  · exact h1 _
  · exact .inl (by simpa [raiseError_tx_fatal] using h1 _)
  · rename_i heq
    refine h.2 ?_
    cases ha : s.sink.flushAnswers with
    | nil => simp [ha] at heq
    | cons a as => simp [ha] at heq; simp [heq]

/-- A SinkPut makes no flush request. -/
theorem sinkPut_flushAnswers (l : List FlushAnswer) (b : Bytes) (s : State) (h : s.sink.flushAnswers = l) :
    SinkPost (fun k => k.flushAnswers = l) (fun _ _ => False) (· = .sinkNeverAnswers) (sinkPut b s) := by
  have hp := sinkPut_post b s
  revert hp
  cases sinkPut b s with
  | ok a s1 => rintro ⟨k, rfl, ha⟩; exact ha.flushAnswers.trans h
  | raised e s1 => rintro ⟨k, p, n, -, -, -, rfl, ha⟩; exact .inl (ha.flushAnswers.trans h)
  | stuck f => exact id

/-- The loop of TX.WRITE ends: while the buffer is below its capacity every round takes at least one byte (R23, R141). -/
theorem txWriteLoop_ends {fuel : Nat} {rem : Bytes} {s : State} (hf : rem.length ≤ fuel)
    (hb : s.tx.abuf.length < s.tx.blockSize) : txWriteLoop fuel rem s ≠ .stuck .writeNeverEnds := by
  induction fuel generalizing rem s with
  | zero =>
    obtain rfl : rem = [] := List.length_eq_zero_iff.mp (by omega)
    simp [txWriteLoop]
  | succ fuel ih =>
    unfold txWriteLoop
    split_ifs with hr
    · simp
    · have hpos : 0 < rem.length := List.length_pos_iff.mpr hr
      have hput (b : Bytes) (s : State) (_ : True) :
          SinkPost (fun _ => True) (fun _ _ => True) (· ≠ .writeNeverEnds) (sinkPut b s) := by
        have hp := sinkPut_post b s
        revert hp
        cases sinkPut b s with
        | ok a s1 => exact fun _ => trivial
        | raised e s1 => exact fun _ => .inl trivial
        | stuck f => rintro rfl; exact nofun
      have happ := txAppend_sinkPost (due := fun _ => True) hput (rem.take (min rem.length (s.tx.blockSize - s.tx.abuf.length)))
        (s := s) trivial
      dsimp only
      generalize ha : txAppend (rem.take (min rem.length (s.tx.blockSize - s.tx.abuf.length))) s = r at happ
      cases r with
      | ok a s1 =>
        exact ih (by simp; omega) (txAppend_ok ha (by simp; omega) (by omega))
      | raised e s1 => simp
      | stuck f =>
        simpa [SinkPost] using happ

/-! ### What TX's steps do not touch -/

/-- A part of the state TX's steps neither read nor write. -/
structure TxIgnores (g : State → State) : Prop where
  tx : ∀ s, (g s).tx = s.tx
  sink : ∀ s, (g s).sink = s.sink
  freeCount : ∀ s, (g s).freeCount = s.freeCount
  setTx : ∀ s x, (g s).setTx x = g (s.setTx x)
  setSink : ∀ s x, (g s).setSink x = g (s.setSink x)
  setFreeCount : ∀ s x, (g s).setFreeCount x = g (s.setFreeCount x)

theorem txIgnores_setTxRsp (r : Option Response) : TxIgnores (·.setTxRsp r) :=
  ⟨fun _ => rfl, fun _ => rfl, fun _ => rfl, fun _ _ => rfl, fun _ _ => rfl, fun _ _ => rfl⟩

theorem txIgnores_setOpResult (r : OpResult) : TxIgnores (·.setOpResult r) :=
  ⟨fun _ => rfl, fun _ => rfl, fun _ => rfl, fun _ _ => rfl, fun _ _ => rfl, fun _ _ => rfl⟩

variable {g : State → State}

theorem TxIgnores.raising {α : Type} (hg : TxIgnores g) (k : ErrKind) (info : Option ErrInfo) (s : State) :
    (raising .tx k info (g s) : Res α) = (Machine.raising .tx k info s).mapState g := by
  simp only [Machine.raising, raiseError, Res.mapState_raised]
  split_ifs
  · rfl
  · rw [hg.tx, hg.freeCount, hg.setTx, hg.setFreeCount]

theorem TxIgnores.sinkWrite (hg : TxIgnores g) (b : Bytes) (s : State) :
    sinkWrite b (g s) = ((Machine.sinkWrite b s).1, g (Machine.sinkWrite b s).2) := by
  unfold Machine.sinkWrite
  rw [hg.sink]
  cases s.sink.answers.headD (.count b.length) <;> simp [hg.setSink]

theorem TxIgnores.sinkPutLoop (hg : TxIgnores g) (fuel : Nat) (b : Bytes) (s : State) :
    sinkPutLoop fuel b (g s) = (Machine.sinkPutLoop fuel b s).mapState g := by
  induction fuel generalizing b s with
  | zero => rfl
  | succ fuel ih =>
    unfold Machine.sinkPutLoop
    rw [hg.sinkWrite]
    split_ifs
    · rfl
    · cases h : Machine.sinkWrite b s with
      | mk r s' =>
        cases r with
        | count c =>
          cases c with
          | zero => exact hg.raising _ _ _
          | succ c =>
            simp only [hg.tx, hg.setTx]
            exact ih _ _
        | ioError e => exact hg.raising _ _ _
        | never => rfl

theorem TxIgnores.sinkPut (hg : TxIgnores g) (b : Bytes) (s : State) :
    sinkPut b (g s) = (Machine.sinkPut b s).mapState g := hg.sinkPutLoop _ _ _

theorem TxIgnores.txPrologue (hg : TxIgnores g) (s : State) :
    txPrologue (g s) = (Machine.txPrologue s).mapState g := by
  unfold Machine.txPrologue
  rw [hg.tx]
  split_ifs
  · rfl
  · rw [hg.sinkPut]
    exact Res.mapState_bind _ _ _ _ fun _ s1 => by simp [hg.tx, hg.setTx]

theorem TxIgnores.txBlock (hg : TxIgnores g) (orig : Bytes) (s : State) :
    txBlock orig (g s) = (Machine.txBlock orig s).mapState g := by
  unfold Machine.txBlock
  cases Config.compress orig with
  | error e => exact hg.raising _ _ _
  | bytes c =>
    simp only [hg.txPrologue, hg.tx]
    exact Res.mapState_bind _ _ _ _ fun _ s1 => by
      rw [hg.sinkPut]
      exact Res.mapState_bind _ _ _ _ fun _ s2 => hg.sinkPut _ s2

theorem TxIgnores.txAppend (hg : TxIgnores g) (slice : Bytes) (s : State) :
    txAppend slice (g s) = (Machine.txAppend slice s).mapState g := by
  unfold Machine.txAppend
  simp only [hg.tx, hg.setTx]
  split_ifs
  · rw [hg.txBlock]
    exact Res.mapState_bind _ _ _ _ fun _ s1 => by simp [hg.tx, hg.setTx]
  · rfl

theorem TxIgnores.txWriteLoop (hg : TxIgnores g) (fuel : Nat) (rem : Bytes) (s : State) :
    txWriteLoop fuel rem (g s) = (Machine.txWriteLoop fuel rem s).mapState g := by
  induction fuel generalizing rem s with
  | zero => unfold Machine.txWriteLoop; split_ifs <;> rfl
  | succ fuel ih =>
    unfold Machine.txWriteLoop
    split_ifs
    · rfl
    · simp only [hg.tx, hg.txAppend]
      exact Res.mapState_bind _ _ _ _ fun _ s1 => ih _ s1

end Sys2Proof.Machine
end

