-- ==== Sys2Proof/Laws/Memory.lean ====
section
/-! SUPPORT. The form of the block buffers (R56): every operation on them keeps it, the invariants of R23 give it, and the
state after reset has it. -/

namespace Sys2Proof.Machine

theorem Memory.wf_iff (s : State) : Memory.wf s = true ↔ s.tx.abuf.length ≤ Config.maxBlockSize ∧
    s.rx.dbuf.length ≤ Config.maxBlockSize ∧ s.rx.dcur ≤ s.rx.dbuf.length := by
  simp [Memory.wf, and_assoc]

theorem Memory.wf_reset : Memory.wf State.reset = true := by decide

/-- RX's invariant as a proposition. -/
theorem Rx.inv_iff (x : Rx) : x.inv = true ↔ (x.state = .decodingBlock ↔ x.dcur < x.dbuf.length) ∧
    (x.state ≠ .decodingBlock → x.dbuf = [] ∧ x.dcur = 0) ∧ (x.err ≠ none ↔ x.state = .failed) ∧
    x.dbuf.length ≤ Config.maxBlockSize := by
  simp only [Rx.inv, Bool.and_eq_true, decide_eq_true_eq, and_assoc]

/-- TX's invariant in Ready. -/
theorem Tx.inv_ready {x : Tx} (h : x.state = .ready) : x.inv = true ↔
    legalBlockSize x.blockSize = true ∧ x.sc = scOf x.blockSize ∧ x.abuf.length < x.blockSize := by
  simp [Tx.inv, h, and_assoc]

/-- The invariants of R23 bound the buffers. -/
theorem Memory.wf_of_inv {s : State} (h : s.inv = true) : Memory.wf s = true := by
  simp only [State.inv, Bool.and_eq_true, Rx.inv_iff] at h
  obtain ⟨ht, a, b, -, d⟩ := h
  refine (Memory.wf_iff s).mpr ⟨?_, d, ?_⟩
  · unfold Tx.inv at ht
    cases hst : s.tx.state <;> rw [hst] at ht <;> simp at ht
    · simp [ht]
    · have := (blockSize_le_sizeClass ht.1.1).2; omega
    · simp [ht]
    · have := (blockSize_le_sizeClass ht.1.1).2; omega
  · by_cases hd : s.rx.state = .decodingBlock
    · exact Nat.le_of_lt (a.mp hd)
    · simp [b hd]

/-- Appending a slice that fits, and emptying the buffer once it is full (R141). -/
theorem Memory.wf_txAppend {slice : Bytes} {s s' : State} (h : txAppend slice s = .ok () s')
    (hle : s.tx.abuf.length + slice.length ≤ s.tx.blockSize) (hb : 0 < s.tx.blockSize)
    (hm : s.tx.blockSize ≤ Config.maxBlockSize) (hw : Memory.wf s = true) : Memory.wf s' = true := by
  have h1 := txAppend_ok h hle hb
  have h2 := txAppend_txPost slice s
  rw [h] at h2
  obtain ⟨b, k, x, rfl, -, -, -, hbs, -⟩ := h2
  simp only [State.setTx_tx] at h1
  simp only [Memory.wf_iff, State.setTx_tx, State.setTx_rx, State.setSink_rx] at hw ⊢
  exact ⟨by omega, hw.2⟩

/-- Emptying the buffer after a short block (R142, R143). -/
theorem Memory.wf_txEmitPending {s s' : State} (h : txEmitPending s = .ok () s') (hw : Memory.wf s = true) :
    Memory.wf s' = true := by
  have h1 := (txEmitPending_ok h).1
  have h2 := txEmitPending_txPost s
  rw [h] at h2
  obtain ⟨b, k, x, rfl, -⟩ := h2
  simp only [State.setTx_tx] at h1
  simp only [Memory.wf_iff, State.setTx_tx, State.setTx_rx, State.setSink_rx, h1] at hw ⊢
  exact ⟨by simp, hw.2⟩

/-- Error entry of either framer (R206, R207). -/
theorem Memory.wf_raiseError {u : Framer} {e : Raise} {s : State} (hm : s.tx.blockSize ≤ Config.maxBlockSize)
    (hw : Memory.wf s = true) : Memory.wf (raiseError u e s) = true := by
  rw [Memory.wf_iff] at hw
  cases u with
  | rx => simp [Memory.wf_iff, hw]
  | tx =>
    unfold raiseError
    simp only
    split_ifs
    · simp [Memory.wf_iff, hw]
    · simp only [Memory.wf_iff, State.setFreeCount_tx, State.setFreeCount_rx, State.setTx_tx, State.setTx_rx]
      refine ⟨?_, hw.2⟩
      simp only [Tx.failedWith, List.length_take]
      omega

/-- Loading a verified block (R179). -/
theorem Memory.wf_rxLoad {orig : Bytes} {csum : U32} {s s' : State} (h : rxLoad orig csum s = .ok () s')
    (ho : orig.length ≤ Config.maxBlockSize) (hw : Memory.wf s = true) : Memory.wf s' = true := by
  unfold rxLoad at h
  split at h
  · cases h
  · cases h
    simp only [Memory.wf_iff, State.setRx_tx, State.setRx_rx] at hw ⊢
    exact ⟨hw.1, ho, Nat.zero_le _⟩

/-- Delivering bytes, and emptying a drained buffer (R170). -/
theorem Memory.wf_rxDeliver {n : Nat} {s : State} (hw : Memory.wf s = true) : Memory.wf (rxDeliver n s).2 = true := by
  rw [Memory.wf_iff] at hw
  unfold rxDeliver
  simp only
  split_ifs
  · simp [Memory.wf_iff, hw]
  · simp only [Memory.wf_iff, State.setRx_tx, State.setRx_rx]
    exact ⟨hw.1, hw.2.1, by omega⟩

/-- Reset of either framer (R230). -/
theorem Memory.wf_resetFramer {u : Framer} {s : State} (hw : Memory.wf s = true) : Memory.wf (resetFramer u s) = true := by
  rw [Memory.wf_iff] at hw
  cases u <;> simp [Memory.wf_iff, resetFramer, Tx.reset, Rx.reset, hw]

end Sys2Proof.Machine
end

