-- ==== Sys2Proof/Tests/Slice0.lean ====
section
/-! SUPPORT. The model's own tests: ill-formed terms, words written out from the spec's encodings, the vectors of
95_test_vectors.md (named by their ids), and a witness for the hypotheses of each obligation that has any. -/

namespace Sys2Proof.Tests

open Sys2Proof Sys2Proof.Machine

/-! ### Small states -/

/-- TX Ready with block size 64, `abuf` buffered; a fresh sink. -/
def ready (abuf : Bytes) : State :=
  { State.reset with
    tx := { state := .ready, blockSize := 64, sc := 0, abuf := abuf, prologueDone := false, pos := 0 } }

/-- TX Ready, and a sink with these answers to come. -/
def readySink (abuf : Bytes) (w : List SinkAnswer) (f : List FlushAnswer) : State :=
  (ready abuf).setSink { Sink.fresh with answers := w, flushAnswers := f }

/-- TX in state `x`, otherwise as `ready []`. -/
def txIn (x : TxState) : State := (ready []).setTx { (ready []).tx with state := x }

/-- RX in state `x`, and a source that holds `rest`. -/
def rxIn (x : RxState) (rest : Bytes) : State :=
  { State.reset with rx := { Rx.reset with state := x }, source := { Source.fresh with rest := rest } }

/-- What `f` shows of a next state. -/
def seen {α : Type} (f : State → α) (o : Host.Outcome State Fault Refusal) : Option α :=
  match o with
  | .next s => some (f s)
  | .fault _ => none
  | .refused _ => none

/-- RX's answer, state and position. -/
def rxView (s : State) : Option Response × RxState × Nat := (s.rxRsp, s.rx.state, s.rx.pos)

/-- The answer of an operation. -/
def answer (i : Instr) : Option OpResult := seen (·.opResult) (exec i State.reset)

/-- The header and the payload of the source's example S1. -/
def s1Record : Bytes := [0x10, 3, 0, 0, 0, 3, 0, 0, 0, 0x52, 0xE4, 0x77, 0x06, 0x2E, 0x2E, 0x2E]

/-- The source's example S1: MAGIC and one RAW block. -/
def s1 : Bytes := [0x4C, 0x5A, 0x34, 0x42, 0x6C, 0x6F, 0x63, 0x6B] ++ s1Record

/-! ### Ill-formed terms are refused, one for each check of WellFormed -/

theorem test_illformed_blkRaw_empty : WellFormed (.blkRaw 0 0 0) = false := by decide
theorem test_illformed_blkRaw_tooLong : WellFormed (.blkRaw 15 33554433 1) = false := by decide
theorem test_illformed_blkRaw_sizeClass : WellFormed (.blkRaw 0 1025 1) = false := by decide
theorem test_wellformed_blkRaw_sizeClass : WellFormed (.blkRaw 0 1024 1) = true := by decide
theorem test_illformed_blkLz4_notShorter : WellFormed (.blkLz4 0 3 3 1) = false := by decide
theorem test_illformed_blkLz4_sizeClass : WellFormed (.blkLz4 0 3 1025 1) = false := by decide
theorem test_illformed_blkLz4_tooLong : WellFormed (.blkLz4 15 3 33554433 1) = false := by decide
theorem test_illformed_rxRead : WellFormed (.rxRead 0) = false := by decide
theorem test_illformed_le32Dec : WellFormed (.le32Dec [1, 2, 3]) = false := by decide
theorem test_illformed_scOf_notPower : WellFormed (.scOf 96) = false := by decide
theorem test_illformed_scOf_range : WellFormed (.scOf 32) = false ∧ WellFormed (.scOf 67108864) = false := by decide
theorem test_illformed_hdrUnpack : WellFormed (.hdrUnpack (List.replicate 12 0)) = false := by decide
theorem test_illformed_txBlock_empty : WellFormed (.txBlock []) = false := by decide
theorem test_illformed_txBlock_tooLong (b : Bytes) (h : b.length = 33554433) : WellFormed (.txBlock b) = false := by
  simp [WellFormed, h, Config.maxBlockSize]
theorem test_illformed_rxPayload_raw : WellFormed (.rxPayload .raw 3 4 1) = false := by decide
theorem test_illformed_rxPayload_lz4 : WellFormed (.rxPayload .lz4 4 4 1) = false := by decide
theorem test_illformed_rxPayload_empty : WellFormed (.rxPayload .raw 0 0 1) = false := by decide

/-! ### Words written out from R81, R82, R85, R88 -/

theorem test_decode_prologue :
    decode (.wireStart [0x4C, 0x5A, 0x34, 0x42, 0x6C, 0x6F, 0x63, 0x6B]) = .ok .prologue := by decide
theorem test_decode_prologue_badMagic :
    decode (.wireStart [0x4C, 0x5A, 0x34, 0x42, 0x6C, 0x6F, 0x63, 0x6A]) = .error .badMagic := by decide
theorem test_decode_prologue_short : decode (.wireStart [0x4C, 0x5A]) = .error .prologueLength := by decide
/-- V-H3. -/
theorem test_decode_end : decode (.wireRecord [0x1F, 0, 0, 0, 0, 0, 0, 0, 0, 0, 0, 0, 0]) = .ok (.endMarker 15) := by
  decide
/-- V-C21. -/
theorem test_decode_blkRaw :
    decode (.wireRecord [0x10, 3, 0, 0, 0, 3, 0, 0, 0, 0x52, 0xE4, 0x77, 0x06]) = .ok (.blkRaw 0 3 0x0677E452) := by
  decide
/-- V-C22. -/
theorem test_decode_blkLz4 :
    decode (.wireRecord [0x26, 0x0E, 0, 0, 0, 0, 4, 0, 0, 0xFB, 0x16, 0xF0, 0x09]) =
      .ok (.blkLz4 6 14 1024 0x09F016FB) := by decide
/-- V-H9. -/
theorem test_decode_badMethod :
    decode (.wireRecord [0x30, 3, 0, 0, 0, 3, 0, 0, 0, 1, 0, 0, 0]) = .error (.malformed .badMethod) := by decide
theorem test_decode_headerLength : decode (.wireRecord [0x10, 0, 0]) = .error .headerLength := by decide
theorem test_decode_txConfig : decode (.tx ⟨0b00, 64, []⟩) = .ok (.txConfig 64) := by decide
theorem test_decode_txWrite : decode (.tx ⟨0b01, 0, [0x2E, 0x2E, 0x2E]⟩) = .ok (.txWrite [0x2E, 0x2E, 0x2E]) := by decide
theorem test_decode_txFlush : decode (.tx ⟨0b10, 0, []⟩) = .ok .txFlush := by decide
theorem test_decode_txFinish : decode (.tx ⟨0b11, 0, []⟩) = .ok .txFinish := by decide
theorem test_decode_rxRead : decode (.rx ⟨0, 100⟩) = .ok (.rxRead 100) := by decide
theorem test_decode_rxReserved : decode (.rx ⟨1, 100⟩) = .error .rxReservedOp := by decide

/-- The table's own words: PROLOGUE, END and the four TX commands; RX.READ with the port bit of log entry 5. -/
theorem test_tableWords :
    decodeTableWord 64 0x6B636F6C42345A4C = some .prologue ∧ decodeTableWord 104 0x10 = some (.endMarker 0) ∧
    decodeTableWord 8 0 = some (.txConfig 0) ∧ decodeTableWord 8 1 = some (.txWrite []) ∧
    decodeTableWord 8 2 = some .txFlush ∧ decodeTableWord 8 3 = some .txFinish ∧
    decodeTableWord 16 0x0380 = some (.rxRead 3) := by decide
/-- The words of S1's header and of V-C24, bit 0 the lowest bit of the first byte. -/
theorem test_tableWords_blocks :
    decodeTableWord 104 0x0677E452000000030000000310 = some (.blkRaw 0 3 0x0677E452) ∧
    decodeTableWord 104 0x0232FC75000000400000000B20 = some (.blkLz4 0 11 64 0x0232FC75) := by decide
/-- Placed words run at the very next step. -/
theorem test_withFetchWord :
    seen (·.rx.state) (step (State.reset.withFetchWord 64 0x6B636F6C42345A4C)) = some .terminated ∧
    seen (·.rx.state) (step (State.reset.withFetchWord 104 0x16)) = some .terminated ∧
    seen (·.txRsp) (step (State.reset.withFetchWord 40 0x4000)) = some (some .ok) ∧
    step (State.reset.withFetchWord 8 3) = .refused .txUnconfigured := by
  refine ⟨by decide, by decide, by decide, rfl⟩

/-! ### The codec and the checksum validator -/

/-- V-C3, V-C6. -/
theorem test_le32Enc : answer (.le32Enc 0x0677E452) = some (.bytes [0x52, 0xE4, 0x77, 0x06]) ∧
    answer (.le32Enc 65536) = some (.bytes [0, 0, 1, 0]) := by decide
/-- V-C9, V-C10. -/
theorem test_le32Dec : answer (.le32Dec [0, 0, 0, 0x80]) = some (.word 2147483648) ∧
    answer (.le32Dec [1, 2, 3, 4]) = some (.word 0x04030201) := by decide
/-- V-C12, V-C13. -/
theorem test_tokEnc : answer (.tokEnc .lz4 6) = some (.byte 0x26) ∧ answer (.tokEnc .raw 15) = some (.byte 0x1F) := by
  decide
/-- V-C14, V-C15. -/
theorem test_tokDec : answer (.tokDec 0x26) = some (.token 0x20 6) ∧ answer (.tokDec 0xFF) = some (.token 0xF0 15) := by
  decide
/-- V-C17 to V-C20, the corners. -/
theorem test_scOf : answer (.scOf 64) = some (.sizeClass 0) ∧ answer (.scOf 1024) = some (.sizeClass 0) ∧
    answer (.scOf 2048) = some (.sizeClass 1) ∧ answer (.scOf 33554432) = some (.sizeClass 15) := by decide
/-- V-C22. -/
theorem test_hdrPack : answer (.hdrPack 0x26 14 1024 0x09F016FB) =
    some (.bytes [0x26, 0x0E, 0, 0, 0, 0, 4, 0, 0, 0xFB, 0x16, 0xF0, 0x09]) := by decide
/-- V-C24. -/
theorem test_hdrUnpack : answer (.hdrUnpack [0x20, 0x0B, 0, 0, 0, 0x40, 0, 0, 0, 0x75, 0xFC, 0x32, 0x02]) =
    some (.header ⟨0x20, 11, 64, 0x0232FC75⟩) := by decide
/-- V-H4 to V-H7, V-H11, V-H13, V-H14: the reasons. -/
theorem test_hdrClassify_malformed :
    answer (.hdrClassify 0x20 0 0 0) = some (.verdict (.malformed .lz4Length)) ∧
    answer (.hdrClassify 0x10 0 0 1) = some (.verdict (.malformed .emptyBlock)) ∧
    answer (.hdrClassify 0x10 4 3 1) = some (.verdict (.malformed .rawLength)) ∧
    answer (.hdrClassify 0x20 3 3 1) = some (.verdict (.malformed .lz4Length)) ∧
    answer (.hdrClassify 0x10 1025 1025 1) = some (.verdict (.malformed .sizeClass)) ∧
    answer (.hdrClassify 0x1F 33554433 33554433 1) = some (.verdict (.malformed .originalTooLarge)) ∧
    answer (.hdrClassify 0x10 2147483648 2147483648 1) = some (.verdict (.malformed .originalTooLarge)) := by decide
/-- V-H3, V-H8, V-H12, V-H16, V-H17: the legal corners. -/
theorem test_hdrClassify_legal :
    answer (.hdrClassify 0x1F 0 0 0) = some (.verdict .marker) ∧
    answer (.hdrClassify 0x20 0 5 1) = some (.verdict (.data .lz4 0 5 1)) ∧
    answer (.hdrClassify 0x1F 33554432 33554432 1) = some (.verdict (.data .raw 33554432 33554432 1)) ∧
    answer (.hdrClassify 0x2F 33554431 33554432 1) = some (.verdict (.data .lz4 33554431 33554432 1)) ∧
    answer (.hdrClassify 0x10 1 1 0) = some (.verdict (.data .raw 1 1 0)) := by decide
/-- V-K1. -/
theorem test_ckGen : answer (.ckGen [0x2E, 0x2E, 0x2E]) = some (.word 0x0677E452) := by decide
/-- V-K2, V-K4. -/
theorem test_ckVerify : answer (.ckVerify [0x2E, 0x2E, 0x2E] 0x0677E452) = some (.check .same) ∧
    answer (.ckVerify [0x2E, 0x2E, 0x2E] 0x7677E452) = some (.check .mismatch) := by decide

/-! ### The stream primitives -/

/-- R17: a source that answers two bytes, then one, then ends. -/
theorem test_srcGet : seen (fun s => (s.opResult, s.rx.pos, s.source.requests))
    (exec (.srcGet 8) { rxIn .idle [1, 2, 3] with source := ⟨[1, 2, 3], [.data 1, .data 0], [], false⟩ }) =
      some (.source (.short [1, 2, 3]), 3, [5, 6, 8]) := by decide
/-- R17: a sink that takes one byte, then the rest. -/
theorem test_sinkPut : seen (fun s => (s.opResult, s.tx.pos, s.sink.accepted))
    (exec (.sinkPut [1, 2, 3]) (readySink [] [.count 1] [])) = some (.done, 3, [1, 2, 3]) := by decide
theorem test_sinkFlush : seen (fun s => (s.opResult, s.sink.flushRequests, s.tx.state))
    (exec .sinkFlush (readySink [] [] [.ioError 7])) =
      some (.raised ⟨.io, some (.endpointError 7)⟩, 1, .failed) := by decide

/-! ### TX -/

/-- V-T1, V-T1b, V-T1c, V-T1d. -/
theorem test_txConfig_illegal :
    seen (fun s => (s.txRsp, s.tx)) (exec (.txConfig 63) State.reset) =
      some (some (.err .config (some .outOfRange)), Tx.reset) ∧
    seen (fun s => (s.txRsp, s.tx)) (exec (.txConfig 33554433) State.reset) =
      some (some (.err .config (some .outOfRange)), Tx.reset) ∧
    seen (fun s => (s.txRsp, s.tx)) (exec (.txConfig 96) State.reset) =
      some (some (.err .config (some .notPowerOfTwo)), Tx.reset) ∧
    seen (fun s => (s.txRsp, s.tx)) (exec (.txConfig 0) State.reset) =
      some (some (.err .config (some .outOfRange)), Tx.reset) := by decide
/-- V-T2, V-T6b. -/
theorem test_txConfig_legal :
    seen (·.tx) (exec (.txConfig 65536) State.reset) = some ⟨.ready, 65536, 6, [], false, 0⟩ ∧
    seen (·.tx.sc) (exec (.txConfig 33554432) State.reset) = some 15 := by decide
/-- V-T3. -/
theorem test_txWrite_empty : seen (fun s => (s.txRsp, s.tx, s.sink.used)) (exec (.txWrite []) (ready [5])) =
    some (some .ok, (ready [5]).tx, false) := by decide
/-- V-T3b. -/
theorem test_txWrite_buffers :
    seen (fun s => s.tx.abuf.length) (exec (.txWrite (List.replicate 53 1)) (ready (List.replicate 10 0))) = some 63 := by
  decide
/-- V-T7. -/
theorem test_txFlush : seen (fun s => (s.txRsp, s.tx, s.sink.accepted, s.sink.flushRequests)) (exec .txFlush (ready [])) =
    some (some .ok, (ready []).tx, [], 1) := by decide
/-- V-T6. -/
theorem test_txFinish : seen (fun s => (s.txRsp, s.tx.state, s.tx.pos, s.sink.accepted, s.sink.flushRequests))
    (exec .txFinish (ready [])) = some (some .ok, .finished, 21,
      [0x4C, 0x5A, 0x34, 0x42, 0x6C, 0x6F, 0x63, 0x6B, 0x10, 0, 0, 0, 0, 0, 0, 0, 0, 0, 0, 0, 0], 1) := by decide
/-- V-T8. -/
theorem test_txFinished : seen (fun s => (s.txRsp.map Response.status, s.tx, s.sink))
    (exec (.txWrite [0]) (txIn .finished)) = some (some 2, (txIn .finished).tx, (txIn .finished).sink) := by decide
/-- R145: eight bytes, counted. -/
theorem test_txPrologue : seen (fun s => (s.tx.prologueDone, s.tx.pos, s.sink.accepted))
    (exec .txPrologue (ready [])) = some (true, 8, [0x4C, 0x5A, 0x34, 0x42, 0x6C, 0x6F, 0x63, 0x6B]) := by decide
/-- P1: the block of three bytes, if `COMPRESS` does not shorten it. -/
theorem test_txBlock (c : Bytes) (hc : Config.compress [0x2E, 0x2E, 0x2E] = .bytes c) (hl : 3 ≤ c.length) :
    seen (·.sink.accepted) (exec (.txBlock [0x2E, 0x2E, 0x2E]) (ready [])) = some s1 := by
  obtain ⟨k, h, ha, -⟩ := txBlock_of_cooperates (ready []) (by simp [Sink.cooperates, ready, State.reset, Sink.fresh]) hc
  have hs : selectMethod [0x2E, 0x2E, 0x2E] c = (.raw, [0x2E, 0x2E, 0x2E]) := by simp [selectMethod]; omega
  have e : exec (.txBlock [0x2E, 0x2E, 0x2E]) (ready []) = opAnswer (fun _ => .done) (txBlock [0x2E, 0x2E, 0x2E] (ready [])) :=
    rfl
  rw [e, h]
  simp only [opAnswer, seen, State.setOpResult_sink, State.setTx_sink, State.setSink_sink, ha.accepted, recordBytes, hs]
  decide
/-- V-T6b: the marker carries the size class. -/
theorem test_txMarker : seen (fun s => s.sink.accepted.drop 8)
    (exec .txMarker ((ready []).setTx ⟨.ready, 33554432, 15, [], false, 0⟩)) =
      some [0x1F, 0, 0, 0, 0, 0, 0, 0, 0, 0, 0, 0, 0] := by decide

/-! ### RX -/

/-- V-R1 and V-R3's first step. -/
theorem test_rxRead : seen rxView (exec (.rxRead 3) (rxIn .uninitialized s1)) =
      some (some (.data [0x2E, 0x2E, 0x2E]), .idle, 24) ∧
    seen rxView (exec (.rxRead 2) (rxIn .uninitialized s1)) =
      some (some (.data [0x2E, 0x2E]), .decodingBlock, 24) := by decide
/-- V-R5, V-R6, V-R8, V-R10, V-R12. -/
theorem test_rxRead_errors :
    seen rxView (exec (.rxRead 1) (rxIn .uninitialized (s1.take 5))) =
      some (some (.err .format (some .shortPrologue)), .failed, 5) ∧
    seen rxView (exec (.rxRead 1) (rxIn .uninitialized (s1.set 7 0x6A))) =
      some (some (.err .format (some .badMagic)), .failed, 8) ∧
    seen rxView (exec (.rxRead 1) (rxIn .uninitialized (s1.take 15))) =
      some (some (.err .truncation (some .midHeader)), .failed, 15) ∧
    seen rxView (exec (.rxRead 1) (rxIn .uninitialized (s1.take 23))) =
      some (some (.err .truncation (some .midPayload)), .failed, 23) ∧
    seen rxView (exec (.rxRead 1) (rxIn .uninitialized
      (s1.take 8 ++ [0x10, 1, 0, 0, 2, 1, 0, 0, 2, 0, 0, 0, 0, 9]))) =
      some (some (.err .format (some (.malformed .originalTooLarge))), .failed, 21) := by decide
/-- V-K3 through RX.READ: one wrong checksum bit, a CorruptionError with no sub-reason (R200). -/
theorem test_rxRead_corruption : seen rxView (exec (.rxRead 1) (rxIn .uninitialized (s1.set 17 0x53))) =
    some (some (.err .corruption none), .failed, 24) := by decide
theorem test_rxInit : seen (fun s => (s.rx.state, s.rx.pos, s.source.rest)) (exec .rxInit (rxIn .uninitialized s1)) =
    some (.idle, 8, s1Record) := by decide
/-- P2: the record's sixteen bytes. -/
theorem test_rxRefill : seen (fun s => (s.rx.state, s.rx.dbuf, s.rx.pos)) (exec .rxRefill (rxIn .idle s1Record)) =
    some (.decodingBlock, [0x2E, 0x2E, 0x2E], 16) := by decide
/-- V-K3: one wrong checksum bit. -/
theorem test_rxPayload : seen (fun s => (s.opResult, s.rx)) (exec (.rxPayload .raw 3 3 0x0677E453)
    (rxIn .idle [0x2E, 0x2E, 0x2E])) =
      some (.raised ⟨.corruption, none⟩, ⟨.failed, [], 0, some .corruption, 3⟩) := by decide
theorem test_prologue : seen (·.rx.state) (exec .prologue (rxIn .uninitialized [])) = some .idle := by decide
/-- V-R15: what follows the marker stays. -/
theorem test_endMarker : seen (fun s => (s.rx.state, s.source.rest)) (exec (.endMarker 9) (rxIn .idle [0xDE, 0xAD])) =
    some (.terminated, [0xDE, 0xAD]) := by decide
theorem test_blkRaw : seen (fun s => (s.rx.dbuf, s.source.rest)) (exec (.blkRaw 0 3 0x0677E452)
    (rxIn .idle [0x2E, 0x2E, 0x2E, 7])) = some ([0x2E, 0x2E, 0x2E], [7]) := by decide
/-- V-R13: a backend that fails on the empty payload. -/
theorem test_blkLz4 (e : Config.BackendError) (h : Config.decompress [] 5 = .error e) :
    seen (·.opResult) (exec (.blkLz4 0 0 5 1) (rxIn .idle [])) = some (.raised ⟨.backend, some (.backendError e)⟩) := by
  have e1 : exec (.blkLz4 0 0 5 1) (rxIn .idle []) =
      opAnswer (fun _ => .done) (rxReconstruct .lz4 [] 5 1 (rxIn .idle [])) := rfl
  rw [e1]
  have h' : Config.decompress [] (5 : U32).toNat = .error e := h
  simp only [rxReconstruct, h', raising, opAnswer, seen, State.setOpResult_opResult]

/-- R30, R88: the codes. -/
theorem test_codes : TxState.finished.code = 2 ∧ RxState.failed.code = 4 ∧ errCode none = 0 ∧ errCode (some .io) = 6 ∧
    Response.endOfInput.status = 7 ∧ (Response.err .truncation none).status = 4 ∧ (Response.data []).status = 0 := by decide

/-! ### Witnesses: what the obligations assume can be met -/

/-- The sink and the source of the small states answer everything. -/
theorem witness_cooperates (abuf rest : Bytes) (x : RxState) :
    (ready abuf).sink.cooperates ∧ (rxIn x rest).source.cooperates := by
  simp [Sink.cooperates, Source.cooperates, ready, rxIn, State.reset, Sink.fresh, Source.fresh]

/-- Also with answers still to come: one byte at a time. -/
theorem witness_cooperates_slowly : (readySink [1] [.count 1, .count 2] [.ok]).sink.cooperates ∧
    Source.cooperates ⟨[1, 2], [.data 0, .data 0], [], true⟩ := by
  simp [Sink.cooperates, Source.cooperates, readySink]

/-- A backend answers one way or the other, so the two clauses of a statement about COMPRESS cover every machine. -/
theorem witness_backend (orig payload : Bytes) (n : Nat) :
    ((∃ c, Config.compress orig = .bytes c) ∨ ∃ e, Config.compress orig = .error e) ∧
    ((∃ d, Config.decompress payload n = .bytes d) ∨ ∃ e, Config.decompress payload n = .error e) := by
  constructor
  · cases Config.compress orig <;> simp
  · cases Config.decompress payload n <;> simp

/-- The parameter of R13 has one value or the other. -/
theorem witness_eofAtBoundary : Config.eofAtBoundary = .clean ∨ Config.eofAtBoundary = .truncation := by
  cases Config.eofAtBoundary <;> simp

theorem witness_Le32DecIsTheUnsignedInverse (s : State) :
    exec (.le32Enc 3) s = .next (s.setOpResult (.bytes [3, 0, 0, 0])) ∧ 2 ^ 31 ≤ (0x80000000 : U32).toNat :=
  ⟨rfl, by decide⟩

theorem witness_ScOfIsClampedLog2 : (64 : U32).toNat = 2 ^ 6 ∧ (1024 : U32).toNat = 2 ^ 10 ∧
    (33554432 : U32).toNat = 2 ^ 25 := by decide

theorem witness_HdrUnpackIsABijection (s : State) : (s1Record.take 13).length = 13 ∧
    exec (.hdrPack 0x10 3 3 0x0677E452) s = .next (s.setOpResult (.bytes (s1Record.take 13))) := ⟨by decide, rfl⟩

theorem witness_OpcodeMapSelectsTheRecord : (s1Record.take 13).length = 13 := by decide

theorem witness_DecodeOfEncodeIsTheInstruction :
    WellFormed (.blkRaw 0 3 0x0677E452) = true ∧
    encode (.blkRaw 0 3 0x0677E452) = some (.wireRecord (s1Record.take 13)) ∧
    WellFormed (.rxRead 1) = true ∧ encode (.rxRead 1) = some (.rx ⟨0, 1⟩) := by decide

theorem witness_EncodeOfDecodedRecordIsItsBytes :
    decode (.wireRecord (s1Record.take 13)) = .ok (.blkRaw 0 3 0x0677E452) := by decide

/-- With every byte there, and with a source that runs short. -/
theorem witness_SrcGetConsumesExactlyItsResult : (rxIn .idle [1]).rx.state = .idle ∧
    (rxIn .uninitialized [1]).rx.state = .uninitialized ∧ (rxIn .idle [1]).source.cooperates ∧
    1 ≤ (rxIn .idle [1]).source.rest.length ∧ ¬ 2 ≤ (rxIn .idle [1]).source.rest.length :=
  ⟨rfl, rfl, (witness_cooperates [] [1] .idle).2, by decide, by decide⟩

theorem witness_SinkPutAppendsAllBytes : (ready []).tx.state = .ready ∧ (ready []).sink.cooperates :=
  ⟨rfl, (witness_cooperates [] [] .idle).1⟩

theorem witness_SinkFlushCoversAllAccepted : (ready [1]).tx.state = .ready ∧ (ready [1]).sink.cooperates :=
  ⟨rfl, (witness_cooperates [1] [] .idle).1⟩

theorem witness_EndpointErrorsArePropagatedVerbatim :
    (let s := (rxIn .idle []).setSource ⟨[], [.ioError 4, .data 0], [], false⟩
     s.rx.state = .idle ∧ s.source.answers = .ioError 4 :: [.data 0]) ∧
    (let s := readySink [] [.ioError 2 4] []
     s.tx.state = .ready ∧ s.tx.abuf = [] ∧ s.sink.answers = .ioError 2 4 :: []) ∧
    (let s := readySink [] [.count 0] []
     s.tx.state = .ready ∧ s.tx.abuf = [] ∧ s.sink.answers = .count 0 :: []) ∧
    (let s := readySink [] [] [.ioError 4]
     s.tx.state = .ready ∧ s.tx.abuf = [] ∧ s.sink.flushAnswers = .ioError 4 :: []) := by decide

/-- The clauses about SrcGet and SinkPut: a good answer first, then the one that fails. -/
theorem witness_EndpointErrorsArePropagatedVerbatim_primitives :
    (let s := (rxIn .idle s1).setSource ⟨s1, [.data 0, .ioError 4, .data 0], [], false⟩
     s.rx.state = .idle ∧ s.source.answers = [0].map .data ++ .ioError 4 :: [.data 0] ∧
       ([0].map (· + 1)).sum < 8 ∧ ([0].map (· + 1)).sum ≤ s.source.rest.length) ∧
    ((SinkAnswer.ioError 2 4).failsWith (.endpointError 4) ∧ (SinkAnswer.count 0).failsWith .writeZero) ∧
    (let s := readySink [] [.count 2, .ioError 2 4] []
     s.tx.state = .ready ∧ s.sink.answers = [1].map (fun c => .count (c + 1)) ++ .ioError 2 4 :: [] ∧
       ([1].map (· + 1)).sum < ([5, 6, 7] : Bytes).length) :=
  ⟨by decide, ⟨.inl ⟨2, 4, rfl, rfl⟩, .inr ⟨rfl, rfl⟩⟩, by decide⟩

/-- The clauses about whatever uses up the answer: a payload fetch after a good prologue and a good header; a marker after
a good prologue; a flush. -/
theorem witness_EndpointErrorsArePropagatedVerbatim_anyPlace :
    seen (fun s => (s.source.answers, s.rxRsp)) (exec (.rxRead 3) ((rxIn .uninitialized s1).setSource
      ⟨s1, [.data 7, .data 12, .ioError 4, .data 0], [], false⟩)) =
        some ([.data 0], some (.err .io (some (.endpointError 4)))) ∧
    seen (fun s => (s.sink.answers, s.txRsp)) (exec .txFinish (readySink [] [.count 3, .count 5, .count 0, .count 1] [])) =
      some ([.count 1], some (.err .io (some .writeZero))) ∧
    seen (fun s => (s.sink.flushAnswers, s.txRsp)) (exec .txFinish (readySink [] [] [.ioError 4, .ok])) =
      some ([.ok], some (.err .io (some (.endpointError 4)))) := by decide

theorem witness_UnansweredRequestHangs :
    (let s := (rxIn .idle []).setSource ⟨[], [.never], [], false⟩
     s.rx.state = .idle ∧ s.source.answers = .never :: []) ∧
    (let s := readySink [] [.never] []
     s.tx.state = .ready ∧ s.tx.abuf = [] ∧ s.sink.answers = .never :: []) ∧
    (let s := readySink [] [] [.never]
     s.tx.state = .ready ∧ s.tx.abuf = [] ∧ s.sink.flushAnswers = .never :: []) := by decide

/-- The clauses about SrcGet and SinkPut: a good answer first, then none; and an instruction that answers before it comes
to the request that is never answered. -/
theorem witness_UnansweredRequestHangs_anyPlace :
    (let s := (rxIn .idle s1).setSource ⟨s1, [.data 0, .never, .data 0], [], false⟩
     s.source.answers = [0].map .data ++ .never :: [.data 0] ∧ ([0].map (· + 1)).sum < 8 ∧
       ([0].map (· + 1)).sum ≤ s.source.rest.length ∧ seen (·.rx) (exec (.srcGet 8) s) = none ∧
       seen (·.source.answers) (exec (.srcGet 1) s) = some [.never, .data 0]) ∧
    (let s := readySink [] [.count 2, .never] []
     s.sink.answers = [1].map (fun c => .count (c + 1)) ++ .never :: [] ∧
       ([1].map (· + 1)).sum < ([5, 6, 7] : Bytes).length ∧
       seen (·.sink.answers) (exec (.sinkPut [5, 6]) s) = some [.never]) ∧
    (let s := readySink [] [] [.never]
     s.sink.flushAnswers = .never :: [] ∧ seen (·.sink.flushAnswers) (exec .txMarker s) = some [.never]) := by decide

theorem witness_TxGatingTable : State.reset.tx.state = .unconfigured ∧ (txIn .ready).tx.state = .ready ∧
    (txIn .finished).tx.state = .finished ∧ (txIn .failed).tx.state = .failed := by decide

/-- The boundaries of the three clauses: 64 and 2^25; 63 and 2^25 + 1; 65 and 2^25 - 1, which are no powers of two. -/
theorem witness_TxConfigAcceptsExactlyTheLegalSizes : State.reset.tx.state = .unconfigured ∧
    (64 : U32).toNat = 2 ^ 6 ∧ (33554432 : U32).toNat = 2 ^ 25 ∧
    (63 : U32).toNat < 64 ∧ 33554432 < (33554433 : U32).toNat ∧
    (¬ ∃ k, (65 : U32).toNat = 2 ^ k) ∧ ¬ ∃ k, (33554431 : U32).toNat = 2 ^ k := by
  refine ⟨rfl, rfl, rfl, by decide, by decide, ?_, ?_⟩
  · rintro ⟨k, h⟩
    have : k < 7 := (Nat.pow_lt_pow_iff_right (a := 2) (by decide)).mp (by rw [← h]; decide)
    interval_cases k <;> revert h <;> decide
  · rintro ⟨k, h⟩
    have : k < 26 := (Nat.pow_lt_pow_iff_right (a := 2) (by decide)).mp (by rw [← h]; decide)
    interval_cases k <;> revert h <;> decide

theorem witness_TxWriteBelowCapacityOnlyBuffers : (ready [1]).tx.state = .ready ∧
    (ready [1]).tx.abuf.length + (List.replicate 62 (0 : Byte)).length < (ready [1]).tx.blockSize := by decide

/-- A write within the buffer, and one that fills it once: for its one block the backend answers or fails
(witness_backend), so the one clause or the other applies. -/
theorem witness_TxWriteCompletes : ((ready [1]).tx.abuf ++ [2]).length / (ready [1]).tx.blockSize = 0 ∧
    (let s := ready (List.replicate 63 0)
     s.tx.state = .ready ∧ s.tx.abuf.length < s.tx.blockSize ∧ s.sink.cooperates ∧
       (s.tx.abuf ++ [0]).length / s.tx.blockSize = 1 ∧
       sliceOf s.tx.blockSize 0 (s.tx.abuf ++ [0]) = List.replicate 64 0) :=
  ⟨by decide, rfl, by decide, (witness_cooperates _ [] .idle).1, by decide, by decide⟩

/-- One write within the buffer, and one that fills it, on a machine whose `COMPRESS` answers bytes for that block. -/
theorem witness_TxWriteEmitsExactlyTheFullBlocks :
    seen (·.txRsp) (exec (.txWrite [2]) (ready [1])) = some (some .ok) ∧
    ∀ c, Config.compress (List.replicate 64 0) = .bytes c →
      seen (·.txRsp) (exec (.txWrite [0]) (ready (List.replicate 63 0))) = some (some .ok) := by
  refine ⟨by decide, fun c hc => ?_⟩
  obtain ⟨k, h, -⟩ := txBlock_of_cooperates (ready (List.replicate 64 0)) (witness_cooperates _ [] .idle).1 hc
  have e : exec (.txWrite [0]) (ready (List.replicate 63 0)) =
      txAnswer (((txBlock (List.replicate 64 0) (ready (List.replicate 64 0))).bind fun _ s => .ok ()
        (s.setTx (s.tx.withAbuf []))).bind fun _ s => txWriteLoop 0 [] s) := rfl
  rw [e, h]
  rfl

/-- Two writes within the buffer; and, on a machine whose `COMPRESS` answers bytes for that block, one that fills it and
another after it. -/
theorem witness_TxWriteSplitIsInvisible :
    (∃ t u, exec (.txWrite [1]) (ready []) = .next t ∧ exec (.txWrite [2]) t = .next u ∧
      (ready []).tx.abuf.length < (ready []).tx.blockSize) ∧
    ∀ c, Config.compress (List.replicate 64 0) = .bytes c →
      ∃ t u, exec (.txWrite [0]) (ready (List.replicate 63 0)) = .next t ∧ exec (.txWrite [2]) t = .next u ∧
        (ready (List.replicate 63 0)).tx.abuf.length < (ready (List.replicate 63 0)).tx.blockSize := by
  refine ⟨⟨_, _, rfl, rfl, by decide⟩, fun c hc => ?_⟩
  obtain ⟨k, h, -⟩ := txBlock_of_cooperates (ready (List.replicate 64 0)) (witness_cooperates _ [] .idle).1 hc
  have e : exec (.txWrite [0]) (ready (List.replicate 63 0)) =
      txAnswer (((txBlock (List.replicate 64 0) (ready (List.replicate 64 0))).bind fun _ s => .ok ()
        (s.setTx (s.tx.withAbuf []))).bind fun _ s => txWriteLoop 0 [] s) := rfl
  rw [e, h]
  exact ⟨_, _, rfl, rfl, by decide⟩

theorem witness_TxFlushAndTxFinish : (ready []).tx.abuf = [] ∧ (ready [1]).tx.abuf ≠ [] ∧
    (ready [1]).tx.state = .ready := by decide

theorem witness_TxProloguePutsMagicOnce : (ready []).tx.prologueDone = false ∧
    ((ready []).setTx (ready []).tx.prologuePut).tx.prologueDone = true := by decide

theorem witness_TxBlockStoresTheShorterForm : (ready []).tx.state = .ready ∧
    1 ≤ ([7] : Bytes).length ∧ ([7] : Bytes).length ≤ (ready []).tx.blockSize ∧
    (List.replicate 64 (7 : Byte)).length ≤ (ready []).tx.blockSize := by decide

theorem witness_TxErrorEntry :
    seen (·.txRsp) (exec (.txConfig 63) State.reset) = some (some (.err .config (some .outOfRange))) ∧
    seen (·.txRsp) (exec .txFlush (txIn .finished)) = some (some (.err .format (some .useAfterFinish))) ∧
    seen (·.txRsp) (exec .txFinish (readySink [] [.count 0] [])) = some (some (.err .io (some .writeZero))) := by decide

theorem witness_EmittedHeadersAreLegal : legalBlockSize 64 = true ∧ 1 ≤ ([7] : Bytes).length ∧
    (List.replicate 64 (7 : Byte)).length ≤ 64 := by decide

theorem witness_RxInitDetectsThePrologue : (rxIn .uninitialized s1).rx.state = .uninitialized ∧
    (rxIn .uninitialized s1).source.rest.take 8 = magic ∧
    (rxIn .uninitialized (s1.take 7)).source.rest.take 8 ≠ magic ∧ (s1.set 7 0x6A).take 8 ≠ magic := by decide

theorem witness_RxRefillAtTheEndOfTheSource : (rxIn .idle []).rx.state = .idle ∧ (rxIn .idle []).source.rest = [] ∧
    (rxIn .idle (s1Record.take 12)).source.rest.length < 13 ∧ (rxIn .idle (s1Record.take 12)).source.rest ≠ [] := by
  decide

theorem witness_MalformedHeaderIsFormatError :
    ([0x30, 3, 0, 0, 0, 3, 0, 0, 0, 1, 0, 0, 0] : Bytes).length = 13 ∧
    hdrClassify (hdrUnpack [0x30, 3, 0, 0, 0, 3, 0, 0, 0, 1, 0, 0, 0]) = .malformed .badMethod := by decide

theorem witness_RefillRunsTheFetchedRecord : ∃ u, (rxIn .idle s1Record).source.rest = s1Record.take 13 ++ [46, 46, 46] ∧
    decode (.wireRecord (s1Record.take 13)) = .ok (.blkRaw 0 3 0x0677E452) ∧
    exec (.srcGet 13) (rxIn .idle s1Record) = .next u ∧ u.rx.state = .idle :=
  ⟨_, by decide, by decide, rfl, rfl⟩

theorem witness_RxRefillFetchesOneRecord :
    decode (.wireRecord (0x15 :: List.replicate 12 0)) = .ok (.endMarker 5) ∧
    decode (.wireRecord (s1Record.take 13)) = .ok (.blkRaw 0 3 0x0677E452) ∧
    ([46, 46, 46] : Bytes).length = (3 : U32).toNat ∧ hash32 [46, 46, 46] = 0x0677E452 := by decide

theorem witness_RawBlockIsVerifiedThenLoaded : WellFormed (.blkRaw 0 3 0x0677E452) = true ∧
    WellFormed (.blkRaw 0 3 0x0677E453) = true ∧ hash32 [46, 46, 46] = 0x0677E452 ∧
    hash32 [46, 46, 46] ≠ 0x0677E453 := by decide

theorem witness_Lz4BlockIsDecompressedThenVerified : WellFormed (.blkLz4 0 2 5 1) = true ∧
    WellFormed (.blkLz4 0 0 5 1) = true ∧ ([0xAA, 0xBB] : Bytes).length = (2 : U32).toNat := by decide

/-- Each of the three forms, with no payload byte and with one less than declared. -/
theorem witness_ShortPayloadIsTruncationError : WellFormed (.rxPayload .raw 3 3 1) = true ∧
    WellFormed (.blkRaw 0 3 1) = true ∧ WellFormed (.blkLz4 0 3 5 1) = true ∧ (rxIn .idle []).rx.state = .idle ∧
    (rxIn .idle []).source.rest.length < (3 : U32).toNat ∧
    (rxIn .idle [46, 46]).source.rest.length < (3 : U32).toNat := by decide

/-- With less and with exactly what is left asked for. -/
theorem witness_RxReadDeliversFromTheBuffer :
    let s := State.reset.setRx ⟨.decodingBlock, [1, 2, 3], 1, none, 24⟩
    s.rx.state = .decodingBlock ∧ s.rx.dcur < s.rx.dbuf.length ∧
    s.rx.dcur + min 1 (s.rx.dbuf.length - s.rx.dcur) < s.rx.dbuf.length ∧
    s.rx.dcur + min 2 (s.rx.dbuf.length - s.rx.dcur) = s.rx.dbuf.length := by decide

theorem witness_RxReadInTerminalStates : (rxIn .terminated []).rx.state = .terminated ∧
    (let s := State.reset.setRx ⟨.failed, [], 0, some .io, 3⟩
     s.rx.state = .failed ∧ s.rx.err = some .io) := by decide

theorem witness_RxReadFetchesARawBlock : (rxIn .idle s1Record).rx.state = .idle ∧
    (rxIn .idle s1Record).source.rest = s1Record.take 13 ++ [46, 46, 46] ++ [] ∧
    decode (.wireRecord (s1Record.take 13)) = .ok (.blkRaw 0 3 0x0677E452) ∧
    ([46, 46, 46] : Bytes).length = (3 : U32).toNat ∧ hash32 [46, 46, 46] = 0x0677E452 := by decide

/-- The other clauses: a fetch that raises, one that ends the stream, one that loads a block; a prologue that fails and
one that goes on; and fetches that never end. -/
theorem witness_RxReadFetchesARawBlock_everyFetch :
    seen (·.opResult) (exec .rxRefill (rxIn .idle (s1Record.take 12))) = some (.raised ⟨.truncation, some .midHeader⟩) ∧
    seen (·.rx.state) (exec .rxRefill (rxIn .idle (0x13 :: List.replicate 12 0))) = some .terminated ∧
    seen (·.rx.state) (exec .rxRefill (rxIn .idle s1Record)) = some .decodingBlock ∧
    seen (·.opResult) (exec .rxInit (rxIn .uninitialized (s1.take 7))) = some (.raised ⟨.format, some .shortPrologue⟩) ∧
    seen (·.rx.state) (exec .rxInit (rxIn .uninitialized s1)) = some .idle ∧
    (let s := (rxIn .idle []).setSource ⟨[], [.never], [], false⟩
     s.rx.state = .idle ∧ seen (·.rx) (exec .rxRefill s) = none) ∧
    (let s := (rxIn .uninitialized []).setSource ⟨[], [.never], [], false⟩
     s.rx.state = .uninitialized ∧ seen (·.rx) (exec .rxInit s) = none) := by decide

/-- P6, with bytes after the container. -/
theorem witness_EmptyContainerIsEndOfInput :
    (rxIn .uninitialized (magic ++ (0x10 ||| (3 : U4).setWidth 8) :: List.replicate 12 0 ++ [9])).source.rest =
      [0x4C, 0x5A, 0x34, 0x42, 0x6C, 0x6F, 0x63, 0x6B] ++
        (0x10 ||| (3 : U4).setWidth 8) :: List.replicate 12 0 ++ [9] := rfl

theorem witness_RxErrorEntry :
    seen (·.rx.state) (exec (.rxRead 1) (rxIn .uninitialized [])) = some .failed ∧
    seen (·.rx.state) (exec .rxInit (rxIn .uninitialized [])) = some .failed := by decide

theorem witness_LoadedBytesAreVerified :
    seen (·.rx.state) (exec .rxRefill (rxIn .idle s1Record)) = some .decodingBlock := by decide

theorem witness_ResetRestoresOneFramer : ((ready [1]).setInbox [.txReset]).inbox = .txReset :: [] ∧
    ((ready [1]).setInbox [.rxReset, .txReset]).inbox = .rxReset :: [.txReset] := by decide

theorem witness_StepRunsTheDecodedCommand :
    ((ready []).setInbox [.tx ⟨2, 0, []⟩]).inbox = .tx ⟨2, 0, []⟩ :: [] ∧ decode (.tx ⟨2, 0, []⟩) = .ok .txFlush ∧
    ((ready []).setInbox [.rx ⟨0, 1⟩]).inbox = .rx ⟨0, 1⟩ :: [] ∧ decode (.rx ⟨0, 1⟩) = .ok (.rxRead 1) := by decide

theorem witness_BorrowedEndpointsAreTheUnits :
    (let s := ((ready []).setSink { Sink.fresh with used := true }).setInbox [.sinkWrite [1]]
     s.inbox = .sinkWrite [1] :: [] ∧ s.sink.used = true ∧ s.tx.state = .ready) ∧
    ((ready []).sink.used = false ∧ (txIn .unconfigured).tx.state = .unconfigured ∧
      (txIn .finished).tx.state = .finished ∧ (txIn .failed).tx.state = .failed) ∧
    (let s := ((rxIn .idle []).setSource { Source.fresh with used := true }).setInbox [.sourceTake 1]
     s.inbox = .sourceTake 1 :: [] ∧ s.source.used = true ∧ s.rx.state ≠ .terminated ∧ s.rx.state ≠ .failed) ∧
    ((rxIn .idle [7]).source.used = false ∧ (rxIn .failed [7]).rx.state = .failed ∧
      let s := (rxIn .terminated [7]).setInbox [.sourceTake 1]
      s.inbox = .sourceTake 1 :: [] ∧ s.rx.state = .terminated) := by decide

/-- What the host may do to the endpoints it owns: after the marker it takes the rest, before the first request it writes. -/
theorem test_hostAccess :
    seen (·.source.rest) (step ((rxIn .terminated [7, 8]).setInbox [.sourceTake 1])) = some [8] ∧
    seen (·.sink.accepted) (step ((ready []).setInbox [.sinkWrite [9]])) = some [9] ∧
    seen (·.source.rest) (step (((rxIn .idle []).setSource { Source.fresh with rest := [7], used := true }).setInbox
      [.sourceSupply [8]])) = some [7, 8] := by decide

theorem witness_InvariantIsKept : (ready [1]).inv = true ∧ (txIn .failed).inv = true ∧
    State.inv ((ready [1]).setRx ⟨.decodingBlock, [1, 2, 3], 1, none, 24⟩) = true ∧
    (seen (·.inv) (step (State.reset.setInbox [.tx ⟨0, 64, []⟩]))) = some true := by decide

/-- Endpoints that answer with errors, and states in which each clause's instructions run. -/
theorem witness_AnsweringEndpointsNeverHang :
    (let s := (readySink [1] [.count 3, .count 0, .ioError 1 4] [.ioError 4]).setSource
       ⟨[1, 2], [.data 0, .ioError 4], [], false⟩
     s.inv = true ∧ (SinkAnswer.never ∉ s.sink.answers) ∧ (FlushAnswer.never ∉ s.sink.flushAnswers) ∧
       (SrcAnswer.never ∉ s.source.answers) ∧ s.tx.state = .ready ∧ s.rx.state = .uninitialized) ∧
    ((rxIn .idle [1]).inv = true ∧ (rxIn .idle [1]).rx.state = .idle ∧
      WellFormed (.rxPayload .raw 3 3 1) = true) := by decide

theorem witness_TxStateTransitions :
    seen (·.tx.state) (exec (.txConfig 64) State.reset) = some .ready ∧
    seen (·.tx.state) (exec .txFinish (ready [])) = some .finished ∧
    seen (·.tx.state) (exec .txFinish (readySink [] [.count 0] [])) = some .failed ∧
    seen (·.tx.state) (exec .txFlush (txIn .finished)) = some .finished ∧
    seen (·.tx.state) (exec (.ckGen [46, 46, 46]) (txIn .failed)) = some .failed ∧
    seen (·.tx.state) (step (State.reset.setInbox [.tx ⟨0, 64, []⟩])) = some .ready ∧
    seen (·.tx.state) (step ((ready []).setInbox [.tx ⟨3, 0, []⟩])) = some .finished ∧
    seen (·.tx.state) (step ((readySink [] [.count 0] []).setInbox [.tx ⟨3, 0, []⟩])) = some .failed ∧
    seen (·.tx.state) (step ((ready []).setInbox [.rxReset])) = some .ready := by decide

theorem witness_RxStateTransitions :
    seen (·.rx.state) (exec (.rxRead 2) (State.reset.setRx ⟨.decodingBlock, [1, 2, 3], 1, none, 24⟩)) = some .idle ∧
    seen (·.rx.state) (exec (.rxRead 2) (rxIn .terminated [])) = some .terminated ∧
    seen (·.rx.state) (exec (.rxRead 2) (State.reset.setRx ⟨.failed, [], 0, some .io, 3⟩)) = some .failed ∧
    seen (·.rx.state) (step ((State.reset.setRx ⟨.decodingBlock, [1, 2, 3], 1, none, 24⟩).setInbox [.rx ⟨0, 2⟩])) =
      some .idle ∧
    seen (·.rx.state) (step ((rxIn .terminated []).setInbox [.rx ⟨0, 2⟩])) = some .terminated ∧
    seen (·.rx.state) (step ((rxIn .idle []).setInbox [.txReset])) = some .idle := by decide

/-- One instruction of each kind that answers a next state. -/
theorem witness_wholeMachine : (ofTx .txFlush = true ∧ seen (·.tx.blockSize) (exec .txFlush (ready [])) = some 64) ∧
    (ofRx (.rxRead 3) = true ∧ seen (·.source.rest) (exec (.rxRead 3) (rxIn .uninitialized s1)) = some []) ∧
    combinational (.tokDec 3) = true ∧ seen (·.tx) (exec (.tokDec 3) (ready [])) = some (ready []).tx := by decide

/-- Each precondition missed by one, and a state outside each domain. -/
theorem witness_OperationsOutsideTheirDomainAreRefused : ([1, 2, 3] : Bytes).length ≠ 4 ∧
    (List.replicate 14 (0 : Byte)).length ≠ 13 ∧ legalBlockSize 65 = false ∧ State.reset.tx.state ≠ .ready ∧
    (ready []).tx.state = .ready ∧ (ready []).tx.blockSize < (List.replicate 65 (0 : Byte)).length ∧
    State.reset.rx.state ≠ .idle ∧ (rxIn .idle []).rx.state = .idle ∧ dataLengths .raw 0 0 = false ∧
    (∀ token, hdrClassify ⟨token, 0, 0, 1⟩ ≠ .data .raw 0 0 1) ∧ WellFormed (.blkRaw 0 1025 1) = false ∧
    WellFormed (.blkLz4 0 3 3 1) = false ∧ (rxIn .idle []).rx.state ≠ .uninitialized ∧
    (rxIn .terminated []).rx.state ≠ .uninitialized ∧ (rxIn .terminated []).rx.state ≠ .idle := by
  have hdata (token : Byte) : hdrClassify ⟨token, 0, 0, 1⟩ ≠ .data .raw 0 0 1 := fun h =>
    absurd (hdrClassify_data h).2.2.2.2.2 (by simp [dataLengths])
  exact ⟨by decide, by decide, by decide, by decide, by decide, by decide, by decide, by decide, by decide, hdata,
    by decide, by decide, by decide, by decide, by decide⟩

theorem witness_BlockRoundTrip :
    let s := (ready []).setTx (ready []).tx.prologuePut
    s.tx.state = .ready ∧ legalBlockSize s.tx.blockSize = true ∧ s.tx.sc = scOf s.tx.blockSize ∧
      s.tx.prologueDone = true ∧ 1 ≤ ([7] : Bytes).length ∧ ([7] : Bytes).length ≤ s.tx.blockSize := by decide

/-- P6: the container of no bytes, with bytes after it. -/
theorem witness_EncodeThenDecodeIsTheData : ∃ t, encodeRun 64 [] State.reset = .next t ∧ t.txRsp = some .ok ∧
    State.reset.sink.accepted ++ (rxIn .uninitialized (t.sink.accepted ++ [9])).source.rest = t.sink.accepted ++ [9] :=
  ⟨_, rfl, rfl, rfl⟩

end Sys2Proof.Tests
end

section
/-! PROOFS. What RX makes of one record that TX put: the header's verdict, the fetch, the reconstruction (R119, R174 to
R179). -/

namespace Sys2Proof

/-! ### The header of a stored block -/

/-- The chosen payload is never longer than the block (R146). -/
theorem selectMethod_cases (orig c : Bytes) :
    (c.length < orig.length ∧ selectMethod orig c = (.lz4, c)) ∨
      (orig.length ≤ c.length ∧ selectMethod orig c = (.raw, orig)) := by
  unfold selectMethod
  split_ifs with h
  · exact .inl ⟨h, rfl⟩
  · exact .inr ⟨Nat.not_lt.mp h, rfl⟩

/-- A length that a block of at most 2^25 bytes has survives the 32 bits of its header field. -/
theorem toNat_ofNat_of_le_maxBlockSize {n : Nat} (h : n ≤ Config.maxBlockSize) : (BitVec.ofNat 32 n).toNat = n := by
  simp only [Config.maxBlockSize] at h
  rw [BitVec.toNat_ofNat, Nat.mod_eq_of_lt (by omega)]

/-- The header TX.BLOCK puts is a `Data` header of what it stores (R119). -/
theorem hdrClassify_blockHeader {bs : Nat} {orig : Bytes} (c : Bytes) (hbs : legalBlockSize bs = true)
    (h1 : 1 ≤ orig.length) (hle : orig.length ≤ bs) :
    hdrClassify (hdrUnpack (blockHeader (scOf bs) (selectMethod orig c).1 (selectMethod orig c).2 orig)) =
      .data (selectMethod orig c).1 (BitVec.ofNat 32 (selectMethod orig c).2.length) (BitVec.ofNat 32 orig.length)
        (hash32 orig) := by
  obtain ⟨hsc, hmax⟩ := blockSize_le_sizeClass hbs
  have horig := toNat_ofNat_of_le_maxBlockSize (hle.trans hmax)
  have hlen : dataLengths (selectMethod orig c).1 (BitVec.ofNat 32 (selectMethod orig c).2.length)
      (BitVec.ofNat 32 orig.length) = true := by
    obtain ⟨hlt, hsel⟩ | ⟨-, hsel⟩ := selectMethod_cases orig c
    · have hc := toNat_ofNat_of_le_maxBlockSize (n := c.length) (by omega)
      simp only [hsel, dataLengths, lengthsAgree, horig, hc, Bool.and_eq_true, decide_eq_true_eq]
      omega
    · simp only [hsel, dataLengths, lengthsAgree, horig, Bool.and_eq_true, decide_eq_true_eq, and_true]
      omega
  rw [blockHeader, hdrUnpack_hdrPack]
  refine hdrClassify_of_data ?_ ?_ hlen
  · simp [tokDec_tokEnc]
  · simp only [tokDec_tokEnc, withinSizeClass, horig, decide_eq_true_eq]
    exact hle.trans hsc

/-- The end marker is classified as one, whatever its size class (R119, R147). -/
theorem hdrClassify_markerBytes (sc : U4) : hdrClassify (hdrUnpack (markerBytes sc)) = .marker := by
  rw [markerBytes, hdrUnpack_hdrPack, hdrClassify_marker]
  simp [tokDec_tokEnc]

@[simp] theorem blockHeader_length (sc : U4) (m : Method) (payload orig : Bytes) :
    (blockHeader sc m payload orig).length = Config.headerLen := rfl

@[simp] theorem markerBytes_length (sc : U4) : (markerBytes sc).length = Config.headerLen := rfl

@[simp] theorem magic_length : magic.length = Config.magicLen := rfl

end Sys2Proof

namespace Sys2Proof.Machine

/-! ### RX on a record that TX put -/

/-- SrcGet of a run of bytes that the source holds next (R17). -/
theorem srcGet_of_append {b tail : Bytes} {s : State} (hs : s.source.cooperates) (hrest : s.source.rest = b ++ tail) :
    ∃ src : Source, src.rest = tail ∧ src.cooperates ∧
      srcGet b.length s = .ok (.full b) ((s.setSource src).setRx (s.rx.moved b.length)) := by
  obtain ⟨src, hr, hc, h⟩ := srcGet_of_cooperates b.length s hs
  exact ⟨src, by simpa [hrest] using hr, hc, by simpa [hrest] using h⟩

/-- RX.INIT on a source that begins with MAGIC (R173). -/
theorem rxInit_of_magic {tail : Bytes} {s : State} (hs : s.source.cooperates) (hrest : s.source.rest = magic ++ tail) :
    ∃ src : Source, src.rest = tail ∧ src.cooperates ∧
      rxInit s = .ok () (rxPrologueRead ((s.setSource src).setRx (s.rx.moved magic.length))) := by
  obtain ⟨src, hr, hc, h⟩ := srcGet_of_append hs hrest
  exact ⟨src, hr, hc, by rw [rxInit, ← magic_length, h]; simp⟩

/-- RX.REFILL fetches the next 13 bytes and does what they say (R174). -/
theorem rxRefill_of_header {h tail : Bytes} {s : State} (hs : s.source.cooperates) (hrest : s.source.rest = h ++ tail)
    (hl : h.length = Config.headerLen) :
    ∃ src : Source, src.rest = tail ∧ src.cooperates ∧
      rxRefill s = rxHeader h ((s.setSource src).setRx (s.rx.moved Config.headerLen)) := by
  obtain ⟨src, hr, hc, hget⟩ := srcGet_of_append hs hrest
  exact ⟨src, hr, hc, by rw [rxRefill, ← hl, hget, Res.bind_ok]⟩

/-- RX.REFILL on an end marker (R176). -/
theorem rxRefill_of_marker {sc : U4} {tail : Bytes} {s : State} (hs : s.source.cooperates)
    (hrest : s.source.rest = markerBytes sc ++ tail) :
    ∃ src : Source, src.rest = tail ∧
      rxRefill s = .ok () (rxMarker ((s.setSource src).setRx (s.rx.moved Config.headerLen))) := by
  obtain ⟨src, hr, -, h⟩ := rxRefill_of_header hs hrest (markerBytes_length sc)
  exact ⟨src, hr, by rw [h, rxHeader, hdrClassify_markerBytes]⟩

/-- The pair of backends is not at fault on this block (R11): DECOMPRESS inverts COMPRESS where LZ4 is chosen. -/
def backendsInvert (orig : Bytes) : Prop :=
  ∀ c, Config.compress orig = .bytes c → c.length < orig.length → Config.decompress c orig.length = .bytes orig

/-- RX's registers with a whole block in the buffer (R179). -/
def Rx.loadedWith (x : Rx) (orig : Bytes) : Rx := { x with dbuf := orig, dcur := 0, state := .decodingBlock }

@[simp] theorem Rx.loadedWith_dbuf (x : Rx) (orig : Bytes) : (x.loadedWith orig).dbuf = orig := rfl
@[simp] theorem Rx.loadedWith_dcur (x : Rx) (orig : Bytes) : (x.loadedWith orig).dcur = 0 := rfl

/-- The stored form of a block is reconstructed and passes verification (R177 to R179). -/
theorem rxReconstruct_selectMethod {orig c : Bytes} (s : State) (hc : Config.compress orig = .bytes c)
    (hmax : orig.length ≤ Config.maxBlockSize) (hinv : backendsInvert orig) :
    rxReconstruct (selectMethod orig c).1 (selectMethod orig c).2 (BitVec.ofNat 32 orig.length) (hash32 orig) s =
      .ok () (s.setRx (s.rx.loadedWith orig)) := by
  have hload : rxLoad orig (hash32 orig) s = .ok () (s.setRx (s.rx.loadedWith orig)) := by
    simp [rxLoad, ckVerify, Rx.loadedWith]
  obtain ⟨hlt, hsel⟩ | ⟨-, hsel⟩ := selectMethod_cases orig c
  · simp [hsel, rxReconstruct, toNat_ofNat_of_le_maxBlockSize hmax, hinv c hc hlt, hload]
  · simp [hsel, rxReconstruct, hload]

/-- RX.REFILL on the record of a block loads the block's bytes (R174 to R179). -/
theorem rxRefill_of_record {bs : Nat} {orig c tail : Bytes} {s : State} (hbs : legalBlockSize bs = true)
    (h1 : 1 ≤ orig.length) (hle : orig.length ≤ bs) (hc : Config.compress orig = .bytes c) (hinv : backendsInvert orig)
    (hs : s.source.cooperates) (hrest : s.source.rest = recordBytes (scOf bs) orig c ++ tail) :
    ∃ (src : Source) (n : Nat), src.rest = tail ∧ src.cooperates ∧
      rxRefill s = .ok () ((s.setSource src).setRx ((s.rx.moved n).loadedWith orig)) := by
  have hmax : orig.length ≤ Config.maxBlockSize := hle.trans (blockSize_le_sizeClass hbs).2
  have hpay : (selectMethod orig c).2.length ≤ Config.maxBlockSize := by
    obtain ⟨hlt, hsel⟩ | ⟨-, hsel⟩ := selectMethod_cases orig c <;> rw [hsel]
    · exact hlt.le.trans hmax
    · exact hmax
  rw [recordBytes, List.append_assoc] at hrest
  obtain ⟨src1, hr1, hc1, hrefill⟩ := rxRefill_of_header hs hrest (blockHeader_length _ _ _ _)
  obtain ⟨src2, hr2, hc2, hget⟩ := srcGet_of_append (b := (selectMethod orig c).2) (tail := tail)
    (s := (s.setSource src1).setRx (s.rx.moved Config.headerLen)) hc1 hr1
  refine ⟨src2, Config.headerLen + (selectMethod orig c).2.length, hr2, hc2, ?_⟩
  rw [hrefill, rxHeader, hdrClassify_blockHeader c hbs h1 hle]
  simp only [rxPayload, toNat_ofNat_of_le_maxBlockSize hpay, hget, Res.bind_ok]
  rw [rxReconstruct_selectMethod _ hc hmax hinv]
  congr 1
  apply State.eq_of_components <;> simp

/-- Settles O59: what TX.BLOCK puts is the block's record, and RX.REFILL loads a record (`rxRefill_of_record`). -/
theorem blockRoundTrip : Obligations.BlockRoundTrip := by
  intro orig s hst hbs hsc hpro h1 hle hcoop
  have hexec : exec (.txBlock orig) s = opAnswer (fun _ => .done) (txBlock orig s) := by
    simp [exec, execTxBlock, whenTxReady, whenOperands, hst, h1, hle]
  rw [hexec]
  cases hcomp : Config.compress orig with
  | error e => exact ⟨_, by rw [txBlock_of_backendError s hcomp]; rfl, nofun⟩
  | bytes c =>
    obtain ⟨k, hblock, happ, -⟩ := txBlock_of_cooperates s hcoop hcomp
    refine ⟨_, by rw [hblock]; rfl, fun c' hc' => ?_⟩
    obtain rfl : c = c' := by simpa using hc'
    refine ⟨recordBytes s.tx.sc orig c, by simpa [prologueDue, hpro] using happ.accepted, ?_⟩
    intro tail r hr hrc hrest
    by_cases hinv : backendsInvert orig
    · obtain ⟨src, n, htail, -, hrefill⟩ := rxRefill_of_record hbs h1 hle hcomp hinv hrc (by rw [hrest, hsc])
      have hexec : exec .rxRefill r =
          .next (((r.setSource src).setRx ((r.rx.moved n).loadedWith orig)).setOpResult .done) := by
        simp [exec, execRxRefill, whenRx, hr, hrefill, opAnswer]
      exact .inr ⟨_, hexec, rfl, rfl, rfl, htail⟩
    · refine .inl ?_
      unfold backendsInvert at hinv
      push Not at hinv
      obtain ⟨c', hc', hlt, hne⟩ := hinv
      obtain rfl : c = c' := by simpa [hcomp] using hc'
      exact ⟨hlt, hne⟩

end Sys2Proof.Machine
end

section
/-! PROOFS. What ENCODE puts and what DECODE-ALL makes of it (R91, R148, R180). -/

namespace Sys2Proof.Machine

/-! ### What ENCODE puts (R91, R148) -/

/-- `wire` is the records of the blocks, one after the other, each as TX.BLOCK stores it (R146). -/
inductive Stored (sc : U4) : List Bytes → Bytes → Prop where
  | nil : Stored sc [] []
  | cons {orig c : Bytes} {blocks : List Bytes} {wire : Bytes} (hc : Config.compress orig = .bytes c)
      (h : Stored sc blocks wire) : Stored sc (orig :: blocks) (recordBytes sc orig c ++ wire)

theorem Stored.append {sc : U4} {b1 b2 : List Bytes} {w1 w2 : Bytes} (h1 : Stored sc b1 w1) (h2 : Stored sc b2 w2) :
    Stored sc (b1 ++ b2) (w1 ++ w2) := by
  induction h1 with
  | nil => exact h2
  | cons hc _ ih => simpa [List.append_assoc] using Stored.cons hc ih

/-- What the sink holds once MAGIC, if it is still due, has been put. -/
def State.sinkWithMagic (s : State) : Bytes := s.sink.accepted ++ prologueDue s.tx

/-- TX went from `s` to `s'` and put the records of `blocks`, after MAGIC if it was due (R145, R146, R149). -/
structure PutBlocks (s s' : State) (blocks : List Bytes) : Prop where
  stored : ∃ wire, Stored s.tx.sc blocks wire ∧ s'.sinkWithMagic = s.sinkWithMagic ++ wire
  state : s'.tx.state = s.tx.state
  blockSize : s'.tx.blockSize = s.tx.blockSize
  sc : s'.tx.sc = s.tx.sc

@[simp] theorem prologueDue_withAbuf (x : Tx) (b : Bytes) : prologueDue (x.withAbuf b) = prologueDue x := rfl

theorem PutBlocks.withAbuf (s : State) (b : Bytes) : PutBlocks s (s.setTx (s.tx.withAbuf b)) [] :=
  ⟨⟨[], .nil, by simp [State.sinkWithMagic]⟩, rfl, rfl, rfl⟩

theorem PutBlocks.refl (s : State) : PutBlocks s s [] := withAbuf s s.tx.abuf

theorem PutBlocks.trans {s s1 s2 : State} {b1 b2 : List Bytes} (h1 : PutBlocks s s1 b1) (h2 : PutBlocks s1 s2 b2) :
    PutBlocks s s2 (b1 ++ b2) := by
  obtain ⟨⟨w1, hw1, hs1⟩, hst1, hbs1, hsc1⟩ := h1
  obtain ⟨⟨w2, hw2, hs2⟩, hst2, hbs2, hsc2⟩ := h2
  exact ⟨⟨w1 ++ w2, hw1.append (hsc1 ▸ hw2), by rw [hs2, hs1, List.append_assoc]⟩, hst2.trans hst1, hbs2.trans hbs1,
    hsc2.trans hsc1⟩

/-- A TX.BLOCK that went on put its block's record (R146). -/
theorem txBlock_putBlocks {orig : Bytes} {s s' : State} (h : txBlock orig s = .ok () s') : PutBlocks s s' [orig] := by
  obtain ⟨c, k, hc, rfl, happ⟩ := txBlock_ok h
  refine ⟨⟨recordBytes s.tx.sc orig c, by simpa using Stored.cons hc .nil, ?_⟩, rfl, rfl, rfl⟩
  simp [State.sinkWithMagic, happ.accepted, prologueDue]

/-- What TX.FLUSH and TX.FINISH make of the buffered bytes: one short block, or none (R142, R143). -/
def pendingBlock (abuf : Bytes) : List Bytes := if abuf = [] then [] else [abuf]

theorem txEmitPending_putBlocks {s s' : State} (h : txEmitPending s = .ok () s') :
    PutBlocks s s' (pendingBlock s.tx.abuf) := by
  unfold txEmitPending at h
  unfold pendingBlock
  split_ifs at h ⊢
  · cases h
    exact .refl s
  · obtain ⟨_, s1, h1, h2⟩ := Res.bind_eq_ok h
    cases h2
    exact (txBlock_putBlocks h1).trans (.withAbuf s1 [])

/-- A slice is buffered, or fills the buffer and goes out in a whole block (R141). -/
theorem txAppend_putBlocks {slice : Bytes} {s s' : State} (h : txAppend slice s = .ok () s') :
    ∃ blocks, PutBlocks s s' blocks ∧ (∀ o ∈ blocks, o.length = s.tx.blockSize) ∧
      s.tx.abuf ++ slice = blocks.flatten ++ s'.tx.abuf := by
  unfold txAppend at h
  simp only [memWrite_end] at h
  split_ifs at h with hfull
  · obtain ⟨_, s1, h1, h2⟩ := Res.bind_eq_ok h
    cases h2
    exact ⟨[s.tx.abuf ++ slice], ((PutBlocks.withAbuf s _).trans (txBlock_putBlocks h1)).trans (.withAbuf s1 []),
      by simpa using hfull, by simp⟩
  · cases h
    exact ⟨[], .withAbuf s _, by simp, by simp⟩

/-- TX.WRITE puts whole blocks of BLOCK_SIZE bytes; with what it leaves in the buffer they are the bytes buffered before
and the data, in order (R141, R148). -/
theorem txWriteLoop_putBlocks {fuel : Nat} {rem : Bytes} {s s' : State} (h : txWriteLoop fuel rem s = .ok () s') :
    ∃ blocks, PutBlocks s s' blocks ∧ (∀ o ∈ blocks, o.length = s.tx.blockSize) ∧
      s.tx.abuf ++ rem = blocks.flatten ++ s'.tx.abuf := by
  induction fuel generalizing rem s with
  | zero =>
    unfold txWriteLoop at h
    split_ifs at h with hr
    cases h
    exact ⟨[], .refl _, by simp, by simp [hr]⟩
  | succ fuel ih =>
    unfold txWriteLoop at h
    split_ifs at h with hr
    · cases h
      exact ⟨[], .refl _, by simp, by simp [hr]⟩
    · obtain ⟨_, s1, h1, h2⟩ := Res.bind_eq_ok h
      obtain ⟨b1, hp1, hl1, he1⟩ := txAppend_putBlocks h1
      obtain ⟨b2, hp2, hl2, he2⟩ := ih h2
      refine ⟨b1 ++ b2, hp1.trans hp2, ?_, ?_⟩
      · intro o ho
        rcases List.mem_append.mp ho with ho | ho
        · exact hl1 o ho
        · rw [hl2 o ho, hp1.blockSize]
      · rw [List.flatten_append, List.append_assoc, ← he2, ← List.append_assoc, ← he1, List.append_assoc,
          List.take_append_drop]

/-! ### The blocks are the data's slices (R148) -/

theorem sliceOf_zero_append {n : Nat} {a b : Bytes} (h : a.length = n) : sliceOf n 0 (a ++ b) = a := by
  simp [sliceOf, memRead, ← h]

theorem sliceOf_succ_append {n i : Nat} {a b : Bytes} (h : a.length = n) :
    sliceOf n (i + 1) (a ++ b) = sliceOf n i b := by
  rw [sliceOf, sliceOf, memRead, memRead, Nat.succ_mul, Nat.add_comm, ← h, List.drop_length_add_append]

/-- Whole blocks of `n` bytes and a rest of at most `n` are slices of what they make up together. -/
theorem exists_sliceOf_of_mem {n : Nat} {blocks : List Bytes} {rest : Bytes} (hl : ∀ o ∈ blocks, o.length = n)
    (hr : rest.length ≤ n) : ∀ o ∈ blocks ++ [rest], ∃ i, o = sliceOf n i (blocks.flatten ++ rest) := by
  induction blocks with
  | nil => simpa using ⟨0, by simp [sliceOf, memRead, List.take_of_length_le hr]⟩
  | cons a blocks ih =>
    have ha : a.length = n := hl a (by simp)
    intro o ho
    rw [List.flatten_cons, List.append_assoc]
    rcases List.mem_cons.mp ho with rfl | ho
    · exact ⟨0, (sliceOf_zero_append ha).symm⟩
    · obtain ⟨i, hi⟩ := ih (fun o ho => hl o (by simp [ho])) o ho
      exact ⟨i + 1, by rw [sliceOf_succ_append ha, hi]⟩

/-- Whole blocks and what is pending after them: the slices of the bytes they make up, none of them empty. -/
theorem blocks_append_pendingBlock {n : Nat} {blocks : List Bytes} {rest : Bytes} (hn : 1 ≤ n)
    (hl : ∀ o ∈ blocks, o.length = n) (hr : rest.length < n) :
    (blocks ++ pendingBlock rest).flatten = blocks.flatten ++ rest ∧
      ∀ o ∈ blocks ++ pendingBlock rest, 1 ≤ o.length ∧ o.length ≤ n ∧
        ∃ i, o = sliceOf n i (blocks.flatten ++ rest) := by
  have hslice := exists_sliceOf_of_mem hl hr.le
  have whole {o : Bytes} (ho : o ∈ blocks) :
      1 ≤ o.length ∧ o.length ≤ n ∧ ∃ i, o = sliceOf n i (blocks.flatten ++ rest) :=
    ⟨by rw [hl o ho]; exact hn, (hl o ho).le, hslice o (List.mem_append_left _ ho)⟩
  unfold pendingBlock
  split_ifs with he
  · exact ⟨by simp [he], fun o ho => whole (by simpa using ho)⟩
  · refine ⟨by simp, fun o ho => ?_⟩
    rcases List.mem_append.mp ho with ho | ho
    · exact whole ho
    · obtain rfl := List.mem_singleton.mp ho
      exact ⟨List.length_pos_iff.mpr he, hr.le, hslice _ (by simp)⟩

/-! ### The three commands of ENCODE -/

/-- A run of `k + 1` steps that went on is a step and a run of `k`. -/
theorem run_succ_eq_next {M : Host.Core} {k : Nat} {s t : M.State} (h : M.run (k + 1) s = .next t) :
    ∃ s1, M.step s = .next s1 ∧ M.run k s1 = .next t := by
  rw [Host.Core.run] at h
  split at h
  · exact ⟨_, ‹_›, h⟩
  · cases h
  · cases h

/-- A step on a transaction at TX's port runs its command (R20, R88). -/
theorem step_tx {c : TxCmd} {i : Instr} {rest : List HostInput} {s : State} (h : s.inbox = .tx c :: rest)
    (hi : decode (.tx c) = .ok i) : step s = exec i (s.setInbox rest) := by
  simp [step, h, runInput, runEncoded, hi]

/-- A run that begins with a transaction at TX's port runs its command first. -/
theorem run_tx_eq_next {k : Nat} {c : TxCmd} {i : Instr} {rest : List HostInput} {s t : State}
    (hin : s.inbox = .tx c :: rest) (hi : decode (.tx c) = .ok i) (h : core.run (k + 1) s = .next t) :
    ∃ s1, exec i (s.setInbox rest) = .next s1 ∧ core.run k s1 = .next t := by
  obtain ⟨s1, hstep, hrun⟩ := run_succ_eq_next h
  exact ⟨s1, (step_tx hin hi).symm.trans hstep, hrun⟩

/-- A TX command that answers Ok ran its body to the end. -/
theorem txAnswer_ok {r : Res Unit} {t : State} (h : txAnswer r = .next t) (hok : t.txRsp = some .ok) :
    ∃ s1, r = .ok () s1 ∧ t = s1.setTxRsp (some .ok) := by
  cases r with
  | ok _ s1 => cases h; exact ⟨s1, rfl, rfl⟩
  | raised e s1 => cases h; simp at hok
  | stuck f => cases h

/-- TX.WRITE, TX.FLUSH and TX.FINISH answer Ok in Ready only (R144). -/
theorem txGated_ok {s t : State} {body : Res Unit} (h : txGated s body = .next t) (hok : t.txRsp = some .ok) :
    s.tx.state = .ready ∧ ∃ s1, body = .ok () s1 ∧ t = s1.setTxRsp (some .ok) := by
  unfold txGated at h
  split at h
  · cases h
  · exact ⟨‹_›, txAnswer_ok h hok⟩
  · obtain ⟨s1, h1, -⟩ := txAnswer_ok h hok
    exact absurd h1 (by simp)
  · cases h

/-- A command of TX that leaves it Ready raised no fatal error. -/
theorem txGated_ready {s t : State} {body : Res Unit} (hs : s.tx.state = .ready) (hpost : TxPost s body)
    (h : txGated s body = .next t) (ht : t.tx.state = .ready) :
    ∃ s1, body = .ok () s1 ∧ t = s1.setTxRsp (some .ok) := by
  unfold txGated at h
  simp only [hs] at h
  cases body with
  | ok _ s1 => cases h; exact ⟨s1, rfl, rfl⟩
  | raised e s1 =>
    cases h
    obtain ⟨-, k, p, n, -, -, rfl⟩ := hpost
    cases ht
  | stuck f => cases h

/-- A SinkFlush that went on put nothing (R60). -/
theorem sinkFlush_ok {s s' : State} (h : sinkFlush s = .ok () s') :
    ∃ k : Sink, s' = s.setSink k ∧ k.accepted = s.sink.accepted := by
  obtain ⟨k, hf, hacc, -⟩ | ⟨k, x, hf, -⟩ | hf := sinkFlush_cases s <;> rw [hf] at h <;> cases h
  exact ⟨k, rfl, hacc⟩

/-- A TX.FINISH that answers Ok put the pending block and the marker (R143). -/
theorem txFinish_ok {s t : State} (h : exec .txFinish s = .next t) (hok : t.txRsp = some .ok) :
    s.tx.state = .ready ∧ ∃ s1, PutBlocks s s1 (pendingBlock s.tx.abuf) ∧
      t.sink.accepted = s1.sinkWithMagic ++ markerBytes s.tx.sc := by
  obtain ⟨hs, s4, hbody, rfl⟩ := txGated_ok h hok
  refine ⟨hs, ?_⟩
  obtain ⟨_, s1, h1, hbody⟩ := Res.bind_eq_ok hbody
  obtain ⟨_, s2, h2, hbody⟩ := Res.bind_eq_ok hbody
  obtain ⟨_, s3, h3, hbody⟩ := Res.bind_eq_ok hbody
  cases hbody
  have hput := txEmitPending_putBlocks h1
  obtain ⟨k, rfl, happ⟩ := txMarker_ok h2
  refine ⟨s1, hput, ?_⟩
  obtain ⟨k', rfl, hacc⟩ := sinkFlush_ok h3
  simp only [State.setTxRsp_sink, State.setTx_sink, State.setSink_sink, hacc, happ.accepted, State.sinkWithMagic,
    hput.sc, List.append_assoc]

/-- TX.CONFIG of a legal size makes TX Ready (R140). -/
theorem txConfig_of_legal {bs : U32} {s : State} (hs : s.tx.state = .unconfigured)
    (hbs : legalBlockSize bs.toNat = true) : exec (.txConfig bs) s = .next ((s.setTx
      { s.tx with blockSize := bs.toNat, sc := scOf bs.toNat, state := .ready }).setTxRsp (some .ok)) := by
  have hcfg : configError bs = none := by
    simp only [legalBlockSize, Bool.and_eq_true, decide_eq_true_eq] at hbs
    obtain ⟨⟨hmin, hmax⟩, hpow⟩ := hbs
    simp [configError, hpow, Nat.not_lt.mpr hmin, Nat.not_lt.mpr hmax]
  simp [exec, execTxConfig, hs, txConfigure, hcfg, txAnswer]

/-- A run of TX's steps takes no input of the host. -/
theorem txGated_inbox {s t : State} {body : Res Unit} (hpost : TxPost s body) (h : txGated s body = .next t) :
    t.inbox = s.inbox := by
  unfold txGated at h
  split at h
  · cases h
  · cases body with
    | ok _ s1 => cases h; obtain ⟨_, k, x, rfl, -⟩ := hpost; rfl
    | raised e s1 => cases h; obtain ⟨-, k, p, n, -, -, rfl⟩ := hpost; rfl
    | stuck f => cases h
  · cases h; rfl
  · cases h

theorem txWrite_inbox {data : Bytes} {s t : State} (h : exec (.txWrite data) s = .next t) : t.inbox = s.inbox :=
  txGated_inbox (txWriteLoop_txPost _ _ _) h

/-- A successful ENCODE runs its three commands one after the other (R91). -/
theorem encodeRun_commands {bs : U32} {data : Bytes} {s t : State} (hs : s.tx.state = .unconfigured)
    (hbs : legalBlockSize bs.toNat = true) (h : encodeRun bs data s = .next t) :
    ∃ s1 s2, s1.tx = { s.tx with blockSize := bs.toNat, sc := scOf bs.toNat, state := .ready } ∧ s1.sink = s.sink ∧
      exec (.txWrite data) s1 = .next s2 ∧ exec .txFinish (s2.setInbox []) = .next t := by
  obtain ⟨s1, hconfig, h⟩ := run_tx_eq_next (i := .txConfig bs) (s := s.setInbox _) rfl rfl h
  obtain rfl := Host.Outcome.next.inj ((txConfig_of_legal (by exact hs) hbs).symm.trans hconfig)
  obtain ⟨s2, hwrite, h⟩ := run_tx_eq_next (i := .txWrite data) rfl rfl h
  obtain ⟨s3, hfinish, h⟩ := run_tx_eq_next (i := .txFinish) (txWrite_inbox hwrite) rfl h
  cases h
  exact ⟨_, s2, by rfl, by rfl, hwrite, hfinish⟩

/-- What a successful ENCODE puts (R91, R148): MAGIC, the records of the data's slices, the end marker. -/
theorem encodeRun_ok {bs : U32} {data : Bytes} {s t : State} (hreset : s.tx = Tx.reset)
    (hbs : legalBlockSize bs.toNat = true) (h : encodeRun bs data s = .next t) (hok : t.txRsp = some .ok) :
    ∃ (blocks : List Bytes) (wire : Bytes), Stored (scOf bs.toNat) blocks wire ∧ blocks.flatten = data ∧
      (∀ o ∈ blocks, 1 ≤ o.length ∧ o.length ≤ bs.toNat ∧ ∃ i, o = sliceOf bs.toNat i data) ∧
      t.sink.accepted = s.sink.accepted ++ magic ++ wire ++ markerBytes (scOf bs.toNat) := by
  have hpos : 1 ≤ bs.toNat := by
    obtain ⟨k, -, -, hk⟩ := (legalBlockSize_iff _).mp hbs
    exact hk ▸ Nat.one_le_two_pow
  obtain ⟨s1, s2, htx, hsink, hwrite, hfinish⟩ := encodeRun_commands (by rw [hreset]; rfl) hbs h
  rw [hreset] at htx
  obtain ⟨hready, s3, hpend, hacc⟩ := txFinish_ok hfinish hok
  obtain ⟨s4, hloop, rfl⟩ := txGated_ready (by rw [htx]) (txWriteLoop_txPost _ _ _) hwrite hready
  obtain ⟨blocks, hput, hlen, hdata⟩ := txWriteLoop_putBlocks hloop
  simp only [htx, Tx.reset, List.nil_append] at hlen hdata
  have hrest : s4.tx.abuf.length < bs.toNat := by
    have := txWriteLoop_ok hloop (by rw [htx]; exact hpos)
    rwa [hput.blockSize, htx] at this
  have hpend4 : PutBlocks s4 s3 (pendingBlock s4.tx.abuf) :=
    ⟨hpend.stored, hpend.state, hpend.blockSize, hpend.sc⟩
  obtain ⟨⟨wire, hstored, hwire⟩, -, -, -⟩ := hput.trans hpend4
  simp only [htx] at hstored
  obtain ⟨hflat, hslices⟩ := blocks_append_pendingBlock hpos hlen hrest
  rw [← hdata] at hflat hslices
  refine ⟨_, wire, hstored, hflat, hslices, ?_⟩
  have hsc : s4.tx.sc = scOf bs.toNat := by rw [hput.sc, htx]
  have hmagic : s1.sinkWithMagic = s.sink.accepted ++ magic := by
    simp [State.sinkWithMagic, hsink, htx, prologueDue, Tx.reset]
  rw [hacc, hwire, hmagic]
  exact congrArg _ (congrArg markerBytes hsc)

/-! ### DECODE-ALL on what ENCODE put (R91, R180) -/

theorem decodeAll_data {n fuel : Nat} {s t : State} {b : Bytes} (h : exec (.rxRead n) s = .next t)
    (hd : t.rxRsp = some (.data b)) :
    decodeAll n (fuel + 1) s = (b ++ (decodeAll n fuel t).1, (decodeAll n fuel t).2) := by
  simp [decodeAll, h, hd]

theorem decodeAll_end {n fuel : Nat} {s t : State} (h : exec (.rxRead n) s = .next t)
    (he : t.rxRsp = some .endOfInput) : decodeAll n (fuel + 1) s = ([], some .endOfInput, t) := by
  simp [decodeAll, h, he]

/-- DECODE-ALL of two states that answer the first RX.READ alike. -/
theorem decodeAll_congr {n fuel : Nat} {s s' : State} {r : Response}
    (h : exec (.rxRead n) s = exec (.rxRead n) s') (hr : (decodeAll n (fuel + 1) s').2.1 = some r) :
    decodeAll n (fuel + 1) s = decodeAll n (fuel + 1) s' := by
  unfold decodeAll at hr ⊢
  rw [h]
  cases hexec : exec (.rxRead n) s' with
  | next t => rfl
  | fault f => simp [hexec] at hr
  | refused q => simp [hexec] at hr

/-- RX.READ in the three states in which it may fetch (R170). -/
theorem rxRead_fetches {n : Nat} {s : State} (hn : 1 ≤ n)
    (hs : s.rx.state = .uninitialized ∨ s.rx.state = .idle ∨ s.rx.state = .decodingBlock) :
    exec (.rxRead n) s = rxAnswer n (rxFetch s) := by
  have hn0 : n ≠ 0 := by omega
  rcases hs with hs | hs | hs <;> simp [exec, execRxRead, hn0, hs]

theorem rxFetch_of_idle {s : State} (hs : s.rx.state = .idle) : rxFetch s = rxRefill s := by
  simp [rxFetch, hs]

theorem rxFetch_of_decodingBlock {s : State} (hs : s.rx.state = .decodingBlock) : rxFetch s = .ok () s := by
  simp [rxFetch, hs]

theorem rxFetch_of_init {s s1 : State} (hs : s.rx.state = .uninitialized) (h : rxInit s = .ok () s1) :
    rxFetch s = rxRefill s1 := by
  simp [rxFetch, hs, h, rxInit_ok h]

/-- After a prologue that is MAGIC RX.READ goes on as in Idle (R170). -/
theorem rxRead_of_init {n : Nat} {s s1 : State} (hn : 1 ≤ n) (hs : s.rx.state = .uninitialized)
    (h : rxInit s = .ok () s1) : exec (.rxRead n) s = exec (.rxRead n) s1 := by
  have hidle := rxInit_ok h
  rw [rxRead_fetches hn (.inl hs), rxRead_fetches hn (.inr (.inl hidle)), rxFetch_of_init hs h, rxFetch_of_idle hidle]

/-- Undelivered bytes stand in the buffer, or RX is between two blocks (R23). -/
def Rx.midStream (x : Rx) : Prop :=
  x.state = .decodingBlock ∧ x.dcur < x.dbuf.length ∨ x.state = .idle ∧ x.dbuf = []

/-- RX.READ with undelivered bytes in the buffer delivers some of them and keeps the others (R170). -/
theorem rxAnswer_delivers {n : Nat} {s : State} (hn : 1 ≤ n) (hs : s.rx.state = .decodingBlock)
    (hd : s.rx.dcur < s.rx.dbuf.length) :
    ∃ (b : Bytes) (x : Rx), rxAnswer n (.ok () s) = .next ((s.setRx x).setRxRsp (some (.data b))) ∧ b ≠ [] ∧
      x.midStream ∧ s.rx.dbuf.drop s.rx.dcur = b ++ x.dbuf.drop x.dcur := by
  have hlen : (memRead s.rx.dbuf s.rx.dcur (min n (s.rx.dbuf.length - s.rx.dcur))).length =
      min n (s.rx.dbuf.length - s.rx.dcur) := by simp [memRead]
  have hne : memRead s.rx.dbuf s.rx.dcur (min n (s.rx.dbuf.length - s.rx.dcur)) ≠ [] :=
    List.ne_nil_of_length_pos (by omega)
  simp only [rxAnswer, hs, rxDeliver, reduceCtorEq, if_false]
  split_ifs with hdrained
  · refine ⟨_, _, rfl, hne, .inr ⟨rfl, rfl⟩, ?_⟩
    simp [memRead, List.take_of_length_le, show s.rx.dbuf.length - s.rx.dcur ≤ n by omega]
  · exact ⟨_, _, rfl, hne, .inl ⟨rfl, by simp; omega⟩, by simp [memRead]⟩

/-- From `s` on RX has yet to deliver `due`: what stands undelivered in its buffer and the blocks of the records that
the source holds next, up to the end marker that `tail` follows. -/
structure Delivering (bs : Nat) (tail due : Bytes) (s : State) : Prop where
  midStream : s.rx.midStream
  cooperates : s.source.cooperates
  container : ∃ (blocks : List Bytes) (wire : Bytes), Stored (scOf bs) blocks wire ∧
    (∀ o ∈ blocks, 1 ≤ o.length ∧ o.length ≤ bs ∧ backendsInvert o) ∧
    s.source.rest = wire ++ (markerBytes (scOf bs) ++ tail) ∧ due = s.rx.dbuf.drop s.rx.dcur ++ blocks.flatten

/-- The fetch of RX.READ ends the stream if nothing is due, else it leaves undelivered bytes in the buffer (R170). -/
theorem Delivering.fetch {bs : Nat} {tail due : Bytes} {s : State} (h : Delivering bs tail due s)
    (hbs : legalBlockSize bs = true) :
    (due = [] ∧ ∃ s1, rxFetch s = .ok () s1 ∧ s1.rx.state = .terminated ∧ s1.source.rest = tail) ∨
      ∃ s1, rxFetch s = .ok () s1 ∧ Delivering bs tail due s1 ∧ s1.rx.state = .decodingBlock ∧
        s1.rx.dcur < s1.rx.dbuf.length := by
  obtain ⟨hst, hd⟩ | ⟨hst, hempty⟩ := h.midStream
  · exact .inr ⟨s, rxFetch_of_decodingBlock hst, h, hst, hd⟩
  · obtain ⟨blocks, wire, hstored, hok, hrest, hdue⟩ := h.container
    rw [rxFetch_of_idle hst]
    simp only [hempty, List.drop_nil, List.nil_append] at hdue
    cases hstored with
    | nil =>
      obtain ⟨src, hr, hrefill⟩ := rxRefill_of_marker h.cooperates hrest
      exact .inl ⟨hdue, _, hrefill, rfl, hr⟩
    | cons hc hstored =>
      rename_i orig c blocks wire
      obtain ⟨h1, hle, hinv⟩ := hok orig (by simp)
      rw [List.append_assoc] at hrest
      obtain ⟨src, m, hr, hcoop, hrefill⟩ := rxRefill_of_record hbs h1 hle hc hinv h.cooperates hrest
      refine .inr ⟨_, hrefill, ⟨.inl ⟨rfl, h1⟩, hcoop, blocks, wire, hstored, ?_, hr, ?_⟩, rfl, h1⟩
      · exact fun o ho => hok o (List.mem_cons_of_mem _ ho)
      · simpa using hdue

/-- RX.READ answers EndOfInput if nothing is due, and otherwise the first bytes of what is due (R170, R180). -/
theorem Delivering.read {bs n : Nat} {tail due : Bytes} {s : State} (h : Delivering bs tail due s)
    (hbs : legalBlockSize bs = true) (hn : 1 ≤ n) :
    (due = [] ∧ ∃ t, exec (.rxRead n) s = .next t ∧ t.rxRsp = some .endOfInput ∧ t.rx.state = .terminated ∧
        t.source.rest = tail) ∨
      ∃ b due' t, due = b ++ due' ∧ b ≠ [] ∧ exec (.rxRead n) s = .next t ∧ t.rxRsp = some (.data b) ∧
        Delivering bs tail due' t := by
  have hstate : s.rx.state = .uninitialized ∨ s.rx.state = .idle ∨ s.rx.state = .decodingBlock := by
    obtain ⟨hst, -⟩ | ⟨hst, -⟩ := h.midStream <;> simp [hst]
  rw [rxRead_fetches hn hstate]
  obtain ⟨hdue, s1, hfetch, hst, hrest⟩ | ⟨s1, hfetch, hdel, hst, hd⟩ := h.fetch hbs
  · exact .inl ⟨hdue, s1.setRxRsp (some .endOfInput), by simp [hfetch, rxAnswer, hst], rfl, hst, hrest⟩
  · obtain ⟨b, x, hans, hb, hx, hsplit⟩ := rxAnswer_delivers hn hst hd
    obtain ⟨-, hcoop, blocks, wire, hstored, hok, hrest, hdue⟩ := hdel
    exact .inr ⟨b, x.dbuf.drop x.dcur ++ blocks.flatten, (s1.setRx x).setRxRsp (some (.data b)),
      by rw [hdue, hsplit, List.append_assoc], hb, hfetch ▸ hans, rfl,
      hx, hcoop, blocks, wire, hstored, hok, hrest, rfl⟩

/-- DECODE-ALL answers what is due, then EndOfInput, and stops after the marker (R91, R180). -/
theorem Delivering.decodeAll {bs n fuel : Nat} {tail due : Bytes} {s : State} (h : Delivering bs tail due s)
    (hbs : legalBlockSize bs = true) (hn : 1 ≤ n) (hf : due.length < fuel) :
    ∃ u, decodeAll n fuel s = (due, some .endOfInput, u) ∧ u.source.rest = tail ∧ u.rx.state = .terminated := by
  induction fuel generalizing due s with
  | zero => omega
  | succ fuel ih =>
    obtain ⟨rfl, t, hexec, hrsp, hst, hrest⟩ | ⟨b, due', t, rfl, hb, hexec, hrsp, ht⟩ := h.read hbs hn
    · exact ⟨t, decodeAll_end hexec hrsp, hrest, hst⟩
    · have hpos := List.length_pos_iff.mpr hb
      obtain ⟨u, hu, hrest, hst⟩ := ih ht (by rw [List.length_append] at hf; omega)
      exact ⟨u, by rw [decodeAll_data hexec hrsp, hu], hrest, hst⟩

/-- Settles O60: what ENCODE puts (`encodeRun_ok`) is, after MAGIC, a container that `Delivering.decodeAll` delivers. -/
theorem encodeThenDecodeIsTheData : Obligations.EncodeThenDecodeIsTheData := by
  intro bs data tail n tx t rx htx hbs hrun hok hn hrx hcoop hwire
  obtain ⟨blocks, wire, hstored, rfl, hblocks, hacc⟩ := encodeRun_ok htx hbs hrun hok
  by_cases hinv : ∀ o ∈ blocks, backendsInvert o
  · right
    have hrest : rx.source.rest = magic ++ (wire ++ (markerBytes (scOf bs.toNat) ++ tail)) := by
      rw [hacc] at hwire
      simpa [List.append_assoc] using hwire
    obtain ⟨src, hr, hc, hinit⟩ := rxInit_of_magic hcoop hrest
    rw [hrx] at hinit
    have hdel : Delivering bs.toNat tail blocks.flatten
        (rxPrologueRead ((rx.setSource src).setRx (Rx.reset.moved magic.length))) :=
      ⟨.inr ⟨rfl, rfl⟩, hc, blocks, wire, hstored,
        fun o ho => ⟨(hblocks o ho).1, (hblocks o ho).2.1, hinv o ho⟩, hr, rfl⟩
    obtain ⟨u, hu, htail, hterm⟩ := hdel.decodeAll (n := n) hbs hn (Nat.lt_succ_self _)
    have hfirst := rxRead_of_init hn (by rw [hrx]; rfl) hinit
    exact ⟨u, (decodeAll_congr hfirst (congrArg (·.2.1) hu)).trans hu, htail, hterm⟩
  · left
    unfold backendsInvert at hinv
    push Not at hinv
    obtain ⟨o, ho, c, hc, hlt, hne⟩ := hinv
    obtain ⟨-, -, i, rfl⟩ := hblocks o ho
    exact ⟨i, c, hc, hlt, hne⟩

end Sys2Proof.Machine
end

section
/-! PROOFS. The stream primitives run as one instruction (R17), RX.REFILL at the end of the source, CK.GEN, and the
step. -/

namespace Sys2Proof.Machine

/-! ### The stream primitives as instructions (R17) -/

theorem opAnswer_of_ok {α : Type} {f : α → OpResult} {r : Res α} {a : α} {s : State} (h : r = .ok a s) :
    opAnswer f r = .next (s.setOpResult (f a)) := by rw [h]; rfl

theorem opAnswer_of_raised {α : Type} {f : α → OpResult} {r : Res α} {e : Raise} {s : State} (h : r = .raised e s) :
    opAnswer f r = .next (s.setOpResult (.raised e)) := by rw [h]; rfl

theorem opAnswer_of_stuck {α : Type} {f : α → OpResult} {r : Res α} {x : Fault} (h : r = .stuck x) :
    opAnswer f r = .fault x := by rw [h]; rfl

theorem exec_srcGet {s : State} (hs : s.rx.state = .uninitialized ∨ s.rx.state = .idle) (n : Nat) :
    exec (.srcGet n) s = opAnswer .source (srcGet n s) := by
  simp [exec, execSrcGet, whenRx, hs]

theorem exec_sinkPut {s : State} (hs : s.tx.state = .ready) (b : Bytes) :
    exec (.sinkPut b) s = opAnswer (fun _ => .done) (sinkPut b s) := by
  simp [exec, execSinkPut, whenTxReady, hs]

theorem exec_sinkFlush {s : State} (hs : s.tx.state = .ready) :
    exec .sinkFlush s = opAnswer (fun _ => .done) (sinkFlush s) := by
  simp [exec, execSinkFlush, whenTxReady, hs]

theorem exec_rxRefill {s : State} (hs : s.rx.state = .idle) :
    exec .rxRefill s = opAnswer (fun _ => .done) (rxRefill s) := by
  simp [exec, execRxRefill, whenRx, hs]

/-- Settles O14: what is consumed is `srcGet_of_cooperates`, the requests are `srcGetLoop_requests`. -/
theorem srcGetConsumesExactlyItsResult : Obligations.SrcGetConsumesExactlyItsResult := by
  intro n s hs hcoop
  obtain ⟨src, hrest, -, hget⟩ := srcGet_of_cooperates n s hcoop
  obtain ⟨chunks, extra, hpos, hcase, hreq, hans, hused⟩ := srcGetLoop_requests (by simp) (by simp) hget
  have hchunks : chunks.flatten = s.source.rest.take n ∧ extra = if n ≤ s.source.rest.length then 0 else 1 := by
    split_ifs at hcase ⊢ with hn
    · simpa [eq_comm] using hcase
    · simpa [eq_comm, List.take_of_length_le (Nat.le_of_not_le hn)] using hcase
  obtain ⟨hflat, rfl⟩ := hchunks
  refine ⟨_, (exec_srcGet hs n).trans (opAnswer_of_ok hget), rfl, hrest, rfl, ⟨rfl, rfl, rfl, rfl, rfl⟩, rfl, chunks,
    hpos, hflat, ?_, hans, hused⟩
  simpa using hreq

/-- Settles O15: the bytes are `sinkPut_of_cooperates`, the note of a request `sinkPutLoop_used`. -/
theorem sinkPutAppendsAllBytes : Obligations.SinkPutAppendsAllBytes := by
  intro b s hs hcoop
  obtain ⟨k, hput, happ, -⟩ := sinkPut_of_cooperates b s hcoop
  have hused := sinkPutLoop_used le_rfl hput
  exact ⟨_, (exec_sinkPut hs b).trans (opAnswer_of_ok hput), rfl, happ.accepted, happ.flushed, happ.flushRequests,
    hused, rfl, ⟨rfl, rfl, rfl, rfl⟩, rfl, rfl⟩

/-- Settles O16 by `sinkFlush_of_cooperates`. -/
theorem sinkFlushCoversAllAccepted : Obligations.SinkFlushCoversAllAccepted := by
  intro s hs hcoop
  obtain ⟨k, hflush, hacc, hflushed, hreq, -, hused⟩ := sinkFlush_of_cooperates s hcoop
  exact ⟨_, (exec_sinkFlush hs).trans (opAnswer_of_ok hflush), rfl, hacc, hflushed, hreq, hused, rfl,
    ⟨rfl, rfl, rfl, rfl⟩, rfl, rfl⟩

/-- Settles O33: what SrcGet(13) gets of fewer than 13 bytes is short, and empty only between two blocks. -/
theorem rxRefillAtTheEndOfTheSource : Obligations.RxRefillAtTheEndOfTheSource := by
  intro s hs hcoop hlt
  obtain ⟨src, hrest, -, hget⟩ := srcGet_of_cooperates 13 s hcoop
  simp only [Nat.not_le.mpr hlt, if_false, Nat.min_eq_right hlt.le] at hget
  have hempty : src.rest = [] := by rw [hrest, List.drop_eq_nil_of_le hlt.le]
  have hrefill : rxRefill s = _ := congrArg (Res.bind · _) hget
  cases hr : s.source.rest with
  | nil =>
    simp only [hr, Res.bind_ok] at hrefill
    cases he : Config.eofAtBoundary with
    | clean =>
      simp only [rxBoundaryEnd, he] at hrefill
      exact ⟨_, (exec_rxRefill hs).trans (opAnswer_of_ok hrefill), ⟨rfl, rfl, rfl, rfl, rfl⟩, rfl, hempty, rfl,
        fun _ _ => ⟨rfl, rfl⟩, fun _ => nofun, fun h => absurd rfl h⟩
    | truncation =>
      simp only [rxBoundaryEnd, he] at hrefill
      exact ⟨_, (exec_rxRefill hs).trans (opAnswer_of_raised hrefill), ⟨rfl, rfl, rfl, rfl, rfl⟩, rfl, hempty, rfl,
        fun _ => nofun, fun _ _ => ⟨rfl, rfl, rfl⟩, fun h => absurd rfl h⟩
  | cons b bs =>
    simp only [hr, Res.bind_ok] at hrefill
    exact ⟨_, (exec_rxRefill hs).trans (opAnswer_of_raised hrefill), ⟨rfl, rfl, rfl, rfl, rfl⟩, rfl, hempty, rfl,
      nofun, nofun, fun _ => ⟨rfl, rfl, rfl⟩⟩

/-! ### The checksum and the step -/

/-- Settles O12: CK.GEN answers HASH32, whose one sourced value is its definition's first case. -/
theorem ckGenIsAFunctionOfTheBytes : Obligations.CkGenIsAFunctionOfTheBytes := by
  refine ⟨fun orig s => rfl, fun s => ?_⟩
  have hvalue : hash32 [46, 46, 46] = 0x0677E452 := if_pos rfl
  exact congrArg (fun v => Host.Outcome.next (s.setOpResult (.word v))) hvalue

/-- A step on a transaction at RX's port runs its command, if there is one (R20, R88). -/
theorem step_rx {c : RxCmd} {rest : List HostInput} {s : State} (h : s.inbox = .rx c :: rest) :
    step s = runEncoded (.rx c) (s.setInbox rest) := by
  simp [step, h, runInput]

/-- Settles O48: `step_tx` and `step_rx` on what the decoder gives. -/
theorem stepRunsTheDecodedCommand : Obligations.StepRunsTheDecodedCommand := by
  refine ⟨fun c i rest s h hi => step_tx h hi, fun c i rest s h hi => ?_, fun n rest s h => ?_, fun s h => ?_⟩
  · simp [step_rx h, runEncoded, hi]
  · rw [step_rx h]
    rfl
  · simp [step, h]

end Sys2Proof.Machine
end

section
/-! PROOFS. What an instruction of RX can do: it answers by one of RX's runs of steps; its error entry (R206). -/

namespace Sys2Proof.Machine

/-! ### What an instruction of RX can do -/

/-- The run without the value it answers. -/
def Res.discard {α : Type} (r : Res α) : Res Unit := r.bind fun _ s => .ok () s

/-- The runs of steps that RX's records, operations and command are made of (R89, R170): none, or one of these. -/
inductive RxRun (s : State) : Res Unit → Prop where
  | none : RxRun s (.ok () s)
  | get (n : Nat) : RxRun s (srcGet n s).discard
  | init : RxRun s (rxInit s)
  | refill : RxRun s (rxRefill s)
  | payload (m : Method) (clen olen csum : U32) : RxRun s (rxPayload m clen olen csum s)
  | fetch : RxRun s (rxFetch s)

/-- What instruction `i` makes of its run from `s` (R88, R206): it leaves the source to the run and does not fail after
a run that went on; it answers the error the run raised; it hangs where the run hangs; or it is refused without one. -/
def RxAnswers (i : Instr) (s : State) : Res Unit → Host.Outcome State Fault Refusal → Prop
  | .ok _ s1, .next t => t.source = s1.source ∧ (t.rx.state = .failed → s.rx.state = .failed)
  | .raised e s1, .next t => t.source = s1.source ∧ t.rx = s1.rx ∧
      ((∃ n, i = .rxRead n) → t.rxRsp = some (.err e.kind e.info)) ∧ ((∀ n, i ≠ .rxRead n) → t.opResult = .raised e)
  | .stuck f, o => o = .fault f
  | .ok _ _, .refused _ => True
  | _, _ => False

@[simp] theorem Res.discard_unit (r : Res Unit) : r.discard = r := by cases r <;> rfl

/-- `i` answers `o` by one of RX's runs. -/
def RxRuns (i : Instr) (s : State) (o : Host.Outcome State Fault Refusal) : Prop :=
  ∃ r, RxRun s r ∧ RxAnswers i s r o

section
variable {i : Instr} {s : State}

theorem rxRuns_refused (q : Refusal) : RxRuns i s (.refused q) := ⟨_, .none, trivial⟩

theorem rxRuns_whenRx {states : List RxState} {body : Host.Outcome State Fault Refusal}
    (h : s.rx.state ∈ states → RxRuns i s body) : RxRuns i s (whenRx s states body) := by
  unfold whenRx
  split_ifs with hs
  · exact h hs
  · exact rxRuns_refused _

theorem rxRuns_whenOperands {ok : Bool} {body : Host.Outcome State Fault Refusal} (h : ok = true → RxRuns i s body) :
    RxRuns i s (whenOperands ok body) := by
  unfold whenOperands
  split_ifs with hs
  · exact h hs
  · exact rxRuns_refused _

/-- A record or an operation answers its run in `opResult` (log entry 7). -/
theorem rxRuns_opAnswer {α : Type} {f : α → OpResult} {r : Res α} (hr : RxRun s r.discard) (hi : ∀ n, i ≠ .rxRead n)
    (hok : ∀ a s1, r = .ok a s1 → s1.rx.state ≠ .failed) : RxRuns i s (opAnswer f r) := by
  refine ⟨_, hr, ?_⟩
  cases r with
  | ok a s1 => exact ⟨rfl, fun h => absurd h (hok a s1 rfl)⟩
  | raised e s1 => exact ⟨rfl, rfl, fun ⟨n, hn⟩ => absurd hn (hi n), fun _ => rfl⟩
  | stuck x => rfl

theorem srcGet_ok_state {n : Nat} {s s1 : State} {a : SrcResult} (h : srcGet n s = .ok a s1) :
    s1.rx.state = s.rx.state := by
  have hp := srcGet_post n s
  rw [h] at hp
  obtain ⟨src, b, rfl, -⟩ := hp
  rfl

theorem rxRefill_ok_not_failed {s s1 : State} (h : rxRefill s = .ok () s1) : s1.rx.state ≠ .failed := by
  obtain hst | ⟨hst, -⟩ := rxRefill_ok h <;> simp [hst]

theorem rxPayload_ok_not_failed {m : Method} {clen olen csum : U32} {s s1 : State}
    (hd : dataLengths m clen olen = true) (h : rxPayload m clen olen csum s = .ok () s1) : s1.rx.state ≠ .failed := by
  obtain ⟨hst, -⟩ := rxPayload_ok h hd
  simp [hst]

theorem rxFetch_ok_not_failed {s s2 : State} (hs : s.rx.state ≠ .failed) (h : rxFetch s = .ok () s2) :
    s2.rx.state ≠ .failed := by
  obtain ⟨_, s1, h1, h2⟩ := Res.bind_eq_ok h
  split_ifs at h2
  · exact rxRefill_ok_not_failed h2
  · cases h2
    split_ifs at h1
    · simp [rxInit_ok h1]
    · cases h1
      exact hs

theorem rxDeliver_source (n : Nat) (s : State) : (rxDeliver n s).2.source = s.source := by
  unfold rxDeliver
  dsimp only
  split_ifs <;> rfl

theorem rxDeliver_not_failed {n : Nat} {s : State} (hs : s.rx.state ≠ .failed) :
    (rxDeliver n s).2.rx.state ≠ .failed := by
  unfold rxDeliver
  dsimp only
  split_ifs
  · simp
  · exact hs

/-- RX.READ answers its fetch at its port (R170). -/
theorem rxRuns_rxAnswer (n : Nat) (hs : s.rx.state ≠ .failed) : RxRuns (.rxRead n) s (rxAnswer n (rxFetch s)) := by
  refine ⟨_, .fetch, ?_⟩
  cases h : rxFetch s with
  | ok _ s1 =>
    have h1 := rxFetch_ok_not_failed hs h
    simp only [rxAnswer]
    split_ifs
    · exact ⟨rfl, fun hf => absurd hf h1⟩
    · exact ⟨rxDeliver_source n s1, fun hf => absurd hf (rxDeliver_not_failed h1)⟩
  | raised e s1 => exact ⟨rfl, rfl, fun _ => rfl, fun hn => absurd rfl (hn n)⟩
  | stuck x => rfl

theorem rxRuns_rxRead (n : Nat) : RxRuns (.rxRead n) s (exec (.rxRead n) s) := by
  change RxRuns _ s (execRxRead n s)
  unfold execRxRead
  split_ifs
  · exact rxRuns_refused _
  · split
    · unfold rxLatched
      split
      · exact ⟨_, .none, rfl, id⟩
      · exact rxRuns_refused _
    · exact ⟨_, .none, rfl, id⟩
    all_goals exact rxRuns_rxAnswer n (by simp [*])

/-- Every instruction of RX answers by one of RX's runs. -/
theorem exec_rxRuns (hi : ofRx i = true) : RxRuns i s (exec i s) := by
  have payload {m : Method} {clen olen csum : U32} {ok : Bool} (hi : ∀ n, i ≠ .rxRead n)
      (hok : ok = true → dataLengths m clen olen = true) :
      RxRuns i s (whenRx s [.idle] (whenOperands ok (opAnswer (fun _ => .done) (rxPayload m clen olen csum s)))) :=
    rxRuns_whenRx fun _ => rxRuns_whenOperands fun h => rxRuns_opAnswer (by simpa using .payload m clen olen csum) hi
      fun _ _ => rxPayload_ok_not_failed (hok h)
  cases i with
  | prologue => exact rxRuns_whenRx fun _ => ⟨_, .none, rfl, nofun⟩
  | endMarker sc => exact rxRuns_whenRx fun _ => ⟨_, .none, rfl, nofun⟩
  | blkRaw sc len csum => exact payload nofun fun h => (Bool.and_eq_true _ _ ▸ h).1
  | blkLz4 sc clen olen csum => exact payload nofun fun h => (Bool.and_eq_true _ _ ▸ h).1
  | rxRead n => exact rxRuns_rxRead n
  | rxInit =>
    exact rxRuns_whenRx fun _ => rxRuns_opAnswer (by simpa using .init) nofun fun _ _ h => by simp [rxInit_ok h]
  | rxRefill =>
    exact rxRuns_whenRx fun _ => rxRuns_opAnswer (by simpa using .refill) nofun fun _ _ => rxRefill_ok_not_failed
  | rxPayload m clen olen csum => exact payload nofun id
  | srcGet n =>
    refine rxRuns_whenRx fun hs => rxRuns_opAnswer (.get n) nofun fun _ _ h => ?_
    rw [srcGet_ok_state h]
    rintro hf
    simp [hf] at hs
  | txConfig | txWrite | txFlush | txFinish | txPrologue | txBlock | txMarker | sinkPut | sinkFlush | le32Enc | le32Dec
  | tokEnc | tokDec | scOf | hdrPack | hdrUnpack | hdrClassify | ckGen | ckVerify => cases hi

/-- RX's runs consume the source's next bytes, and fail as R206 says. -/
theorem RxRun.rxPost {r : Res Unit} (hr : RxRun s r) : RxPost s r := by
  cases hr with
  | none => exact ⟨[], .refl s⟩
  | get n => exact srcGet_bind_rxPost fun _ s1 _ _ _ => ⟨[], .refl s1⟩
  | init => exact rxInit_rxPost s
  | refill => exact rxRefill_rxPost s
  | payload => exact rxPayload_rxPost _ _ _ _ s
  | fetch => exact rxFetch_rxPost s

/-- What SrcGet does with an answer to come, every run of RX does. -/
theorem RxRun.srcPost {due : Source → Prop} {used : Raise → Source → Prop} {hangs : Fault → Prop}
    (hget : ∀ (n : Nat) (s : State), due s.source → SrcPost due used hangs (srcGet n s)) {r : Res Unit}
    (hr : RxRun s r) (h : due s.source) : SrcPost due used hangs r := by
  cases hr with
  | none => exact h
  | get n => exact (hget n s h).bind fun _ _ h1 => h1
  | init => exact rxInit_srcPost hget h
  | refill => exact rxRefill_srcPost hget h
  | payload => exact rxPayload_srcPost hget _ _ _ _ h
  | fetch => exact rxFetch_srcPost hget h

/-- What an instruction of RX that answers has done with an answer of the source to come: it is still to come, or the
instruction answers the error it raised on using it (R208). -/
theorem exec_ofRx_due {due : Source → Prop} {used : Raise → Source → Prop} {hangs : Fault → Prop}
    (hget : ∀ (n : Nat) (s : State), due s.source → SrcPost due used hangs (srcGet n s)) {t : State}
    (hi : ofRx i = true) (hexec : exec i s = .next t) (h : due s.source) :
    due t.source ∨ ∃ e, used e t.source ∧ t.rx.state = .failed ∧ t.rx.err = some e.kind ∧
      ((∃ n, i = .rxRead n) → t.rxRsp = some (.err e.kind e.info)) ∧
      ((∀ n, i ≠ .rxRead n) → t.opResult = .raised e) := by
  obtain ⟨r, hrun, hans⟩ := exec_rxRuns (s := s) hi
  have hsrc := hrun.srcPost hget h
  have hpost := hrun.rxPost
  rw [hexec] at hans
  cases r with
  | ok _ s1 => exact .inl (hans.1 ▸ hsrc)
  | raised e s1 =>
    obtain ⟨hsource, hrx, hrsp, hop⟩ := hans
    obtain ⟨-, src, b, -, rfl⟩ := hpost
    rw [hsource, hrx]
    exact hsrc.imp id fun hu => ⟨e, hu, rfl, rfl, hrsp, hop⟩
  | stuck f => cases hans

end

/-- Settles O45: an instruction of RX that fails answers the error its run raised, and every run fails as R206 says. -/
theorem rxErrorEntry : Obligations.RxErrorEntry := by
  intro i s t hi hexec hs ht
  obtain ⟨r, hrun, hans⟩ := exec_rxRuns (s := s) hi
  have hpost := hrun.rxPost
  rw [hexec] at hans
  cases r with
  | ok _ s1 => exact absurd (hans.2 ht) hs
  | raised e s1 =>
    obtain ⟨hsource, hrx, hrsp, hop⟩ := hans
    obtain ⟨⟨hk, hinfo⟩, src, b, hrest, rfl⟩ := hpost
    exact ⟨e.kind, e.info, by rw [hrx]; rfl, hk, by rw [hrx]; rfl, by rw [hrx]; rfl,
      ⟨b, by rw [hsource]; exact hrest, by rw [hrx]; rfl⟩, hinfo, hrsp, hop⟩
  | stuck f => cases hans

end Sys2Proof.Machine
end

section
/-! PROOFS. What an instruction of TX can do: it answers by one of TX's runs of steps (R207). -/

namespace Sys2Proof.Machine

/-! ### What an instruction of TX can do -/

/-- The command's requests of TX.FLUSH (R142). -/
def txFlushRun (s : State) : Res Unit := (txEmitPending s).bind fun _ s1 => sinkFlush s1

/-- The requests of TX.FINISH (R143), before it becomes Finished. -/
def txFinishRun (s : State) : Res Unit :=
  (txEmitPending s).bind fun _ s1 => (txMarker s1).bind fun _ s2 => sinkFlush s2

/-- The runs of steps that TX's operations and commands are made of (R89, R141 to R147): none, or one of these. A
command's is made in Ready. -/
inductive TxRun (s : State) : Res Unit → Prop where
  | none : TxRun s (.ok () s)
  | put (b : Bytes) : TxRun s (sinkPut b s)
  | flush : TxRun s (sinkFlush s)
  | prologue : TxRun s (txPrologue s)
  | block (orig : Bytes) : TxRun s (txBlock orig s)
  | marker : TxRun s (txMarker s)
  | writeCommand (data : Bytes) (hs : s.tx.state = .ready) : TxRun s (txWriteLoop data.length data s)
  | flushCommand : TxRun s (txFlushRun s)
  | finishCommand : TxRun s (txFinishRun s)

/-- What instruction `i` makes of its run (R88, R207): it leaves the sink to the run; it answers the error the run
raised, a command at its port; it hangs where the run hangs; or it is refused without a run. -/
def TxAnswers (i : Instr) : Res Unit → Host.Outcome State Fault Refusal → Prop
  | .ok _ s1, .next t => t.sink = s1.sink
  | .raised e s1, .next t => t.sink = s1.sink ∧ t.tx = s1.tx ∧
      ((∃ data, i = .txWrite data) ∨ i = .txFlush ∨ i = .txFinish → t.txRsp = some (.err e.kind e.info)) ∧
      (i = .txPrologue ∨ (∃ orig, i = .txBlock orig) ∨ i = .txMarker ∨ (∃ b, i = .sinkPut b) → t.opResult = .raised e)
  | .stuck f, o => o = .fault f
  | .ok _ _, .refused _ => True
  | _, _ => False

/-- `i` answers `o` by one of TX's runs. -/
def TxRuns (i : Instr) (s : State) (o : Host.Outcome State Fault Refusal) : Prop := ∃ r, TxRun s r ∧ TxAnswers i r o

section
variable {i : Instr} {s : State}

theorem txRuns_refused (q : Refusal) : TxRuns i s (.refused q) := ⟨_, .none, trivial⟩

theorem txRuns_whenTxReady {body : Host.Outcome State Fault Refusal} (h : TxRuns i s body) :
    TxRuns i s (whenTxReady s body) := by
  unfold whenTxReady
  split_ifs
  · exact h
  · exact txRuns_refused _

theorem txRuns_whenOperands {ok : Bool} {body : Host.Outcome State Fault Refusal} (h : TxRuns i s body) :
    TxRuns i s (whenOperands ok body) := by
  unfold whenOperands
  split_ifs
  · exact h
  · exact txRuns_refused _

/-- An operation answers its run in `opResult` (log entry 7). -/
theorem txRuns_opAnswer {f : Unit → OpResult} {r : Res Unit} (hr : TxRun s r)
    (hi : ¬ ((∃ data, i = .txWrite data) ∨ i = .txFlush ∨ i = .txFinish)) : TxRuns i s (opAnswer f r) := by
  refine ⟨r, hr, ?_⟩
  cases r with
  | ok a s1 => rfl
  | raised e s1 => exact ⟨rfl, rfl, fun h => absurd h hi, fun _ => rfl⟩
  | stuck x => rfl

/-- A command answers its run at its port, after a last step that makes no request (R143, R144). -/
theorem txRuns_txGated {r : Res Unit} {last : State → State} (hlast : ∀ s1, (last s1).sink = s1.sink)
    (hr : s.tx.state = .ready → TxRun s r)
    (hi : ¬ (i = .txPrologue ∨ (∃ orig, i = .txBlock orig) ∨ i = .txMarker ∨ (∃ b, i = .sinkPut b))) :
    TxRuns i s (txGated s (r.bind fun _ s1 => .ok () (last s1))) := by
  unfold txGated
  split
  · exact txRuns_refused _
  · refine ⟨r, hr ‹_›, ?_⟩
    cases r with
    | ok a s1 => exact hlast s1
    | raised e s1 => exact ⟨rfl, rfl, fun _ => rfl, fun h => absurd h hi⟩
    | stuck x => rfl
  · exact ⟨_, .none, rfl⟩
  · exact txRuns_refused _

theorem Res.bind_assoc {α β γ : Type} (r : Res α) (f : α → State → Res β) (g : β → State → Res γ) :
    (r.bind f).bind g = r.bind fun a s => (f a s).bind g := by cases r <;> rfl

theorem Res.bind_pure (r : Res Unit) : r.bind (fun _ s => .ok () (id s)) = r := by cases r <;> rfl

theorem txRuns_txConfig (bs : U32) : TxRuns (.txConfig bs) s (exec (.txConfig bs) s) := by
  change TxRuns _ s (execTxConfig bs s)
  unfold execTxConfig
  split
  · unfold txConfigure
    split
    · exact ⟨_, .none, rfl⟩
    · exact ⟨_, .none, rfl⟩
  all_goals exact txRuns_refused _

/-- Every instruction of TX answers by one of TX's runs. -/
theorem exec_txRuns (hi : ofTx i = true) : TxRuns i s (exec i s) := by
  cases i with
  | txConfig bs => exact txRuns_txConfig bs
  | txWrite data =>
    have h := txRuns_txGated (i := .txWrite data) (last := id) (fun _ => rfl) (.writeCommand (s := s) data) (by simp)
    rwa [Res.bind_pure] at h
  | txFlush =>
    have h := txRuns_txGated (i := .txFlush) (last := id) (fun _ => rfl) (fun _ => .flushCommand (s := s)) (by simp)
    rwa [Res.bind_pure] at h
  | txFinish =>
    have h := txRuns_txGated (i := .txFinish) (last := fun s3 => s3.setTx { s3.tx with state := .finished })
      (fun _ => rfl) (fun _ => .finishCommand (s := s)) (by simp)
    simp only [txFinishRun, Res.bind_assoc] at h
    exact h
  | txPrologue => exact txRuns_whenTxReady (txRuns_opAnswer .prologue (by simp))
  | txBlock orig => exact txRuns_whenTxReady (txRuns_whenOperands (txRuns_opAnswer (.block orig) (by simp)))
  | txMarker => exact txRuns_whenTxReady (txRuns_opAnswer .marker (by simp))
  | sinkPut b => exact txRuns_whenTxReady (txRuns_opAnswer (.put b) (by simp))
  | sinkFlush => exact txRuns_whenTxReady (txRuns_opAnswer .flush (by simp))
  | prologue | endMarker | blkRaw | blkLz4 | rxRead | rxInit | rxRefill | rxPayload | srcGet | le32Enc | le32Dec
  | tokEnc | tokDec | scOf | hdrPack | hdrUnpack | hdrClassify | ckGen | ckVerify => cases hi

/-- A run of TX that raises an error leaves it Failed (R207). -/
theorem TxRun.txPost {r : Res Unit} (hr : TxRun s r) : TxPost s r := by
  cases hr with
  | none => exact ⟨[], .refl s⟩
  | put b => exact sinkPut_txPost b s
  | flush => exact sinkFlush_txPost s
  | prologue => exact txPrologue_txPost s
  | block orig => exact txBlock_txPost orig s
  | marker => exact txMarker_txPost s
  | writeCommand data => exact txWriteLoop_txPost _ data s
  | flushCommand => exact (txEmitPending_txPost s).bind fun s1 _ _ _ => sinkFlush_txPost s1
  | finishCommand =>
    exact (txEmitPending_txPost s).bind fun s1 _ _ _ => (txMarker_txPost s1).bind fun s2 _ _ _ => sinkFlush_txPost s2

/-- What SinkPut, SinkFlush and the loop of TX.WRITE do with an answer to come, every run of TX does. -/
theorem TxRun.sinkPost {due : Sink → Prop} {used : Raise → Sink → Prop} {hangs : Fault → Prop}
    (hput : ∀ (b : Bytes) (s : State), due s.sink → SinkPost due used hangs (sinkPut b s))
    (hflush : ∀ s : State, due s.sink → SinkPost due used hangs (sinkFlush s))
    (hwrite : ∀ data, s.tx.state = .ready → SinkPost due used hangs (txWriteLoop data.length data s)) {r : Res Unit}
    (hr : TxRun s r) (h : due s.sink) : SinkPost due used hangs r := by
  cases hr with
  | none => exact h
  | put b => exact hput b s h
  | flush => exact hflush s h
  | prologue => exact txPrologue_sinkPost hput h
  | block orig => exact txBlock_sinkPost hput orig h
  | marker => exact txMarker_sinkPost hput h
  | writeCommand data hs => exact hwrite data hs
  | flushCommand => exact (txEmitPending_sinkPost hput h).bind fun s1 h1 => hflush s1 h1
  | finishCommand =>
    exact (txEmitPending_sinkPost hput h).bind fun s1 h1 => (txMarker_sinkPost hput h1).bind fun s2 h2 => hflush s2 h2

/-- What an instruction of TX that answers has done with an answer of the sink to come: it is still to come, or the
instruction answers the error it raised on using it (R208). -/
theorem exec_ofTx_due {due : Sink → Prop} {used : Raise → Sink → Prop}
    (hput : ∀ (b : Bytes) (s : State), due s.sink → SinkPost due used (fun _ => True) (sinkPut b s))
    (hflush : ∀ s : State, due s.sink → SinkPost due used (fun _ => True) (sinkFlush s)) {t : State}
    (hi : ofTx i = true) (hexec : exec i s = .next t) (h : due s.sink) :
    due t.sink ∨ ∃ e, used e t.sink ∧ t.tx.state = .failed ∧
      ((∃ data, i = .txWrite data) ∨ i = .txFlush ∨ i = .txFinish → t.txRsp = some (.err e.kind e.info)) ∧
      (i = .txPrologue ∨ (∃ orig, i = .txBlock orig) ∨ i = .txMarker ∨ (∃ b, i = .sinkPut b) →
        t.opResult = .raised e) := by
  obtain ⟨r, hrun, hans⟩ := exec_txRuns (s := s) hi
  have hsink := hrun.sinkPost hput hflush (fun data _ => txWriteLoop_sinkPost hput trivial _ data h) h
  have hpost := hrun.txPost
  rw [hexec] at hans
  cases r with
  | ok _ s1 =>
    have hs : t.sink = s1.sink := hans
    exact .inl (hs ▸ hsink)
  | raised e s1 =>
    obtain ⟨hs, htx, hrsp, hop⟩ := hans
    obtain ⟨-, k, p, n, -, -, rfl⟩ := hpost
    rw [hs, htx]
    exact hsink.imp id fun hu => ⟨e, hu, rfl, hrsp, hop⟩
  | stuck f => cases hans

end

end Sys2Proof.Machine
end

section
/-! PROOFS. The request that fails or hangs, after any number of good answers before it (R208, R244). -/

namespace Sys2Proof.Machine

@[simp] theorem State.setRx_setSource_setRx (s : State) (x y : Rx) (src : Source) :
    ((s.setRx x).setSource src).setRx y = (s.setSource src).setRx y := rfl

@[simp] theorem State.setTx_setSink_setTx (s : State) (x y : Tx) (k : Sink) :
    ((s.setTx x).setSink k).setTx y = (s.setSink k).setTx y := rfl

/-! ### The requests before the one that fails or hangs -/

/-- SrcGet goes through its good answers and comes to the next one with bytes still missing (R17). -/
theorem srcGetLoop_good {n fuel : Nat} {acc : Bytes} {s : State} {good : List Nat} {as : List SrcAnswer}
    (hans : s.source.answers = good.map .data ++ as) (hlt : acc.length + (good.map (· + 1)).sum < n)
    (hrest : (good.map (· + 1)).sum ≤ s.source.rest.length) (hfuel : n ≤ acc.length + fuel) :
    ∃ (fuel' : Nat) (acc' : Bytes) (src : Source), acc'.length < n ∧ src.answers = as ∧
      src.rest = s.source.rest.drop (good.map (· + 1)).sum ∧
      srcGetLoop n fuel acc s =
        srcGetLoop n (fuel' + 1) acc' ((s.setSource src).setRx (s.rx.moved (good.map (· + 1)).sum)) := by
  induction good generalizing fuel acc s with
  | nil =>
    obtain ⟨fuel, rfl⟩ : ∃ f, fuel = f + 1 := ⟨fuel - 1, by simp at hlt; omega⟩
    exact ⟨fuel, acc, s.source, by simpa using hlt, hans, by simp, by simp⟩
  | cons x good ih =>
    simp only [List.map_cons, List.sum_cons] at hlt hrest
    obtain ⟨fuel, rfl⟩ : ∃ f, fuel = f + 1 := ⟨fuel - 1, by omega⟩
    have hread : srcRead (n - acc.length) s =
        (.data (s.source.rest.take (x + 1)), s.setSource (s.source.asked (n - acc.length) (x + 1))) := by
      have hne : s.source.rest ≠ [] := List.ne_nil_of_length_pos (by omega)
      have hmin : min (n - acc.length) (x + 1) = x + 1 := by omega
      simp [srcRead, hans, hmin, hne]
    have hlen : (s.source.rest.take (x + 1)).length = x + 1 := by
      rw [List.length_take]
      omega
    rw [srcGetLoop, if_pos (by omega), hread]
    obtain ⟨fuel', acc', src, hacc', hans', hrest', hloop⟩ := ih (fuel := fuel)
      (acc := acc ++ s.source.rest.take (x + 1))
      (s := (s.setSource (s.source.asked (n - acc.length) (x + 1))).setRx (s.rx.moved (x + 1)))
      (by simp [Source.asked, hans]) (by rw [List.length_append, hlen]; omega)
      (show _ ≤ (s.source.rest.drop (x + 1)).length by rw [List.length_drop]; omega)
      (by rw [List.length_append, hlen]; omega)
    refine ⟨fuel', acc', src, hacc', hans', ?_, ?_⟩
    · simpa [Source.asked] using hrest'
    · simpa [hlen] using hloop

/-- The source's error, after any number of good answers, is what SrcGet raises (R208). -/
theorem srcGet_ioError {n : Nat} {s : State} {good : List Nat} {e : EndpointError} {as : List SrcAnswer}
    (hans : s.source.answers = good.map .data ++ .ioError e :: as) (hlt : (good.map (· + 1)).sum < n)
    (hrest : (good.map (· + 1)).sum ≤ s.source.rest.length) :
    ∃ src : Source, src.answers = as ∧ src.rest = s.source.rest.drop (good.map (· + 1)).sum ∧
      srcGet n s = .raised ⟨.io, some (.endpointError e)⟩
        ((s.setSource src).setRx ((s.rx.moved (good.map (· + 1)).sum).failedWith .io)) := by
  obtain ⟨fuel, acc, src, hacc, hans', hrest', hloop⟩ :=
    srcGetLoop_good (fuel := n) (acc := []) hans (by simpa using hlt) hrest (by simp)
  refine ⟨src.asked (n - acc.length) 0, by simp [Source.asked, hans'], by simpa [Source.asked] using hrest', ?_⟩
  rw [srcGet, hloop, srcGetLoop, if_pos hacc]
  simp [srcRead, hans', raising]

/-- A request the source never answers, after any number of good answers, hangs SrcGet (R244). -/
theorem srcGet_never {n : Nat} {s : State} {good : List Nat} {as : List SrcAnswer}
    (hans : s.source.answers = good.map .data ++ .never :: as) (hlt : (good.map (· + 1)).sum < n)
    (hrest : (good.map (· + 1)).sum ≤ s.source.rest.length) : srcGet n s = .stuck .sourceNeverAnswers := by
  obtain ⟨fuel, acc, src, hacc, hans', -, hloop⟩ :=
    srcGetLoop_good (fuel := n) (acc := []) hans (by simpa using hlt) hrest (by simp)
  rw [srcGet, hloop, srcGetLoop, if_pos hacc]
  simp [srcRead, hans']

/-- SinkPut goes through its good answers and comes to the next one with bytes still to put (R17). -/
theorem sinkPutLoop_good {fuel : Nat} {b : Bytes} {s : State} {good : List Nat} {as : List SinkAnswer}
    (hans : s.sink.answers = good.map (fun c => .count (c + 1)) ++ as) (hlt : (good.map (· + 1)).sum < b.length)
    (hfuel : b.length ≤ fuel) :
    ∃ (fuel' : Nat) (k : Sink), k.answers = as ∧ k.accepted = s.sink.accepted ++ b.take (good.map (· + 1)).sum ∧
      sinkPutLoop fuel b s = sinkPutLoop (fuel' + 1) (b.drop (good.map (· + 1)).sum)
        ((s.setSink k).setTx (s.tx.moved (good.map (· + 1)).sum)) := by
  induction good generalizing fuel b s with
  | nil =>
    obtain ⟨fuel, rfl⟩ : ∃ f, fuel = f + 1 := ⟨fuel - 1, by omega⟩
    exact ⟨fuel, s.sink, hans, by simp, by simp⟩
  | cons x good ih =>
    simp only [List.map_cons, List.sum_cons] at hlt
    obtain ⟨fuel, rfl⟩ : ∃ f, fuel = f + 1 := ⟨fuel - 1, by omega⟩
    have hwrite : sinkWrite b s = (.count (x + 1), s.setSink (s.sink.written (b.take (x + 1)))) := by
      simp [sinkWrite, hans, show min (x + 1) b.length = x + 1 by omega]
    rw [sinkPutLoop, if_neg (List.ne_nil_of_length_pos (by omega)), hwrite]
    obtain ⟨fuel', k, hans', hacc, hloop⟩ := ih (fuel := fuel) (b := b.drop (x + 1))
      (s := (s.setSink (s.sink.written (b.take (x + 1)))).setTx (s.tx.moved (x + 1)))
      (by simp [Sink.written, hans]) (by rw [List.length_drop]; omega) (by rw [List.length_drop]; omega)
    refine ⟨fuel', k, hans', ?_, ?_⟩
    · simpa [Sink.written, List.append_assoc, List.take_add] using hacc
    · simpa using hloop

/-- TX's error entry with IoError (R207), on the sink `k` it leaves, `counted` bytes counted. -/
def State.txIoFailed (s : State) (k : Sink) (counted : Nat) : State :=
  ((s.setSink k).setTx ((s.tx.moved counted).failedWith s.freeCount)).setFreeCount (s.freeCount + 1)

theorem raising_tx_io {α : Type} (info : ErrInfo) (s : State) (k : Sink) :
    (raising .tx .io (some info) (s.setSink k) : Res α) = .raised ⟨.io, some info⟩ (s.txIoFailed k 0) := by
  rw [raising, raiseError_tx_fatal _ (by simp) (by simp)]
  rfl

/-- A failing answer met by the next request of SinkPut. -/
theorem sinkPutLoop_failsWith {fuel : Nat} {b : Bytes} {s : State} {bad : SinkAnswer} {info : ErrInfo}
    {as : List SinkAnswer} (hbad : bad.failsWith info) (hans : s.sink.answers = bad :: as) (hb : b ≠ []) :
    ∃ taken, sinkPutLoop (fuel + 1) b s =
      .raised ⟨.io, some info⟩ (s.txIoFailed (s.sink.written (b.take taken)) 0) := by
  rw [sinkPutLoop, if_neg hb]
  obtain ⟨taken, e, rfl, rfl⟩ | ⟨rfl, rfl⟩ := hbad
  · exact ⟨taken, by simp [sinkWrite, hans, raising_tx_io]⟩
  · exact ⟨0, by simp [sinkWrite, hans, raising_tx_io]⟩

/-- The sink's error or a zero count, after any number of good answers, is what SinkPut raises (R208). -/
theorem sinkPut_failsWith {b : Bytes} {s : State} {good : List Nat} {bad : SinkAnswer} {info : ErrInfo}
    {as : List SinkAnswer} (hbad : bad.failsWith info)
    (hans : s.sink.answers = good.map (fun c => .count (c + 1)) ++ bad :: as)
    (hlt : (good.map (· + 1)).sum < b.length) :
    ∃ (k : Sink) (p : Bytes), p <+: b ∧ k.accepted = s.sink.accepted ++ p ∧ k.answers = as ∧
      sinkPut b s = .raised ⟨.io, some info⟩ (s.txIoFailed k (good.map (· + 1)).sum) := by
  obtain ⟨fuel, k, hans', hacc, hloop⟩ := sinkPutLoop_good hans hlt le_rfl
  have hne : b.drop (good.map (· + 1)).sum ≠ [] := List.ne_nil_of_length_pos (by rw [List.length_drop]; omega)
  obtain ⟨taken, hfail⟩ := sinkPutLoop_failsWith (fuel := fuel) (s := (s.setSink k).setTx _) hbad hans' hne
  refine ⟨k.written ((b.drop (good.map (· + 1)).sum).take taken), b.take ((good.map (· + 1)).sum + taken),
    List.take_prefix _ _, ?_, ?_, hloop.trans hfail⟩
  · rw [Sink.written, hacc, List.append_assoc, List.take_add]
  · simp [Sink.written, hans']

/-- A request the sink never answers, after any number of good answers, hangs SinkPut (R244). -/
theorem sinkPut_never {b : Bytes} {s : State} {good : List Nat} {as : List SinkAnswer}
    (hans : s.sink.answers = good.map (fun c => .count (c + 1)) ++ .never :: as)
    (hlt : (good.map (· + 1)).sum < b.length) : sinkPut b s = .stuck .sinkNeverAnswers := by
  obtain ⟨fuel, k, hans', -, hloop⟩ := sinkPutLoop_good hans hlt le_rfl
  have hne : b.drop (good.map (· + 1)).sum ≠ [] := List.ne_nil_of_length_pos (by rw [List.length_drop]; omega)
  rw [sinkPut, hloop, sinkPutLoop, if_neg hne]
  simp [sinkWrite, hans']

/-- The error of a flush is what SinkFlush raises (R208). -/
theorem sinkFlush_ioError {s : State} {e : EndpointError} {as : List FlushAnswer}
    (hans : s.sink.flushAnswers = .ioError e :: as) :
    ∃ k : Sink, k.accepted = s.sink.accepted ∧ k.flushAnswers = as ∧
      sinkFlush s = .raised ⟨.io, some (.endpointError e)⟩ (s.txIoFailed k 0) :=
  ⟨s.sink.flushAsked s.sink.flushed, rfl, by simp [Sink.flushAsked, hans], by simp [sinkFlush, hans, raising_tx_io]⟩

/-- A flush the sink never answers hangs SinkFlush (R244). -/
theorem sinkFlush_never {s : State} {as : List FlushAnswer} (hans : s.sink.flushAnswers = .never :: as) :
    sinkFlush s = .stuck .flushNeverAnswers := by
  simp [sinkFlush, hans]

/-! ### The answer still to come, in any run -/

theorem SinkPost.mono {due : Sink → Prop} {used used' : Raise → Sink → Prop} {hangs hangs' : Fault → Prop}
    {r : Res Unit} (h : SinkPost due used hangs r) (hu : ∀ e k, used e k → used' e k) (hh : ∀ f, hangs f → hangs' f) :
    SinkPost due used' hangs' r := by
  cases r with
  | ok a s => exact h
  | raised e s => exact h.imp id (hu e s.sink)
  | stuck f => exact hh f h

/-- SinkFlush uses no answer to a write request. -/
theorem sinkFlush_answerDue {bad : SinkAnswer} {as : List SinkAnswer} (used : Raise → Sink → Prop) (s : State)
    (h : s.sink.answerDue bad as) : SinkPost (Sink.answerDue bad as) used (fun _ => True) (sinkFlush s) := by
  unfold sinkFlush
  split
  · exact h
  · rw [raising_tx_io]
    exact .inl h
  · trivial

/-- The sink's answers to the flush requests to come are `l`. -/
def Sink.flushDue (l : List FlushAnswer) (k : Sink) : Prop := k.flushAnswers = l

/-- SinkPut uses no answer to a flush request. -/
theorem sinkPut_flushDue (l : List FlushAnswer) (used : Raise → Sink → Prop) (b : Bytes) (s : State)
    (h : s.sink.flushDue l) : SinkPost (Sink.flushDue l) used (fun _ => True) (sinkPut b s) :=
  (sinkPut_flushAnswers l b s h).mono (fun _ _ => False.elim) fun _ _ => trivial

/-! ### The commands whose first request it is -/

theorem exec_rxRead_idle {n : Nat} {s : State} (hn : 1 ≤ n) (hs : s.rx.state = .idle) :
    exec (.rxRead n) s = rxAnswer n (rxRefill s) := by
  rw [rxRead_fetches hn (.inr (.inl hs)), rxFetch_of_idle hs]

theorem exec_txFlush_empty {s : State} (hs : s.tx.state = .ready) (he : s.tx.abuf = []) :
    exec .txFlush s = txAnswer (sinkFlush s) := by
  simp [exec, execTxFlush, txGated, hs, txEmitPending, he]

/-- TX.MARKER puts something first: MAGIC, or the marker (R147). -/
theorem txMarker_eq_bind_sinkPut (s : State) :
    ∃ (b : Bytes) (f : Unit → State → Res Unit), b ≠ [] ∧ txMarker s = (sinkPut b s).bind f := by
  unfold txMarker txPrologue
  split_ifs
  · exact ⟨markerBytes s.tx.sc, fun _ s1 => .ok () s1, nofun, (Res.bind_pure _).symm⟩
  · exact ⟨magic, _, nofun, Res.bind_assoc _ _ _⟩

/-- TX.FINISH with nothing pending begins with a SinkPut (R143). -/
theorem exec_txFinish_empty {s : State} (hs : s.tx.state = .ready) (he : s.tx.abuf = []) :
    ∃ (b : Bytes) (f : Unit → State → Res Unit), b ≠ [] ∧ exec .txFinish s = txAnswer ((sinkPut b s).bind f) := by
  obtain ⟨b, f, hb, hmarker⟩ := txMarker_eq_bind_sinkPut s
  have hexec : exec .txFinish s = txAnswer (((sinkPut b s).bind f).bind fun _ s2 => (sinkFlush s2).bind fun _ s3 =>
      .ok () (s3.setTx { s3.tx with state := .finished })) := by
    simp only [exec, execTxFinish, txGated, hs, txEmitPending, he, if_true, Res.bind_ok, hmarker]
  exact ⟨b, _, hb, hexec.trans (congrArg txAnswer (Res.bind_assoc _ _ _))⟩

/-- A failing answer to the first write request of TX.FINISH is what it answers (R208). -/
theorem txFinish_failsWith {bad : SinkAnswer} {info : ErrInfo} {as : List SinkAnswer} {s : State}
    (hbad : bad.failsWith info) (hs : s.tx.state = .ready) (he : s.tx.abuf = []) (hans : s.sink.answers = bad :: as) :
    ∃ t, exec .txFinish s = .next t ∧ t.txRsp = some (.err .io (some info)) ∧ t.tx.state = .failed ∧
      t.sink.answers = as := by
  obtain ⟨b, f, hb, hexec⟩ := exec_txFinish_empty hs he
  obtain ⟨k, p, -, -, hans', hput⟩ :=
    sinkPut_failsWith (good := []) hbad hans (by simpa using List.length_pos_iff.mpr hb)
  rw [hput] at hexec
  exact ⟨_, hexec, rfl, rfl, hans'⟩

/-- An instruction of TX that uses up a failing answer answers its error, and uses no answer after it (R208). -/
theorem exec_ofTx_errorDue {i : Instr} {bad : SinkAnswer} {info : ErrInfo} {as : List SinkAnswer} {s t : State}
    (hbad : bad.failsWith info) (hi : ofTx i = true) (h : s.sink.answerDue bad as) (hexec : exec i s = .next t)
    (hlen : t.sink.answers.length ≤ as.length) :
    t.sink.answers = as ∧ t.tx.state = .failed ∧
      ((∃ data, i = .txWrite data) ∨ i = .txFlush ∨ i = .txFinish → t.txRsp = some (.err .io (some info))) ∧
      (i = .txPrologue ∨ (∃ orig, i = .txBlock orig) ∨ i = .txMarker ∨ (∃ b, i = .sinkPut b) →
        t.opResult = .raised ⟨.io, some info⟩) := by
  have hput (b : Bytes) (s : State) (h : s.sink.answerDue bad as) :
      SinkPost (Sink.answerDue bad as) (Sink.errorUsed info as) (fun _ => True) (sinkPut b s) :=
    (sinkPut_errorDue hbad b s h).mono (fun _ _ => id) fun _ _ => trivial
  obtain hdue | ⟨_, ⟨hans, rfl⟩, hst, hrsp, hop⟩ := exec_ofTx_due hput (sinkFlush_answerDue _) hi hexec h
  · exact absurd (Sink.answerDue_length hdue) (by omega)
  · exact ⟨hans, hst, hrsp, hop⟩

end Sys2Proof.Machine
end

section
/-! PROOFS. An endpoint's error is carried verbatim (R208); a request that is never answered hangs (R244). -/

namespace Sys2Proof.Machine

/-- An instruction of RX that uses up the source's error answers it, and uses no answer after it (R208). -/
theorem exec_ofRx_errorDue {i : Instr} {e : EndpointError} {as : List SrcAnswer} {s t : State} (hi : ofRx i = true)
    (h : s.source.answerDue (.ioError e) as) (hexec : exec i s = .next t) (hlen : t.source.answers.length ≤ as.length) :
    t.source.answers = as ∧ t.rx.state = .failed ∧ t.rx.err = some .io ∧
      ((∃ n, i = .rxRead n) → t.rxRsp = some (.err .io (some (.endpointError e)))) ∧
      ((∀ n, i ≠ .rxRead n) → t.opResult = .raised ⟨.io, some (.endpointError e)⟩) := by
  obtain hdue | ⟨_, ⟨hans, rfl⟩, hst, herr, hrsp, hop⟩ := exec_ofRx_due srcGet_errorDue hi hexec h
  · exact absurd (Source.answerDue_length hdue) (by omega)
  · exact ⟨hans, hst, herr, hrsp, hop⟩

/-- The error of a flush that was due was used, and it is the one raised (R208). -/
def Sink.flushErrorUsed (e : EndpointError) (as : List FlushAnswer) (x : Raise) (k : Sink) : Prop :=
  k.flushAnswers = as ∧ x = ⟨.io, some (.endpointError e)⟩

/-- An instruction of TX that uses up the error of a flush answers it, and uses no answer after it (R208). -/
theorem exec_ofTx_flushErrorDue {i : Instr} {e : EndpointError} {as : List FlushAnswer} {s t : State}
    (hi : ofTx i = true) (h : s.sink.flushDue (.ioError e :: as)) (hexec : exec i s = .next t)
    (hlen : t.sink.flushAnswers.length ≤ as.length) :
    t.sink.flushAnswers = as ∧ t.tx.state = .failed ∧
      (i = .txFlush ∨ i = .txFinish → t.txRsp = some (.err .io (some (.endpointError e)))) := by
  have hflush (s : State) (h : s.sink.flushDue (.ioError e :: as)) :
      SinkPost (Sink.flushDue (.ioError e :: as)) (Sink.flushErrorUsed e as) (fun _ => True) (sinkFlush s) := by
    obtain ⟨k, -, hans, hf⟩ := sinkFlush_ioError h
    rw [hf]
    exact .inr ⟨hans, rfl⟩
  obtain hdue | ⟨_, ⟨hans, rfl⟩, hst, hrsp, -⟩ := exec_ofTx_due (sinkPut_flushDue _ _) hflush hi hexec h
  · rw [hdue, List.length_cons] at hlen
    omega
  · exact ⟨hans, hst, fun hi => hrsp (.inr hi)⟩

/-- An instruction of RX that answers has not come to a request that the source never answers (R244). -/
theorem exec_ofRx_neverDue {i : Instr} {as : List SrcAnswer} {s t : State} (hi : ofRx i = true)
    (h : s.source.answerDue .never as) (hexec : exec i s = .next t) : as.length < t.source.answers.length := by
  obtain hdue | ⟨_, hu, -⟩ := exec_ofRx_due srcGet_neverDue hi hexec h
  · exact Source.answerDue_length hdue
  · cases hu

/-- An instruction of TX that answers has not come to a write request that the sink never answers (R244). -/
theorem exec_ofTx_neverDue {i : Instr} {as : List SinkAnswer} {s t : State} (hi : ofTx i = true)
    (h : s.sink.answerDue .never as) (hexec : exec i s = .next t) : as.length < t.sink.answers.length := by
  have hput (b : Bytes) (s : State) (h : s.sink.answerDue .never as) :
      SinkPost (Sink.answerDue .never as) (fun _ _ => False) (fun _ => True) (sinkPut b s) :=
    (sinkPut_neverDue b s h).mono (fun _ _ => id) fun _ _ => trivial
  obtain hdue | ⟨_, hu, -⟩ := exec_ofTx_due hput (sinkFlush_answerDue _) hi hexec h
  · exact Sink.answerDue_length hdue
  · cases hu

/-- An instruction of TX that answers has not come to a flush request that the sink never answers (R244). -/
theorem exec_ofTx_flushNeverDue {i : Instr} {as : List FlushAnswer} {s t : State} (hi : ofTx i = true)
    (h : s.sink.flushDue (.never :: as)) (hexec : exec i s = .next t) : as.length < t.sink.flushAnswers.length := by
  have hflush (s : State) (h : s.sink.flushDue (.never :: as)) :
      SinkPost (Sink.flushDue (.never :: as)) (fun _ _ => False) (fun _ => True) (sinkFlush s) := by
    rw [sinkFlush_never h]
    trivial
  obtain hdue | ⟨_, hu, -⟩ := exec_ofTx_due (sinkPut_flushDue _ _) hflush hi hexec h
  · rw [hdue, List.length_cons]
    omega
  · cases hu

/-- Settles O17: the primitives, then any instruction that uses up the answer, then the commands that meet it first. -/
theorem endpointErrorsArePropagatedVerbatim : Obligations.EndpointErrorsArePropagatedVerbatim := by
  refine ⟨?_, ?_, ?_, ?_, ?_, ?_, ?_, ?_, ?_, ?_⟩
  · intro n good e as s hs hans got hlt hrest
    obtain ⟨src, hans', hrest', hget⟩ := srcGet_ioError hans hlt hrest
    exact ⟨_, (exec_srcGet hs n).trans (opAnswer_of_raised hget), rfl, rfl, hrest', hans',
      ⟨rfl, rfl, rfl, rfl, rfl⟩, rfl⟩
  · intro b good bad info as s hbad hs hans put hlt
    obtain ⟨k, p, hp, hacc, hans', hput⟩ := sinkPut_failsWith hbad hans hlt
    exact ⟨_, (exec_sinkPut hs b).trans (opAnswer_of_raised hput), rfl, rfl, rfl, ⟨p, hp, hacc⟩, hans',
      ⟨rfl, rfl, rfl, rfl⟩, rfl⟩
  · intro e as s hs hans
    obtain ⟨k, hacc, hans', hflush⟩ := sinkFlush_ioError hans
    exact ⟨_, (exec_sinkFlush hs).trans (opAnswer_of_raised hflush), rfl, rfl, hacc, hans', ⟨rfl, rfl, rfl, rfl⟩, rfl⟩
  · intro i good e as s t hi hans hexec hlen
    exact exec_ofRx_errorDue hi ⟨good, hans⟩ hexec hlen
  · intro i good bad info as s t hi hbad hans hexec hlen
    exact exec_ofTx_errorDue hbad hi ⟨good, hans⟩ hexec hlen
  · intro i e as s t hi hans hexec hlen
    exact exec_ofTx_flushErrorDue hi hans hexec hlen
  · intro n e as s hn hs hans
    obtain ⟨src, hans', hrest', hget⟩ := srcGet_ioError (n := Config.headerLen) (good := []) hans (by decide) (by simp)
    have hexec := exec_rxRead_idle hn hs
    rw [rxRefill, hget] at hexec
    exact ⟨_, hexec, rfl, rfl, rfl, hrest', hans'⟩
  · intro taken e as s hs he hans
    exact txFinish_failsWith (.inl ⟨taken, e, rfl, rfl⟩) hs he hans
  · intro as s hs he hans
    exact txFinish_failsWith (.inr ⟨rfl, rfl⟩) hs he hans
  · intro e as s hs he hans
    obtain ⟨k, -, hans', hflush⟩ := sinkFlush_ioError hans
    have hexec := exec_txFlush_empty hs he
    rw [hflush] at hexec
    exact ⟨_, hexec, rfl, rfl, hans'⟩

/-- Settles O18: the primitives, then any instruction that answers, then the commands that meet the request first. -/
theorem unansweredRequestHangs : Obligations.UnansweredRequestHangs := by
  refine ⟨?_, ?_, ?_, ?_, ?_, ?_, ?_, ?_, ?_⟩
  · intro n good as s hs hans got hlt hrest
    exact (exec_srcGet hs n).trans (opAnswer_of_stuck (srcGet_never hans hlt hrest))
  · intro b good as s hs hans put hlt
    exact (exec_sinkPut hs b).trans (opAnswer_of_stuck (sinkPut_never hans hlt))
  · intro as s hs hans
    exact (exec_sinkFlush hs).trans (opAnswer_of_stuck (sinkFlush_never hans))
  · intro i good as s t hi hans hexec
    exact exec_ofRx_neverDue hi ⟨good, hans⟩ hexec
  · intro i good as s t hi hans hexec
    exact exec_ofTx_neverDue hi ⟨good, hans⟩ hexec
  · intro i as s t hi hans hexec
    exact exec_ofTx_flushNeverDue hi hans hexec
  · intro n as s hn hs hans
    have hget := srcGet_never (n := Config.headerLen) (good := []) hans (by decide) (by simp)
    rw [exec_rxRead_idle hn hs, rxRefill, hget]
    rfl
  · intro as s hs he hans
    obtain ⟨b, f, hb, hexec⟩ := exec_txFinish_empty hs he
    rw [hexec, sinkPut_never (good := []) hans (by simpa using List.length_pos_iff.mpr hb)]
    rfl
  · intro as s hs he hans
    rw [exec_txFlush_empty hs he, sinkFlush_never hans]
    rfl

end Sys2Proof.Machine
end

section
/-! PROOFS. Nothing hangs where the endpoints answer (R244). -/

namespace Sys2Proof.Machine

/-! ### Endpoints that answer (R244) -/

/-- On a sink that answers TX.WRITE goes on or raises an error: its loop ends (R23, R141). -/
theorem txWriteLoop_answering {s : State} (hk : s.sink.answering) (hb : s.tx.abuf.length < s.tx.blockSize)
    (data : Bytes) :
    SinkPost Sink.answering (fun _ _ => False) (fun _ => False) (txWriteLoop data.length data s) := by
  have hput (b : Bytes) (s : State) (h : s.sink.answering) :
      SinkPost Sink.answering (fun _ _ => False) (· = .writeNeverEnds) (sinkPut b s) :=
    (sinkPut_answering b s h).mono (fun _ _ => id) fun _ => False.elim
  have hpost := txWriteLoop_sinkPost hput rfl data.length data hk
  have hends := txWriteLoop_ends (rem := data) le_rfl hb
  cases hr : txWriteLoop data.length data s with
  | ok a s1 => rwa [hr] at hpost
  | raised e s1 => rwa [hr] at hpost
  | stuck f =>
    rw [hr] at hpost hends
    exact hends (congrArg Res.stuck hpost)

/-- On a sink that answers no run of TX hangs, while TX's invariant holds (R23). -/
theorem TxRun.not_stuck {s : State} {r : Res Unit} (hr : TxRun s r) (hk : s.sink.answering) (hinv : s.tx.inv = true)
    (f : Fault) : r ≠ .stuck f := by
  have hwrite (data : Bytes) (hs : s.tx.state = .ready) :
      SinkPost Sink.answering (fun _ _ => False) (fun _ => False) (txWriteLoop data.length data s) := by
    obtain ⟨-, -, hb⟩ := (Tx.inv_ready hs).mp hinv
    exact txWriteLoop_answering hk hb data
  rintro rfl
  exact hr.sinkPost sinkPut_answering sinkFlush_answering hwrite hk

/-- On a source that answers no run of RX hangs. -/
theorem RxRun.not_stuck {s : State} {r : Res Unit} (hr : RxRun s r) (hsrc : s.source.answering) (f : Fault) :
    r ≠ .stuck f := by
  rintro rfl
  exact hr.srcPost srcGet_answering hsrc

theorem whenOperands_opValue_ne_fault (ok : Bool) (v : OpResult) (s : State) (f : Fault) :
    whenOperands ok (opValue v s) ≠ .fault f := by
  cases ok <;> nofun

theorem exec_combinational_ne_fault {i : Instr} (hi : combinational i = true) (s : State) (f : Fault) :
    exec i s ≠ .fault f := by
  cases i with
  | le32Dec b => exact whenOperands_opValue_ne_fault _ _ s f
  | scOf bs => exact whenOperands_opValue_ne_fault _ _ s f
  | hdrUnpack h => exact whenOperands_opValue_ne_fault _ _ s f
  | le32Enc | tokEnc | tokDec | hdrPack | hdrClassify | ckGen | ckVerify => nofun
  | prologue | endMarker | blkRaw | blkLz4 | rxRead | rxInit | rxRefill | rxPayload | srcGet | txConfig | txWrite
  | txFlush | txFinish | txPrologue | txBlock | txMarker | sinkPut | sinkFlush => cases hi

/-- No instruction faults where the endpoints answer (R244). -/
theorem exec_ne_fault {s : State} (hinv : s.tx.inv = true) (hk : s.sink.answering) (hsrc : s.source.answering)
    (i : Instr) (f : Fault) : exec i s ≠ .fault f := by
  intro hexec
  by_cases htx : ofTx i = true
  · obtain ⟨r, hrun, hans⟩ := exec_txRuns (s := s) htx
    rw [hexec] at hans
    cases r with
    | ok a s1 => exact hans
    | raised e s1 => exact hans
    | stuck f => exact hrun.not_stuck hk hinv f rfl
  · by_cases hrx : ofRx i = true
    · obtain ⟨r, hrun, hans⟩ := exec_rxRuns (s := s) hrx
      rw [hexec] at hans
      cases r with
      | ok a s1 => exact hans
      | raised e s1 => exact hans
      | stuck f => exact hrun.not_stuck hsrc f rfl
    · exact exec_combinational_ne_fault (by simp [combinational, htx, hrx]) s f hexec

/-- No step faults where the endpoints answer (R244). -/
theorem step_ne_fault {s : State} (hinv : s.tx.inv = true) (hk : s.sink.answering) (hsrc : s.source.answering)
    (f : Fault) : step s ≠ .fault f := by
  have hrun (e : Encoded) (rest : List HostInput) : runEncoded e (s.setInbox rest) ≠ .fault f := by
    unfold runEncoded
    split
    · exact exec_ne_fault (s := s.setInbox rest) hinv hk hsrc _ f
    · nofun
  unfold step
  split
  · nofun
  · rename_i x rest _
    cases x with
    | tx c => exact hrun (.tx c) rest
    | rx c => exact hrun (.rx c) rest
    | txReset => nofun
    | rxReset => nofun
    | sinkWrite b =>
      unfold runInput
      dsimp only
      split_ifs <;> nofun
    | sourceTake n =>
      unfold runInput
      dsimp only
      split_ifs <;> nofun
    | sourceSupply b => nofun

/-! ### What executes answers -/

/-- `o` is a next state or a fault: it is no refusal. -/
def Executes (o : Host.Outcome State Fault Refusal) : Prop := ∀ q, o ≠ .refused q

theorem Executes.exists_next {o : Host.Outcome State Fault Refusal} (h : Executes o) (hf : ∀ f, o ≠ .fault f) :
    ∃ t, o = .next t := by
  cases o with
  | next t => exact ⟨t, rfl⟩
  | fault f => exact absurd rfl (hf f)
  | refused q => exact absurd rfl (h q)

theorem executes_opAnswer {α : Type} (f : α → OpResult) (r : Res α) : Executes (opAnswer f r) := by
  cases r <;> nofun

theorem executes_txGated {s : State} (hs : s.tx.state = .ready) (r : Res Unit) : Executes (txGated s r) := by
  unfold txGated
  rw [hs]
  cases r <;> nofun

theorem executes_rxAnswer (n : Nat) (r : Res Unit) : Executes (rxAnswer n r) := by
  cases r with
  | ok a s =>
    unfold rxAnswer
    dsimp only
    split_ifs <;> nofun
  | raised e s => nofun
  | stuck f => nofun

theorem executes_whenTxReady {s : State} {body : Host.Outcome State Fault Refusal} (hs : s.tx.state = .ready)
    (h : Executes body) : Executes (whenTxReady s body) := by
  rwa [whenTxReady, if_pos hs]

theorem executes_whenRx {s : State} {l : List RxState} {body : Host.Outcome State Fault Refusal} (hs : s.rx.state ∈ l)
    (h : Executes body) : Executes (whenRx s l body) := by
  rwa [whenRx, if_pos hs]

theorem executes_whenOperands {ok : Bool} {body : Host.Outcome State Fault Refusal} (hok : ok = true)
    (h : Executes body) : Executes (whenOperands ok body) := by
  rwa [whenOperands, if_pos hok]

/-- In Ready every instruction of TX that makes requests executes, on the operands R146 allows (R144). -/
theorem executes_ofTx {i : Instr} {s : State} (hs : s.tx.state = .ready)
    (hi : (∃ data, i = .txWrite data) ∨ i = .txFlush ∨ i = .txFinish ∨ i = .txPrologue ∨ i = .txMarker ∨
      (∃ orig, i = .txBlock orig ∧ 1 ≤ orig.length ∧ orig.length ≤ s.tx.blockSize) ∨ (∃ b, i = .sinkPut b) ∨
      i = .sinkFlush) : Executes (exec i s) := by
  obtain ⟨data, rfl⟩ | rfl | rfl | rfl | rfl | ⟨orig, rfl, h1, hle⟩ | ⟨b, rfl⟩ | rfl := hi
  · exact executes_txGated hs _
  · exact executes_txGated hs _
  · exact executes_txGated hs _
  · exact executes_whenTxReady hs (executes_opAnswer _ _)
  · exact executes_whenTxReady hs (executes_opAnswer _ _)
  · exact executes_whenTxReady hs (executes_whenOperands (by simp [h1, hle]) (executes_opAnswer _ _))
  · exact executes_whenTxReady hs (executes_opAnswer _ _)
  · exact executes_whenTxReady hs (executes_opAnswer _ _)

/-- RX.READ of at least one byte executes, in Failed because an error is latched there (R23, R170). -/
theorem executes_rxRead {n : Nat} {s : State} (hn : 1 ≤ n) (hinv : s.rx.inv = true) :
    Executes (exec (.rxRead n) s) := by
  change Executes (execRxRead n s)
  rw [execRxRead, if_neg (by omega)]
  split
  · rename_i hs
    obtain ⟨-, -, herr, -⟩ := (Rx.inv_iff s.rx).mp hinv
    obtain ⟨k, hk⟩ := Option.ne_none_iff_exists'.mp (herr.mpr hs)
    rw [rxLatched, hk]
    nofun
  · nofun
  all_goals exact executes_rxAnswer _ _

/-- Settles O52: nothing faults, and what executes and does not fault answers. -/
theorem answeringEndpointsNeverHang : Obligations.AnsweringEndpointsNeverHang := by
  intro s hinv hk hsrc
  obtain ⟨htx, hrx⟩ : s.tx.inv = true ∧ s.rx.inv = true := by simpa [State.inv] using hinv
  have answers {i : Instr} (h : Executes (exec i s)) : ∃ t, exec i s = .next t :=
    h.exists_next (exec_ne_fault htx hk hsrc i)
  refine ⟨step_ne_fault htx hk hsrc, exec_ne_fault htx hk hsrc, fun i hs hi => answers (executes_ofTx hs hi), ?_, ?_,
    fun n hn => answers (executes_rxRead hn hrx)⟩
  · rintro i hs (rfl | ⟨n, rfl⟩)
    · exact answers (executes_whenRx (by simp [hs]) (executes_opAnswer _ _))
    · exact answers (executes_whenRx (by simp [hs]) (executes_opAnswer _ _))
  · have hidle : s.rx.state = .idle → s.rx.state ∈ [RxState.idle] := by simp
    rintro i hs (rfl | ⟨n, rfl⟩ | ⟨⟨m, c, o, k, rfl⟩ | ⟨sc, len, k, rfl⟩ | ⟨sc, c, o, k, rfl⟩, hw⟩)
    · exact answers (executes_whenRx (hidle hs) (executes_opAnswer _ _))
    · exact answers (executes_whenRx (by simp [hs]) (executes_opAnswer _ _))
    all_goals exact answers (executes_whenRx (hidle hs) (executes_whenOperands hw (executes_opAnswer _ _)))

end Sys2Proof.Machine
end

section
/-! PROOFS. What an instruction of TX leaves of the state, and TX's invariant (R23, R27, R207). -/

namespace Sys2Proof.Machine

/-! ### What an instruction of TX leaves -/

/-- What instruction `i` of TX has made of `s` before it puts its answer (R140 to R147, R207). -/
inductive TxStep (i : Instr) (s : State) : State → Prop where
  | keeps : TxStep i s s
  | configures (bs : U32) (hi : i = .txConfig bs) (hs : s.tx.state = .unconfigured)
      (hbs : legalBlockSize bs.toNat = true) :
      TxStep i s (s.setTx { s.tx with blockSize := bs.toNat, sc := scOf bs.toNat, state := .ready })
  | runs {s1 : State} (hs : s.tx.state = .ready) (hr : TxRun s (.ok () s1)) : TxStep i s s1
  | finishes {s1 : State} (hi : i = .txFinish) (hs : s.tx.state = .ready) (hr : txFinishRun s = .ok () s1) :
      TxStep i s (s1.setTx { s1.tx with state := .finished })
  | fails {s1 : State} {e : Raise} (hi : ∀ bs, i ≠ .txConfig bs) (hs : s.tx.state = .ready) (hf : TxFailed s e s1) :
      TxStep i s s1

/-- `t` is what `i` has made of `s`, with its answer at TX's port or in `opResult` (R88; log entry 7). -/
def TxLeaves (i : Instr) (s t : State) : Prop :=
  ∃ (s1 : State) (a : Option Response) (v : OpResult), TxStep i s s1 ∧ t = (s1.setTxRsp a).setOpResult v

section
variable {i : Instr} {s t : State}

theorem TxStep.leaves_atPort {s1 : State} (h : TxStep i s s1) (a : Option Response) : TxLeaves i s (s1.setTxRsp a) :=
  ⟨s1, a, s1.opResult, h, rfl⟩

theorem TxStep.leaves_asOpResult {s1 : State} (h : TxStep i s s1) (v : OpResult) : TxLeaves i s (s1.setOpResult v) :=
  ⟨s1, s1.txRsp, v, h, rfl⟩

theorem txLeaves_opAnswer {f : Unit → OpResult} {r : Res Unit} (hi : ∀ bs, i ≠ .txConfig bs)
    (hs : s.tx.state = .ready) (hr : TxRun s r) (h : opAnswer f r = .next t) : TxLeaves i s t := by
  cases r with
  | ok a s1 => cases h; exact (TxStep.runs hs hr).leaves_asOpResult _
  | raised e s1 => cases h; exact (TxStep.fails hi hs hr.txPost).leaves_asOpResult _
  | stuck x => cases h

theorem whenTxReady_next {body : Host.Outcome State Fault Refusal} (h : whenTxReady s body = .next t) :
    s.tx.state = .ready ∧ body = .next t := by
  unfold whenTxReady at h
  split_ifs at h with hs
  exact ⟨hs, h⟩

theorem whenOperands_next {ok : Bool} {body : Host.Outcome State Fault Refusal} (h : whenOperands ok body = .next t) :
    ok = true ∧ body = .next t := by
  unfold whenOperands at h
  split_ifs at h with hok
  exact ⟨hok, h⟩

/-- An operation of TX runs in Ready (R89). -/
theorem txLeaves_operation {f : Unit → OpResult} {r : Res Unit} (hi : ∀ bs, i ≠ .txConfig bs) (hr : TxRun s r)
    (h : whenTxReady s (opAnswer f r) = .next t) : TxLeaves i s t :=
  txLeaves_opAnswer hi (whenTxReady_next h).1 hr (whenTxReady_next h).2

/-- A command of TX runs in Ready, and keeps all in Finished (R144). `last` is its step after its last request. -/
theorem txLeaves_txGated {r : Res Unit} {last : State → State} (hi : ∀ bs, i ≠ .txConfig bs)
    (hr : s.tx.state = .ready → TxRun s r)
    (hlast : ∀ s1, s.tx.state = .ready → r = .ok () s1 → TxStep i s (last s1))
    (h : txGated s (r.bind fun _ s1 => .ok () (last s1)) = .next t) : TxLeaves i s t := by
  unfold txGated at h
  split at h
  · cases h
  · rename_i hs
    have hrun := hr hs
    cases r with
    | ok a s1 => cases h; exact (hlast s1 hs rfl).leaves_atPort _
    | raised e s1 => cases h; exact (TxStep.fails hi hs hrun.txPost).leaves_atPort _
    | stuck x => cases h
  · cases h; exact TxStep.keeps.leaves_atPort _
  · cases h

theorem configError_eq_none {bs : U32} (h : configError bs = none) : legalBlockSize bs.toNat = true := by
  unfold configError at h
  split_ifs at h with hrange hpow
  simp only [not_or, Nat.not_lt] at hrange
  simp [legalBlockSize, hrange, hpow]

/-- TX.CONFIG configures, or keeps all (R140). -/
theorem txLeaves_txConfig {bs : U32} (h : exec (.txConfig bs) s = .next t) : TxLeaves (.txConfig bs) s t := by
  change execTxConfig bs s = .next t at h
  unfold execTxConfig at h
  split at h
  · rename_i hs
    unfold txConfigure at h
    split at h
    · cases h; exact TxStep.keeps.leaves_atPort _
    · rename_i hcfg
      cases h; exact (TxStep.configures bs rfl hs (configError_eq_none hcfg)).leaves_atPort _
  all_goals cases h

/-- Everything an instruction of TX can leave. -/
theorem exec_txLeaves (hi : ofTx i = true) (h : exec i s = .next t) : TxLeaves i s t := by
  cases i with
  | txConfig bs => exact txLeaves_txConfig h
  | txWrite data =>
    refine txLeaves_txGated (last := id) nofun (.writeCommand data) (fun s1 hs hr => ?_) ((Res.bind_pure _).symm ▸ h)
    exact .runs hs (hr ▸ .writeCommand data hs)
  | txFlush =>
    refine txLeaves_txGated (last := id) nofun (fun _ => .flushCommand) (fun s1 hs hr => ?_)
      ((Res.bind_pure _).symm ▸ h)
    exact .runs hs (hr ▸ .flushCommand)
  | txFinish =>
    refine txLeaves_txGated (r := txFinishRun s) (last := fun s3 => s3.setTx { s3.tx with state := .finished }) nofun
      (fun _ => .finishCommand) (fun s1 => .finishes rfl) ?_
    simp only [txFinishRun, Res.bind_assoc]
    exact h
  | txPrologue => exact txLeaves_operation nofun .prologue h
  | txBlock orig =>
    obtain ⟨hs, h⟩ := whenTxReady_next h
    exact txLeaves_opAnswer nofun hs (.block orig) (whenOperands_next h).2
  | txMarker => exact txLeaves_operation nofun .marker h
  | sinkPut b => exact txLeaves_operation nofun (.put b) h
  | sinkFlush => exact txLeaves_operation nofun .flush h
  | prologue | endMarker | blkRaw | blkLz4 | rxRead | rxInit | rxRefill | rxPayload | srcGet | le32Enc | le32Dec
  | tokEnc | tokDec | scOf | hdrPack | hdrUnpack | hdrClassify | ckGen | ckVerify => cases hi

end

/-! ### TX's registers and the sink -/

/-- A SinkFlush that went on changes no register. -/
theorem sinkFlush_ok_tx {s s1 : State} (h : sinkFlush s = .ok () s1) : s1.tx = s.tx := by
  obtain ⟨k, rfl, -⟩ := sinkFlush_ok h
  rfl

/-- The requests of TX.FLUSH leave the buffer empty (R142). -/
theorem txFlushRun_ok {s s1 : State} (h : txFlushRun s = .ok () s1) :
    s1.tx.abuf = [] ∧ s1.tx.blockSize = s.tx.blockSize := by
  obtain ⟨_, s2, hpending, hflush⟩ := Res.bind_eq_ok h
  obtain ⟨habuf, -, hbs, -⟩ := txEmitPending_ok hpending
  rw [sinkFlush_ok_tx hflush]
  exact ⟨habuf, hbs⟩

/-- The requests of TX.FINISH leave the buffer empty and MAGIC put (R143). -/
theorem txFinishRun_ok {s s1 : State} (h : txFinishRun s = .ok () s1) :
    s1.tx.abuf = [] ∧ s1.tx.blockSize = s.tx.blockSize ∧ s1.tx.sc = s.tx.sc ∧ s1.tx.prologueDone = true := by
  obtain ⟨_, s2, hpending, h⟩ := Res.bind_eq_ok h
  obtain ⟨_, s3, hmarker, hflush⟩ := Res.bind_eq_ok h
  obtain ⟨habuf, -, hbs, hsc⟩ := txEmitPending_ok hpending
  obtain ⟨k, rfl, -⟩ := txMarker_ok hmarker
  rw [sinkFlush_ok_tx hflush]
  exact ⟨habuf, hbs, hsc, rfl⟩

/-- A run of TX that went on from a buffer below its capacity leaves it below its capacity (R23). -/
theorem TxRun.ok_below {s s1 : State} {r : Res Unit} (hr : TxRun s r) (h : r = .ok () s1)
    (hb : s.tx.abuf.length < s.tx.blockSize) : s1.tx.abuf.length < s1.tx.blockSize := by
  cases hr with
  | none => cases h; exact hb
  | put b => obtain ⟨k, rfl, -⟩ := sinkPut_ok h; exact hb
  | flush => rwa [sinkFlush_ok_tx h]
  | prologue => obtain ⟨k, rfl, -⟩ := txPrologue_ok h; exact hb
  | block orig => obtain ⟨c, k, -, rfl, -⟩ := txBlock_ok h; exact hb
  | marker => obtain ⟨k, rfl, -⟩ := txMarker_ok h; exact hb
  | writeCommand data hs => exact txWriteLoop_ok h hb
  | flushCommand =>
    obtain ⟨habuf, hbs⟩ := txFlushRun_ok h
    rw [habuf, hbs]
    exact Nat.zero_lt_of_lt hb
  | finishCommand =>
    obtain ⟨habuf, hbs, -⟩ := txFinishRun_ok h
    rw [habuf, hbs]
    exact Nat.zero_lt_of_lt hb

/-- A run of TX that went on leaves STATE, BLOCK_SIZE and SC (R27, R30). -/
theorem TxRun.ok_config {s s1 : State} (hr : TxRun s (.ok () s1)) :
    s1.tx.state = s.tx.state ∧ s1.tx.blockSize = s.tx.blockSize ∧ s1.tx.sc = s.tx.sc := by
  obtain ⟨b, k, x, rfl, -, -, hstate, hbs, hsc⟩ := hr.txPost
  exact ⟨hstate, hbs, hsc⟩

/-- TX's invariant in Unconfigured. -/
theorem Tx.inv_unconfigured {x : Tx} (h : x.state = .unconfigured) : x.inv = true ↔
    x.abuf = [] ∧ x.prologueDone = false ∧ x.pos = 0 := by
  simp [Tx.inv, h, and_assoc]

/-- TX's invariant in Finished. -/
theorem Tx.inv_finished {x : Tx} (h : x.state = .finished) : x.inv = true ↔
    legalBlockSize x.blockSize = true ∧ x.sc = scOf x.blockSize ∧ x.abuf = [] ∧ x.prologueDone = true := by
  simp [Tx.inv, h, and_assoc]

/-- TX's error entry makes its invariant true from Ready (R207). -/
theorem Tx.inv_failedWith {x : Tx} (hs : x.state = .ready) (hinv : x.inv = true) (m n : Nat) :
    ((x.moved m).failedWith n).inv = true := by
  obtain ⟨hbs, hsc, -⟩ := (Tx.inv_ready hs).mp hinv
  simp [Tx.inv, Tx.failedWith, hbs, hsc]

/-- An instruction of TX keeps TX's invariant (R23). -/
theorem TxStep.inv {i : Instr} {s s1 : State} (h : TxStep i s s1) (hinv : s.tx.inv = true) : s1.tx.inv = true := by
  cases h with
  | keeps => exact hinv
  | configures bs hi hs hbs =>
    obtain ⟨habuf, -, -⟩ := (Tx.inv_unconfigured hs).mp hinv
    obtain ⟨k, -, -, hk⟩ := (legalBlockSize_iff _).mp hbs
    exact (Tx.inv_ready rfl).mpr ⟨hbs, rfl, by simp [habuf, hk]⟩
  | runs hs hr =>
    obtain ⟨hstate, hbs, hsc⟩ := hr.ok_config
    obtain ⟨hlegal, hscof, hbelow⟩ := (Tx.inv_ready hs).mp hinv
    exact (Tx.inv_ready (hstate.trans hs)).mpr ⟨hbs ▸ hlegal, by rw [hsc, hbs, hscof], hr.ok_below rfl hbelow⟩
  | finishes hi hs hr =>
    obtain ⟨hlegal, hscof, -⟩ := (Tx.inv_ready hs).mp hinv
    obtain ⟨habuf, hbs, hsc, hdone⟩ := txFinishRun_ok hr
    refine (Tx.inv_finished rfl).mpr ⟨?_, ?_, habuf, hdone⟩
    · simpa [hbs] using hlegal
    · simpa [hbs, hsc] using hscof
  | fails hi hs hf =>
    obtain ⟨-, k, p, n, -, -, rfl⟩ := hf
    exact Tx.inv_failedWith hs hinv _ _

end Sys2Proof.Machine
end

section
/-! PROOFS. What an instruction of RX leaves of the state, and RX's invariant (R23, R28, R206). -/

namespace Sys2Proof.Machine

/-! ### RX's registers during a fetch and a delivery -/

/-- RX is in a state in which it fetches (R28, R170). -/
def Rx.fetching (x : Rx) : Prop := x.state = .uninitialized ∨ x.state = .idle

/-- One change of RX's registers during a fetch (R173 to R179, R206). -/
inductive Rx.Fetches (x : Rx) : Rx → Prop where
  | consumes (n : Nat) (h : x.fetching) : Rx.Fetches x (x.moved n)
  | prologue (h : x.state = .uninitialized) : Rx.Fetches x { x with state := .idle }
  | ends (h : x.state = .idle) : Rx.Fetches x { x with state := .terminated }
  | loads (orig : Bytes) (h : x.state = .idle) (hpos : 1 ≤ orig.length) (hle : orig.length ≤ Config.maxBlockSize) :
      Rx.Fetches x { x with dbuf := orig, dcur := 0, state := .decodingBlock }
  | fails (k : ErrKind) (h : x.fetching) : Rx.Fetches x (x.failedWith k)

/-- The change of RX's registers by a delivery (R170). -/
inductive Rx.Delivers (x : Rx) : Rx → Prop where
  | drains (h : x.state = .decodingBlock) : Rx.Delivers x { x with dbuf := [], dcur := 0, state := .idle }
  | advances (k : Nat) (h : x.state = .decodingBlock) (hk : k ≤ x.dbuf.length - x.dcur)
      (hne : x.dcur + k ≠ x.dbuf.length) : Rx.Delivers x { x with dcur := x.dcur + k }

/-- The changes of RX's registers by one instruction: those of its fetch, then its delivery if it makes one. -/
def Rx.Becomes (x z : Rx) : Prop :=
  ∃ y, Relation.ReflTransGen Rx.Fetches x y ∧ Relation.ReflGen Rx.Delivers y z

section
variable {x y z : Rx}

theorem Rx.Fetches.fetching (h : x.Fetches y) : x.fetching := by
  cases h with
  | consumes n h => exact h
  | prologue h => exact .inl h
  | ends h => exact .inr h
  | loads orig h => exact .inr h
  | fails k h => exact h

/-- Nothing is fetched in DecodingBlock, Terminated and Failed. -/
theorem Rx.eq_of_fetches (hx : ¬ x.fetching) (h : Relation.ReflTransGen Rx.Fetches x y) : y = x := by
  obtain rfl | ⟨x1, h1, -⟩ := h.cases_head
  · rfl
  · exact absurd h1.fetching hx

theorem Rx.Fetches.inv (h : x.Fetches y) (hinv : x.inv = true) : y.inv = true := by
  have hx := h.fetching
  obtain ⟨hcur, hempty, herr, hle⟩ := (Rx.inv_iff x).mp hinv
  obtain ⟨hdbuf, hdcur⟩ := hempty (by rcases hx with h | h <;> simp [h])
  have hnone : x.err = none := by
    by_contra hne
    rcases hx with h | h <;> simp [herr.mp hne] at h
  rw [Rx.inv_iff]
  cases h with
  | consumes n _ => exact ⟨hcur, hempty, herr, hle⟩
  | prologue _ => simp [hdbuf, hdcur, hnone]
  | ends _ => simp [hdbuf, hdcur, hnone]
  | loads orig _ hpos hle => exact ⟨iff_of_true rfl hpos, fun h => absurd rfl h, by simp [hnone], hle⟩
  | fails k _ => simp

theorem Rx.inv_of_fetches (h : Relation.ReflTransGen Rx.Fetches x y) (hinv : x.inv = true) : y.inv = true := by
  induction h with
  | refl => exact hinv
  | tail _ h ih => exact h.inv ih

theorem Rx.Delivers.inv (h : x.Delivers z) (hinv : x.inv = true) : z.inv = true := by
  obtain ⟨hcur, -, herr, hle⟩ := (Rx.inv_iff x).mp hinv
  rw [Rx.inv_iff]
  cases h with
  | drains hs =>
    have hnone : x.err = none := by simpa [hs] using herr
    simp [hnone]
  | advances k hs hk hne =>
    have hlt := hcur.mp hs
    exact ⟨iff_of_true hs (by dsimp only; omega), fun h => absurd hs h, herr, hle⟩

theorem Rx.Becomes.inv (h : x.Becomes z) (hinv : x.inv = true) : z.inv = true := by
  obtain ⟨y, hfetch, hdeliver⟩ := h
  have hy := Rx.inv_of_fetches hfetch hinv
  cases hdeliver with
  | refl => exact hy
  | single h => exact h.inv hy

end

/-! ### The registers along a run -/

/-- However a run of RX's steps from `s` ends, it has changed RX's registers as a fetch does. -/
def FetchPost {α : Type} (s : State) : Res α → Prop
  | .ok _ s1 => Relation.ReflTransGen Rx.Fetches s.rx s1.rx
  | .raised _ s1 => Relation.ReflTransGen Rx.Fetches s.rx s1.rx
  | .stuck _ => True

theorem FetchPost.bind {α β : Type} {s : State} {r : Res α} {f : α → State → Res β} (hr : FetchPost s r)
    (hf : ∀ a s1, r = .ok a s1 → FetchPost s1 (f a s1)) : FetchPost s (r.bind f) := by
  cases r with
  | ok a s1 =>
    have h2 := hf a s1 rfl
    rw [Res.bind_ok]
    revert h2
    cases f a s1 with
    | ok b s2 => exact hr.trans
    | raised e s2 => exact hr.trans
    | stuck x => exact id
  | raised e s1 => exact hr
  | stuck x => trivial

section
variable {s : State}

theorem raising_fetchPost {α : Type} (k : ErrKind) (info : Option ErrInfo) (hs : s.rx.fetching) :
    FetchPost s (raising .rx k info s : Res α) := .single (.fails k hs)

theorem srcGet_fetchPost (n : Nat) (hs : s.rx.fetching) : FetchPost s (srcGet n s) := by
  have h := srcGet_post n s
  revert h
  cases srcGet n s with
  | ok r s1 => rintro ⟨src, b, rfl, -⟩; exact .single (.consumes _ hs)
  | raised e s1 => rintro ⟨src, b, x, -, rfl, -⟩; exact .tail (.single (.consumes _ hs)) (.fails _ hs)
  | stuck f => exact fun _ => trivial

theorem srcGet_full_length {n : Nat} {s1 : State} {b : Bytes} (h : srcGet n s = .ok (.full b) s1) : b.length = n := by
  have hp := srcGet_post n s
  rw [h] at hp
  obtain ⟨src, c, -, -, ⟨hb, hl⟩ | ⟨hb, -⟩⟩ := hp
  · cases hb; simpa using hl
  · cases hb

theorem rxLoad_fetchPost {orig : Bytes} (csum : U32) (hs : s.rx.state = .idle) (hpos : 1 ≤ orig.length)
    (hle : orig.length ≤ Config.maxBlockSize) : FetchPost s (rxLoad orig csum s) := by
  unfold rxLoad
  split
  · exact raising_fetchPost _ _ (.inr hs)
  · exact .single (.loads orig hs hpos hle)

theorem rxReconstruct_fetchPost {m : Method} {payload : Bytes} {olen : U32} (csum : U32) (hs : s.rx.state = .idle)
    (hpos : 1 ≤ olen.toNat) (hle : olen.toNat ≤ Config.maxBlockSize)
    (hraw : m = .raw → payload.length = olen.toNat) : FetchPost s (rxReconstruct m payload olen csum s) := by
  cases m with
  | raw => exact rxLoad_fetchPost csum hs (by rwa [hraw rfl]) (by rwa [hraw rfl])
  | lz4 =>
    unfold rxReconstruct
    dsimp only
    split
    · exact raising_fetchPost _ _ (.inr hs)
    · split_ifs with hlen
      · exact raising_fetchPost _ _ (.inr hs)
      · rw [not_not] at hlen
        exact rxLoad_fetchPost csum hs (by rwa [hlen]) (by rwa [hlen])

theorem rxPayload_fetchPost {m : Method} {clen olen : U32} (csum : U32) (hs : s.rx.state = .idle)
    (hd : dataLengths m clen olen = true) : FetchPost s (rxPayload m clen olen csum s) := by
  simp only [dataLengths, Bool.and_eq_true, decide_eq_true_eq] at hd
  obtain ⟨⟨hpos, hle⟩, hagree⟩ := hd
  refine (srcGet_fetchPost _ (.inr hs)).bind fun r s1 h1 => ?_
  have hs1 : s1.rx.state = .idle := (srcGet_ok_state h1).trans hs
  cases r with
  | short p => exact raising_fetchPost _ _ (.inr hs1)
  | full p =>
    refine rxReconstruct_fetchPost csum hs1 hpos hle ?_
    rintro rfl
    have hlen : clen = olen := by simpa [lengthsAgree] using hagree
    rw [srcGet_full_length h1, hlen]

theorem rxInit_fetchPost (hs : s.rx.state = .uninitialized) : FetchPost s (rxInit s) := by
  refine (srcGet_fetchPost _ (.inl hs)).bind fun r s1 h1 => ?_
  have hs1 : s1.rx.state = .uninitialized := (srcGet_ok_state h1).trans hs
  cases r with
  | short p => exact raising_fetchPost _ _ (.inl hs1)
  | full p =>
    dsimp only
    split_ifs
    · exact .single (.prologue hs1)
    · exact raising_fetchPost _ _ (.inl hs1)

theorem rxHeader_fetchPost (h : Bytes) (hs : s.rx.state = .idle) : FetchPost s (rxHeader h s) := by
  unfold rxHeader
  split
  · exact raising_fetchPost _ _ (.inr hs)
  · exact .single (.ends hs)
  · rename_i hv
    obtain ⟨rfl, rfl, -, -, -, hd⟩ := hdrClassify_data hv
    exact rxPayload_fetchPost _ hs hd

theorem rxBoundaryEnd_fetchPost (hs : s.rx.state = .idle) : FetchPost s (rxBoundaryEnd s) := by
  unfold rxBoundaryEnd
  split
  · exact .single (.ends hs)
  · exact raising_fetchPost _ _ (.inr hs)

theorem rxRefill_fetchPost (hs : s.rx.state = .idle) : FetchPost s (rxRefill s) := by
  refine (srcGet_fetchPost _ (.inr hs)).bind fun r s1 h1 => ?_
  have hs1 : s1.rx.state = .idle := (srcGet_ok_state h1).trans hs
  split
  · exact rxBoundaryEnd_fetchPost hs1
  · exact raising_fetchPost _ _ (.inr hs1)
  · exact rxHeader_fetchPost _ hs1

theorem rxFetch_fetchPost (s : State) : FetchPost s (rxFetch s) := by
  have hinit : FetchPost s (if s.rx.state = .uninitialized then rxInit s else .ok () s) := by
    split_ifs with hs
    · exact rxInit_fetchPost hs
    · exact .refl
  refine hinit.bind fun _ s1 _ => ?_
  split_ifs with hs1
  · exact rxRefill_fetchPost hs1
  · exact .refl

end

/-! ### What an instruction of RX leaves -/

/-- `t` is what an instruction of RX has made of `s`: it consumed a run of the source's next bytes, and it put its answer
at RX's port or in `opResult` (R88; log entry 7). -/
def RxLeaves (s t : State) : Prop :=
  ∃ (s1 : State) (a : Option Response) (v : OpResult), (∃ b, RxMoved s s1 b) ∧ s.rx.Becomes s1.rx ∧
    t = (s1.setRxRsp a).setOpResult v

/-- RX's error entry keeps what was consumed counted (R206). -/
theorem RxFailed.exists_moved {s s1 : State} {e : Raise} (h : RxFailed s e s1) : ∃ b, RxMoved s s1 b := by
  obtain ⟨-, src, b, hrest, rfl⟩ := h
  exact ⟨b, src, _, rfl, hrest, rfl⟩

section
variable {s s1 t : State}

theorem rxLeaves_atPort (hm : ∃ b, RxMoved s s1 b) (hb : s.rx.Becomes s1.rx) (a : Option Response) :
    RxLeaves s (s1.setRxRsp a) := ⟨s1, a, s1.opResult, hm, hb, rfl⟩

theorem rxLeaves_asOpResult (hm : ∃ b, RxMoved s s1 b) (hb : s.rx.Becomes s1.rx) (v : OpResult) :
    RxLeaves s (s1.setOpResult v) := ⟨s1, s1.rxRsp, v, hm, hb, rfl⟩

theorem rxLeaves_unmoved_atPort (a : Option Response) : RxLeaves s (s.setRxRsp a) :=
  rxLeaves_atPort ⟨[], .refl s⟩ ⟨_, .refl, .refl⟩ a

/-- The effect of a record whose bytes have been fetched (R173, R176). -/
theorem rxLeaves_record {x : Rx} (hx : s.rx.Fetches x) (hpos : x.pos = s.rx.pos) (v : OpResult) :
    RxLeaves s ((s.setRx x).setOpResult v) :=
  rxLeaves_asOpResult ⟨[], (RxMoved.refl s).setRx hpos⟩ ⟨x, .single hx, .refl⟩ v

theorem whenRx_next {states : List RxState} {body : Host.Outcome State Fault Refusal}
    (h : whenRx s states body = .next t) : s.rx.state ∈ states ∧ body = .next t := by
  unfold whenRx at h
  split_ifs at h with hs
  exact ⟨hs, h⟩

theorem rxLeaves_opAnswer {α : Type} {f : α → OpResult} {r : Res α} (hr : RxRun s r.discard) (hf : FetchPost s r)
    (h : opAnswer f r = .next t) : RxLeaves s t := by
  have hpost := hr.rxPost
  cases r with
  | ok a s1 => cases h; exact rxLeaves_asOpResult hpost ⟨_, hf, .refl⟩ _
  | raised e s1 => cases h; exact rxLeaves_asOpResult hpost.exists_moved ⟨_, hf, .refl⟩ _
  | stuck x => cases h

/-- A record or an operation of RX that runs in the states given (R89). -/
theorem rxLeaves_operation {α : Type} {f : α → OpResult} {r : Res α} {states : List RxState}
    (hr : RxRun s r.discard) (hf : s.rx.state ∈ states → FetchPost s r)
    (h : whenRx s states (opAnswer f r) = .next t) : RxLeaves s t :=
  rxLeaves_opAnswer hr (hf (whenRx_next h).1) (whenRx_next h).2

theorem rxDeliver_delivers (n : Nat) (hs : s.rx.state = .decodingBlock) :
    ∃ x : Rx, (rxDeliver n s).2 = s.setRx x ∧ x.pos = s.rx.pos ∧ s.rx.Delivers x := by
  unfold rxDeliver
  dsimp only
  split_ifs with hdrained
  · exact ⟨_, rfl, rfl, .drains hs⟩
  · exact ⟨_, rfl, rfl, .advances _ hs (Nat.min_le_right _ _) hdrained⟩

/-- A fetch from a state that is not terminal ends the stream or leaves a block in the buffer (R170). -/
theorem rxFetch_ok_state (hs : s.rx.fetching ∨ s.rx.state = .decodingBlock) (h : rxFetch s = .ok () s1) :
    s1.rx.state = .terminated ∨ s1.rx.state = .decodingBlock := by
  obtain (hinit | hidle) | hdec := hs
  · obtain ⟨_, s2, h2, -⟩ := Res.bind_eq_ok h
    rw [if_pos hinit] at h2
    rw [rxFetch_of_init hinit h2] at h
    exact (rxRefill_ok h).imp id And.left
  · rw [rxFetch_of_idle hidle] at h
    exact (rxRefill_ok h).imp id And.left
  · rw [rxFetch_of_decodingBlock hdec] at h
    cases h
    exact .inr hdec

/-- RX.READ delivers after its fetch, unless the stream has ended (R170). -/
theorem rxLeaves_rxAnswer {n : Nat} (hs : s.rx.fetching ∨ s.rx.state = .decodingBlock)
    (h : rxAnswer n (rxFetch s) = .next t) : RxLeaves s t := by
  have hpost := rxFetch_rxPost s
  have hfetch := rxFetch_fetchPost s
  have hstate := fun s1 => rxFetch_ok_state (s1 := s1) hs
  revert hpost hfetch hstate h
  cases rxFetch s with
  | ok _ s1 =>
    intro h ⟨b, hmoved⟩ hfetch hstate
    unfold rxAnswer at h
    dsimp only at h
    split_ifs at h with hend
    · cases h
      exact rxLeaves_atPort ⟨b, hmoved⟩ ⟨_, hfetch, .refl⟩ _
    · obtain ⟨x, hx, hpos, hdeliver⟩ := rxDeliver_delivers n ((hstate s1 rfl).resolve_left hend)
      rw [hx] at h
      cases h
      exact rxLeaves_atPort ⟨b, hmoved.setRx hpos⟩ ⟨_, hfetch, .single hdeliver⟩ _
  | raised e s1 =>
    intro h hfailed hfetch _
    cases h
    exact rxLeaves_atPort hfailed.exists_moved ⟨_, hfetch, .refl⟩ _
  | stuck x => intro h; cases h

theorem rxLeaves_rxRead {n : Nat} (h : exec (.rxRead n) s = .next t) : RxLeaves s t := by
  change execRxRead n s = .next t at h
  unfold execRxRead at h
  split_ifs at h
  split at h
  · unfold rxLatched at h
    split at h
    · cases h; exact rxLeaves_unmoved_atPort _
    · cases h
  · cases h; exact rxLeaves_unmoved_atPort _
  · exact rxLeaves_rxAnswer (.inl (.inl ‹_›)) h
  · exact rxLeaves_rxAnswer (.inl (.inr ‹_›)) h
  · exact rxLeaves_rxAnswer (.inr ‹_›) h

/-- Everything an instruction of RX can leave. -/
theorem exec_rxLeaves {i : Instr} (hi : ofRx i = true) (h : exec i s = .next t) : RxLeaves s t := by
  have payload {m : Method} {clen olen csum : U32} {ok : Bool} (hok : ok = true → dataLengths m clen olen = true)
      (h : whenRx s [.idle] (whenOperands ok (opAnswer (fun _ => .done) (rxPayload m clen olen csum s))) = .next t) :
      RxLeaves s t := by
    obtain ⟨hs, h⟩ := whenRx_next h
    obtain ⟨hd, h⟩ := whenOperands_next h
    exact rxLeaves_opAnswer (by simpa using .payload m clen olen csum)
      (rxPayload_fetchPost _ (List.mem_singleton.mp hs) (hok hd)) h
  cases i with
  | prologue =>
    obtain ⟨hs, h⟩ := whenRx_next h
    cases h
    exact rxLeaves_record (.prologue (List.mem_singleton.mp hs)) rfl _
  | endMarker sc =>
    obtain ⟨hs, h⟩ := whenRx_next h
    cases h
    exact rxLeaves_record (.ends (List.mem_singleton.mp hs)) rfl _
  | blkRaw sc len csum => exact payload (fun h => (Bool.and_eq_true _ _ ▸ h).1) h
  | blkLz4 sc clen olen csum => exact payload (fun h => (Bool.and_eq_true _ _ ▸ h).1) h
  | rxRead n => exact rxLeaves_rxRead h
  | rxInit =>
    exact rxLeaves_operation (by simpa using .init) (fun hs => rxInit_fetchPost (List.mem_singleton.mp hs)) h
  | rxRefill =>
    exact rxLeaves_operation (by simpa using .refill) (fun hs => rxRefill_fetchPost (List.mem_singleton.mp hs)) h
  | rxPayload m clen olen csum => exact payload id h
  | srcGet n => exact rxLeaves_operation (.get n) (fun hs => srcGet_fetchPost n (by simpa [Rx.fetching] using hs)) h
  | txConfig | txWrite | txFlush | txFinish | txPrologue | txBlock | txMarker | sinkPut | sinkFlush | le32Enc | le32Dec
  | tokEnc | tokDec | scOf | hdrPack | hdrUnpack | hdrClassify | ckGen | ckVerify => cases hi

end

end Sys2Proof.Machine
end

section
/-! PROOFS. The invariants (R23), the transitions of TX.STATE and RX.STATE (R27, R28), and what the framers leave to each
other (R30, R44, R54, R59). -/

namespace Sys2Proof.Machine

/-! ### What an instruction and a step leave -/

section
variable {i : Instr} {s t : State}

/-- A combinational operation leaves all but its value (R20, R89). -/
theorem exec_combinational (hi : combinational i = true) (h : exec i s = .next t) : ∃ v, t = s.setOpResult v := by
  have value {v : OpResult} (h : opValue v s = .next t) : ∃ v, t = s.setOpResult v := by cases h; exact ⟨v, rfl⟩
  cases i with
  | le32Dec b => exact value (whenOperands_next h).2
  | scOf bs => exact value (whenOperands_next h).2
  | hdrUnpack b => exact value (whenOperands_next h).2
  | le32Enc | tokEnc | tokDec | hdrPack | hdrClassify | ckGen | ckVerify => exact value h
  | prologue | endMarker | blkRaw | blkLz4 | rxRead | rxInit | rxRefill | rxPayload | srcGet | txConfig | txWrite
  | txFlush | txFinish | txPrologue | txBlock | txMarker | sinkPut | sinkFlush => cases hi

/-- Everything an instruction can leave. -/
theorem exec_leaves (h : exec i s = .next t) :
    (ofTx i = true ∧ TxLeaves i s t) ∨ (ofRx i = true ∧ RxLeaves s t) ∨ ∃ v, t = s.setOpResult v := by
  by_cases htx : ofTx i = true
  · exact .inl ⟨htx, exec_txLeaves htx h⟩
  · by_cases hrx : ofRx i = true
    · exact .inr (.inl ⟨hrx, exec_rxLeaves hrx h⟩)
    · exact .inr (.inr (exec_combinational (by simp [combinational, htx, hrx]) h))

/-- What an instruction of TX leaves alone, and the bytes the sink has accepted (R44, R59). -/
theorem TxStep.frame {s1 : State} (h : TxStep i s s1) :
    sameOutsideTx s s1 ∧ s.sink.accepted <+: s1.sink.accepted := by
  have run {s1 : State} (hr : TxPost s (.ok () s1)) : sameOutsideTx s s1 ∧ s.sink.accepted <+: s1.sink.accepted := by
    obtain ⟨b, k, x, rfl, hacc, -⟩ := hr
    exact ⟨⟨rfl, rfl, rfl, rfl⟩, b, hacc.symm⟩
  cases h with
  | keeps => exact ⟨⟨rfl, rfl, rfl, rfl⟩, List.prefix_rfl⟩
  | configures => exact ⟨⟨rfl, rfl, rfl, rfl⟩, List.prefix_rfl⟩
  | runs _ hr => exact run hr.txPost
  | finishes _ _ hr =>
    have hpost := (TxRun.finishCommand (s := s)).txPost
    rw [hr] at hpost
    obtain ⟨hout, hprefix⟩ := run hpost
    exact ⟨hout, hprefix⟩
  | fails _ _ hf =>
    obtain ⟨-, k, p, n, hacc, -, rfl⟩ := hf
    exact ⟨⟨rfl, rfl, rfl, rfl⟩, p, hacc.symm⟩

theorem TxLeaves.frame (h : TxLeaves i s t) : sameOutsideTx s t ∧ s.sink.accepted <+: t.sink.accepted := by
  obtain ⟨s1, a, v, hstep, rfl⟩ := h
  exact hstep.frame

theorem RxLeaves.sameOutside (h : RxLeaves s t) : sameOutsideRx s t := by
  obtain ⟨s1, a, v, ⟨b, src, x, rfl, -⟩, -, rfl⟩ := h
  exact ⟨rfl, rfl, rfl, rfl, rfl⟩

/-- RX consumes a run of the source's next bytes, and POS counts it (R26, R54). -/
theorem RxLeaves.consumes (h : RxLeaves s t) :
    ∃ b, s.source.rest = b ++ t.source.rest ∧ t.rx.pos = s.rx.pos + b.length := by
  obtain ⟨s1, a, v, ⟨b, src, x, rfl, hrest, hpos⟩, -, rfl⟩ := h
  exact ⟨b, hrest, hpos⟩

theorem RxLeaves.becomes (h : RxLeaves s t) : s.rx.Becomes t.rx := by
  obtain ⟨s1, a, v, -, hb, rfl⟩ := h
  exact hb

/-- What RX's registers can become by any instruction. -/
theorem exec_rxBecomes (h : exec i s = .next t) : s.rx.Becomes t.rx := by
  obtain ⟨-, h⟩ | ⟨-, h⟩ | ⟨v, rfl⟩ := exec_leaves h
  · obtain ⟨⟨hrx, -⟩, -⟩ := h.frame
    rw [hrx]
    exact ⟨_, .refl, .refl⟩
  · exact h.becomes
  · exact ⟨_, .refl, .refl⟩

end

/-- The commands at TX's port are TX's (R88). -/
theorem ofTx_decodeTx (c : TxCmd) : ofTx (decodeTx c) = true := by
  unfold decodeTx
  split_ifs <;> rfl

/-- What input `x` of the host makes of the state `s` it is taken from (R20, R88, R230; log entry 15). -/
inductive HostStep (s : State) : HostInput → State → Prop where
  | tx {t : State} (c : TxCmd) (h : exec (decodeTx c) s = .next t) : HostStep s (.tx c) t
  | rx {t : State} (c : RxCmd) (h : exec (.rxRead c.n) s = .next t) : HostStep s (.rx c) t
  | txReset : HostStep s .txReset (resetFramer .tx s)
  | rxReset : HostStep s .rxReset (resetFramer .rx s)
  | sinkWrite (b : Bytes) :
      HostStep s (.sinkWrite b) (s.setSink { s.sink with accepted := s.sink.accepted ++ b })
  | sourceTake (n : Nat) : HostStep s (.sourceTake n) (s.setSource { s.source with rest := s.source.rest.drop n })
  | sourceSupply (b : Bytes) :
      HostStep s (.sourceSupply b) (s.setSource { s.source with rest := s.source.rest ++ b })

/-- Everything a step that takes input `x` can leave. -/
theorem step_hostStep {x : HostInput} {rest : List HostInput} {s t : State} (hin : s.inbox = x :: rest)
    (h : step s = .next t) : HostStep (s.setInbox rest) x t := by
  cases x with
  | tx c => exact .tx c ((step_tx hin rfl).symm.trans h)
  | rx c =>
    rw [step_rx hin, runEncoded, decode, decodeRx] at h
    split_ifs at h
    exact .rx c h
  | txReset => rw [step, hin] at h; cases h; exact .txReset
  | rxReset => rw [step, hin] at h; cases h; exact .rxReset
  | sinkWrite b =>
    rw [step, hin] at h
    unfold runInput at h
    dsimp only at h
    split_ifs at h
    cases h
    exact .sinkWrite b
  | sourceTake n =>
    rw [step, hin] at h
    unfold runInput at h
    dsimp only at h
    split_ifs at h
    cases h
    exact .sourceTake n
  | sourceSupply b => rw [step, hin] at h; cases h; exact .sourceSupply b

/-- Only an input at TX's port writes TX's registers (R231). -/
theorem HostStep.tx_eq {s t : State} {x : HostInput} (h : HostStep s x t) (hc : ∀ c, x ≠ .tx c) (hr : x ≠ .txReset) :
    t.tx = s.tx := by
  cases h with
  | tx c => exact absurd rfl (hc c)
  | rx c h => exact (exec_rxLeaves rfl h).sameOutside.1
  | txReset => exact absurd rfl hr
  | rxReset | sinkWrite | sourceTake | sourceSupply => rfl

/-- Only an input at RX's port writes RX's registers (R231). -/
theorem HostStep.rx_eq {s t : State} {x : HostInput} (h : HostStep s x t) (hc : ∀ c, x ≠ .rx c) (hr : x ≠ .rxReset) :
    t.rx = s.rx := by
  cases h with
  | tx c h => exact (exec_txLeaves (ofTx_decodeTx c) h).frame.1.1
  | rx c => exact absurd rfl (hc c)
  | rxReset => exact absurd rfl hr
  | txReset | sinkWrite | sourceTake | sourceSupply => rfl

/-! ### The invariants (R23) -/

theorem State.inv_iff (s : State) : s.inv = true ↔ s.tx.inv = true ∧ s.rx.inv = true := by simp [State.inv]

/-- Every instruction keeps the invariants of R23. -/
theorem exec_keeps_inv {i : Instr} {s t : State} (hinv : s.inv = true) (h : exec i s = .next t) : t.inv = true := by
  obtain ⟨htx, hrx⟩ := (State.inv_iff s).mp hinv
  refine (State.inv_iff t).mpr ⟨?_, (exec_rxBecomes h).inv hrx⟩
  obtain ⟨-, s1, a, v, hstep, rfl⟩ | ⟨-, h⟩ | ⟨v, rfl⟩ := exec_leaves h
  · exact hstep.inv htx
  · obtain ⟨heq, -⟩ := h.sameOutside
    rwa [heq]
  · exact htx

/-- Settles O50: the reset values are closed, and the invariants bound the buffers. -/
theorem resetMeetsTheInvariant : Obligations.ResetMeetsTheInvariant :=
  have hinv : State.reset.inv = true := by decide
  ⟨hinv, Memory.wf_of_inv hinv⟩

/-- Reset of either framer makes its own invariant true and keeps the other's (R34, R230). -/
theorem resetFramer_keeps_inv (u : Framer) {s : State} (hinv : s.inv = true) : (resetFramer u s).inv = true := by
  obtain ⟨htx, hrx⟩ := (State.inv_iff s).mp hinv
  obtain ⟨htx0, hrx0⟩ := (State.inv_iff _).mp resetMeetsTheInvariant.1
  cases u with
  | tx => exact (State.inv_iff _).mpr ⟨htx0, hrx⟩
  | rx => exact (State.inv_iff _).mpr ⟨htx, hrx0⟩

/-- Every step keeps the invariants of R23. -/
theorem step_keeps_inv {s t : State} (hinv : s.inv = true) (h : step s = .next t) : t.inv = true := by
  cases hin : s.inbox with
  | nil =>
    rw [step, hin] at h
    cases h
    exact hinv
  | cons x rest =>
    have hinv : (s.setInbox rest).inv = true := hinv
    cases step_hostStep hin h with
    | tx c h => exact exec_keeps_inv hinv h
    | rx c h => exact exec_keeps_inv hinv h
    | txReset => exact resetFramer_keeps_inv .tx hinv
    | rxReset => exact resetFramer_keeps_inv .rx hinv
    | sinkWrite => exact hinv
    | sourceTake => exact hinv
    | sourceSupply => exact hinv

/-- Settles O51: every instruction keeps the invariants, so every step does, and they bound the buffers. -/
theorem invariantIsKept : Obligations.InvariantIsKept :=
  ⟨fun _ _ hinv h => ⟨step_keeps_inv hinv h, Memory.wf_of_inv (step_keeps_inv hinv h)⟩,
    fun _ _ _ hinv h => exec_keeps_inv hinv h⟩

/-! ### The transitions of TX.STATE (R27) -/

/-- R27's transitions of TX.STATE, from `a` to `b`, under the conditions given for the three that change it. -/
def TxArc (configures finishes fails : Prop) (a b : TxState) : Prop :=
  (a = .unconfigured → b = .unconfigured ∨ b = .ready ∧ configures) ∧
    (a = .ready → b = .ready ∨ b = .finished ∧ finishes ∨ b = .failed ∧ fails) ∧
    (a = .finished → b = .finished) ∧ (a = .failed → b = .failed)

section
variable {p q r p' q' r' : Prop} {a b : TxState}

theorem TxArc.refl (a : TxState) : TxArc p q r a a := ⟨.inl, .inl, id, id⟩

theorem TxArc.mono (h : TxArc p q r a b) (hp : p → p') (hq : q → q') (hr : r → r') : TxArc p' q' r' a b := by
  obtain ⟨hunconfigured, hready, hfinished, hfailed⟩ := h
  exact ⟨fun ha => (hunconfigured ha).imp_right (And.imp_right hp),
    fun ha => (hready ha).imp_right (Or.imp (And.imp_right hq) (And.imp_right hr)), hfinished, hfailed⟩

end

/-- TX.CONFIG configures, TX.FINISH finishes, and any other instruction of TX may fail. -/
theorem exec_txArc {i : Instr} {s t : State} (h : exec i s = .next t) :
    TxArc (∃ bs, i = .txConfig bs) (i = .txFinish) (ofTx i = true ∧ ∀ bs, i ≠ .txConfig bs) s.tx.state t.tx.state := by
  obtain ⟨htx, s1, a, v, hstep, rfl⟩ | ⟨-, h⟩ | ⟨v, rfl⟩ := exec_leaves h
  · simp only [State.setOpResult_tx, State.setTxRsp_tx]
    cases hstep with
    | keeps => exact .refl _
    | configures bs hi hs => rw [hs]; exact ⟨fun _ => .inr ⟨rfl, bs, hi⟩, nofun, nofun, nofun⟩
    | runs _ hr => rw [hr.ok_config.1]; exact .refl _
    | finishes hi hs => rw [hs]; exact ⟨nofun, fun _ => .inr (.inl ⟨rfl, hi⟩), nofun, nofun⟩
    | fails hi hs hf =>
      obtain ⟨-, k, p, n, -, -, rfl⟩ := hf
      rw [hs]
      exact ⟨nofun, fun _ => .inr (.inr ⟨rfl, htx, hi⟩), nofun, nofun⟩
  · obtain ⟨heq, -⟩ := h.sameOutside
    rw [heq]
    exact .refl _
  · exact .refl _

/-- TX.CONFIG is code 0 at TX's port (R88). -/
theorem decodeTx_eq_txConfig_iff (c : TxCmd) : (∃ bs, decodeTx c = .txConfig bs) ↔ c.op = 0 := by
  unfold decodeTx
  split_ifs <;> simp_all

/-- TX.FINISH is code 3 at TX's port (R88). -/
theorem op_of_decodeTx_eq_txFinish {c : TxCmd} (h : decodeTx c = .txFinish) : c.op = 3 := by
  unfold decodeTx at h
  split_ifs at h with h0 h1 h2
  bv_omega

/-- Settles O53: an instruction of TX makes R27's transitions and any other none; a command at TX's port is decoded from
the code stated. -/
theorem txStateTransitions : Obligations.TxStateTransitions := by
  refine ⟨fun i s t h => (exec_txArc h).mono id id And.left, fun x rest s t hin hx h => ?_⟩
  have hstep := step_hostStep hin h
  by_cases hc : ∃ c, x = .tx c
  · obtain ⟨⟨op, bs, data⟩, rfl⟩ := hc
    cases hstep with
    | tx _ h =>
      obtain ⟨hunconfigured, hready, hfinished, hfailed⟩ := (exec_txArc h).mono
        (p' := ∃ bs' data', HostInput.tx ⟨op, bs, data⟩ = .tx ⟨0, bs', data'⟩)
        (q' := ∃ bs' data', HostInput.tx ⟨op, bs, data⟩ = .tx ⟨3, bs', data'⟩)
        (r' := ∃ op' bs' data', HostInput.tx ⟨op, bs, data⟩ = .tx ⟨op', bs', data'⟩ ∧ op' ≠ 0)
        (fun hi => ⟨bs, data, by rw [← (decodeTx_eq_txConfig_iff _).mp hi]⟩)
        (fun hi => ⟨bs, data, by rw [← op_of_decodeTx_eq_txFinish hi]⟩)
        (fun ⟨_, hi⟩ => ⟨op, bs, data, rfl, fun h0 => by
          obtain ⟨bs', hbs⟩ := (decodeTx_eq_txConfig_iff ⟨op, bs, data⟩).mpr h0
          exact hi bs' hbs⟩)
      exact ⟨hunconfigured, hready, hfinished, hfailed, fun hc => absurd rfl (hc _)⟩
  · have heq : t.tx.state = s.tx.state := congrArg Tx.state (hstep.tx_eq (not_exists.mp hc) hx)
    rw [heq]
    exact ⟨.inl, .inl, id, id, fun _ => rfl⟩

/-! ### The transitions of RX.STATE (R28) -/

/-- The transitions of RX.STATE, from `a` to `b`, that an instruction can make (R28, R212). -/
def RxArc (a b : RxState) : Prop :=
  (a = .decodingBlock → b = .decodingBlock ∨ b = .idle) ∧ (a ≠ .uninitialized → b ≠ .uninitialized) ∧
    (a = .terminated → b = .terminated) ∧ (a = .failed → b = .failed)

theorem RxArc.refl (a : RxState) : RxArc a a := ⟨.inl, id, id, id⟩

/-- No change during a fetch leads back to Uninitialized. -/
theorem Rx.not_uninitialized_of_fetches {x y : Rx} (h : Relation.ReflTransGen Rx.Fetches x y)
    (hx : x.state ≠ .uninitialized) : y.state ≠ .uninitialized := by
  induction h with
  | refl => exact hx
  | tail _ h ih =>
    cases h with
    | consumes => exact ih
    | prologue | ends | loads | fails => nofun

/-- A delivery keeps DecodingBlock or leads to Idle (R170). -/
theorem Rx.Delivers.states {x z : Rx} (h : x.Delivers z) :
    x.state = .decodingBlock ∧ (z.state = .decodingBlock ∨ z.state = .idle) := by
  cases h with
  | drains hs => exact ⟨hs, .inr rfl⟩
  | advances k hs => exact ⟨hs, .inl hs⟩

/-- A fetch changes RX.STATE from Uninitialized and Idle only, a delivery from DecodingBlock only. -/
theorem Rx.Becomes.rxArc {x z : Rx} (h : x.Becomes z) : RxArc x.state z.state := by
  obtain ⟨y, hfetch, hdeliver⟩ := h
  have hy : RxArc x.state y.state := by
    by_cases hx : x.fetching
    · have hne := Rx.not_uninitialized_of_fetches hfetch
      rcases hx with hx | hx
      · simp [RxArc, hx]
      · simpa [RxArc, hx] using hne
    · rw [Rx.eq_of_fetches hx hfetch]
      exact .refl _
  cases hdeliver with
  | refl => exact hy
  | single h =>
    obtain ⟨-, -, hterminated, hfailed⟩ := hy
    obtain ⟨hdec, hz⟩ := h.states
    refine ⟨fun _ => hz, fun _ hun => ?_, fun hx => ?_, fun hx => ?_⟩
    · simp [hun] at hz
    · simp [hterminated hx] at hdec
    · simp [hfailed hx] at hdec

/-- Settles O54: the changes of RX's registers by an instruction; only an input at RX's port runs one of RX's. -/
theorem rxStateTransitions : Obligations.RxStateTransitions := by
  refine ⟨fun i s t h => (exec_rxBecomes h).rxArc, fun x rest s t hin hx h => ?_⟩
  have hstep := step_hostStep hin h
  by_cases hc : ∃ c, x = .rx c
  · obtain ⟨c, rfl⟩ := hc
    cases hstep with
    | rx _ h =>
      obtain ⟨hdecoding, huninitialized, hterminated, hfailed⟩ := (exec_rxBecomes h).rxArc
      exact ⟨hdecoding, huninitialized, hterminated, hfailed, fun hc => absurd rfl (hc c)⟩
  · have heq : t.rx.state = s.rx.state := congrArg Rx.state (hstep.rx_eq (not_exists.mp hc) hx)
    rw [heq]
    exact ⟨.inl, id, id, id, fun _ => rfl⟩

/-! ### What the framers leave to each other (R30, R44, R54, R59) -/

/-- An instruction of TX other than TX.CONFIG keeps BLOCK_SIZE and SC (R30). -/
theorem TxStep.keeps_config {i : Instr} {s s1 : State} (h : TxStep i s s1) (hi : ∀ bs, i ≠ .txConfig bs) :
    s1.tx.blockSize = s.tx.blockSize ∧ s1.tx.sc = s.tx.sc := by
  cases h with
  | keeps => exact ⟨rfl, rfl⟩
  | configures bs hbs => exact absurd hbs (hi bs)
  | runs _ hr => exact hr.ok_config.2
  | finishes _ _ hr =>
    obtain ⟨-, hbs, hsc, -⟩ := txFinishRun_ok hr
    exact ⟨hbs, hsc⟩
  | fails _ _ hf =>
    obtain ⟨-, k, p, n, -, -, rfl⟩ := hf
    exact ⟨rfl, rfl⟩

/-- Settles O55: of TX's instructions only TX.CONFIG writes the two, the others write no register of TX. -/
theorem onlyConfigWritesBlockSize : Obligations.OnlyConfigWritesBlockSize := by
  intro i s t h hi
  obtain ⟨-, s1, a, v, hstep, rfl⟩ | ⟨-, h⟩ | ⟨v, rfl⟩ := exec_leaves h
  · exact hstep.keeps_config hi
  · obtain ⟨heq, -⟩ := h.sameOutside
    rw [heq]
    exact ⟨rfl, rfl⟩
  · exact ⟨rfl, rfl⟩

/-- Settles O56: the frames of TX's and RX's instructions and of the combinational ones. -/
theorem framersAreIndependent : Obligations.FramersAreIndependent := fun _ _ _ h =>
  ⟨fun hi => (exec_txLeaves hi h).frame.1, fun hi => (exec_rxLeaves hi h).sameOutside, fun hi => exec_combinational hi h⟩

/-- Settles O57: TX appends to the sink and leaves the source, RX consumes from the source and leaves the sink. -/
theorem streamsAreSequential : Obligations.StreamsAreSequential := by
  intro i s t h
  obtain ⟨-, h⟩ | ⟨-, h⟩ | ⟨v, rfl⟩ := exec_leaves h
  · obtain ⟨⟨hrx, hsource, -⟩, hprefix⟩ := h.frame
    exact ⟨hprefix, [], by simp [hsource], by simp [hrx]⟩
  · obtain ⟨-, hsink, -⟩ := h.sameOutside
    exact ⟨hsink ▸ List.prefix_rfl, h.consumes⟩
  · exact ⟨List.prefix_rfl, [], rfl, rfl⟩

/-! ### TX.PROLOGUE and reset -/

/-- Settles O27: `txPrologue_of_cooperates` where MAGIC is due. -/
theorem txProloguePutsMagicOnce : Obligations.TxProloguePutsMagicOnce := by
  intro s hs
  have hexec : exec .txPrologue s = opAnswer (fun _ => .done) (txPrologue s) := by
    simp [exec, execTxPrologue, whenTxReady, hs]
  refine ⟨fun hdone => ?_, fun hdue hk => ?_⟩
  · exact hexec.trans (opAnswer_of_ok (if_pos hdone))
  · obtain ⟨k, hrun, happ, -⟩ := txPrologue_of_cooperates s hk
    have hmagic : prologueDue s.tx = magic := by simp [prologueDue, hdue]
    rw [hmagic] at hrun happ
    exact ⟨_, hexec.trans (opAnswer_of_ok hrun), rfl, happ.accepted, happ.flushRequests, rfl, ⟨rfl, rfl, rfl, rfl⟩, rfl⟩

/-- Settles O47: reset writes `Tx.reset` or `Rx.reset`. -/
theorem resetRestoresOneFramer : Obligations.ResetRestoresOneFramer := by
  refine fun rest s => ⟨fun hin => ⟨Tx.reset, rfl, rfl, rfl, rfl, ?_⟩, fun hin => ?_⟩
  · rw [step, hin]; rfl
  · rw [step, hin]; rfl

end Sys2Proof.Machine
end

section
/-! PROOFS. What RX.REFILL has loaded (R174 to R179), and the host's own access to the endpoints (R62, R150, R215). -/

namespace Sys2Proof.Machine

/-! ### What a fetch that went on has loaded -/

/-- The lengths of a `Data` verdict, as a proposition (R117 (h)). -/
theorem dataLengths_iff (m : Method) (clen olen : U32) : dataLengths m clen olen = true ↔
    1 ≤ olen.toNat ∧ olen.toNat ≤ Config.maxBlockSize ∧ lengthsAgree m clen olen = true := by
  simp [dataLengths, and_assoc]

section
variable {s s' : State}

/-- SrcGet that answers `Full` has taken just those bytes from the source (R17). -/
theorem srcGet_full {n : Nat} {b : Bytes} (h : srcGet n s = .ok (.full b) s') :
    b.length = n ∧ ∃ src : Source, s.source.rest = b ++ src.rest ∧ s' = (s.setSource src).setRx (s.rx.moved n) := by
  have hlen := srcGet_full_length h
  have hpost := srcGet_post n s
  rw [h] at hpost
  obtain ⟨src, c, hs', hrest, ⟨hb, -⟩ | ⟨hb, -⟩⟩ := hpost
  · obtain rfl : b = c := by simpa using hb
    exact ⟨hlen, src, hrest, by rw [← hlen]; exact hs'⟩
  · cases hb

/-- Only bytes with the expected checksum are loaded (R179). -/
theorem rxLoad_ok_iff {orig : Bytes} {csum : U32} :
    rxLoad orig csum s = .ok () s' ↔ hash32 orig = csum ∧ s' = s.setRx (s.rx.loadedWith orig) := by
  unfold rxLoad ckVerify
  by_cases hsum : hash32 orig = csum
  · simp [hsum, Rx.loadedWith, eq_comm]
  · simp [hsum]

/-- Reconstruction that went on loaded `olen` bytes with the checksum `csum`: the payload itself for RAW, and for LZ4
only after the length check (R177, R178). -/
theorem rxReconstruct_loads {m : Method} {payload : Bytes} {olen csum : U32}
    (hraw : m = .raw → payload.length = olen.toNat) (h : rxReconstruct m payload olen csum s = .ok () s') :
    ∃ orig, orig.length = olen.toNat ∧ hash32 orig = csum ∧ s' = s.setRx (s.rx.loadedWith orig) := by
  cases m with
  | raw => exact ⟨payload, hraw rfl, rxLoad_ok_iff.mp h⟩
  | lz4 =>
    simp only [rxReconstruct] at h
    split at h
    · exact absurd h (by simp)
    · split_ifs at h with hlen
      · exact absurd h (by simp)
      · exact ⟨_, not_not.mp hlen, rxLoad_ok_iff.mp h⟩

/-- RX.PAYLOAD that went on consumed `clen` bytes and loaded `olen` bytes with the checksum `csum` (R177 to R179). -/
theorem rxPayload_loads {m : Method} {clen olen csum : U32} (hd : dataLengths m clen olen = true)
    (h : rxPayload m clen olen csum s = .ok () s') :
    ∃ orig, orig.length = olen.toNat ∧ hash32 orig = csum ∧ s'.rx = (s.rx.moved clen.toNat).loadedWith orig := by
  obtain ⟨r, s1, hget, hrec⟩ := Res.bind_eq_ok h
  cases r with
  | short p => exact absurd hrec (by simp)
  | full payload =>
    obtain ⟨hlen, src, -, rfl⟩ := srcGet_full hget
    have hraw : m = .raw → payload.length = olen.toNat := by
      rintro rfl
      obtain ⟨-, -, hagree⟩ := (dataLengths_iff _ _ _).mp hd
      have heq : clen = olen := by simpa [lengthsAgree] using hagree
      rw [hlen, heq]
    obtain ⟨orig, horig, hsum, rfl⟩ := rxReconstruct_loads hraw hrec
    exact ⟨orig, horig, hsum, rfl⟩

/-- RX.REFILL that loaded a block fetched a `Data` header and loaded what RX.PAYLOAD loads for its fields: a marker and
the source's end between two blocks end the stream instead (R174 to R176). -/
theorem rxRefill_loads (h : rxRefill s = .ok () s') (hdec : s'.rx.state = .decodingBlock) :
    ∃ (hdr : Bytes) (m : Method) (clen olen csum : U32) (orig : Bytes), hdr.length = Config.headerLen ∧
      hdr <+: s.source.rest ∧ hdrClassify (hdrUnpack hdr) = .data m clen olen csum ∧ orig.length = olen.toNat ∧
      hash32 orig = csum ∧ s'.rx = ((s.rx.moved Config.headerLen).moved clen.toNat).loadedWith orig := by
  obtain ⟨r, s1, hget, hrun⟩ := Res.bind_eq_ok h
  split at hrun
  · unfold rxBoundaryEnd at hrun
    split at hrun
    · cases hrun; cases hdec
    · exact absurd hrun (by simp)
  · exact absurd hrun (by simp)
  · rename_i hdr
    obtain ⟨hlen, src, hrest, rfl⟩ := srcGet_full hget
    unfold rxHeader at hrun
    split at hrun
    · exact absurd hrun (by simp)
    · cases hrun; cases hdec
    · rename_i m clen olen csum hv
      obtain ⟨rfl, rfl, -, -, -, hd⟩ := hdrClassify_data hv
      obtain ⟨orig, horig, hsum, hrx⟩ := rxPayload_loads hd hrun
      exact ⟨hdr, m, _, _, csum, orig, hlen, ⟨_, hrest.symm⟩, hv, horig, hsum, hrx⟩

/-- RX.REFILL run as one instruction leaves RX not Failed only if its run went on (R174, R206). -/
theorem exec_rxRefill_not_failed (hs : s.rx.state = .idle) (h : exec .rxRefill s = .next s')
    (hs' : s'.rx.state ≠ .failed) : ∃ s1, rxRefill s = .ok () s1 ∧ s'.rx = s1.rx := by
  rw [exec_rxRefill hs] at h
  have hpost := rxRefill_rxPost s
  revert h hpost
  cases rxRefill s with
  | ok _ s1 => intro h _; cases h; exact ⟨s1, rfl, rfl⟩
  | raised e s1 =>
    rintro h ⟨-, src, b, -, rfl⟩
    cases h
    exact absurd rfl hs'
  | stuck f => intro h; cases h

end

/-- Settles O46: what `rxRefill_loads` says of the run, with the bounds a `Data` verdict gives its lengths (R117). -/
theorem loadedBytesAreVerified : Obligations.LoadedBytesAreVerified := by
  intro s t hs hexec ht
  obtain ⟨s1, hrun, hrx⟩ := exec_rxRefill_not_failed hs hexec (by simp [ht])
  obtain ⟨hdr, m, clen, olen, csum, orig, hlen, hpre, hv, horig, hsum, hs1⟩ := rxRefill_loads hrun (hrx ▸ ht)
  obtain ⟨-, rfl, -, -, -, hd⟩ := hdrClassify_data hv
  obtain ⟨hpos, hmax, -⟩ := (dataLengths_iff _ _ _).mp hd
  rw [hrx, hs1]
  exact ⟨hdr, m, clen, _, csum, hlen, hpre, hv, horig, hpos.trans_eq horig.symm, horig.trans_le hmax, rfl, hsum, rfl⟩

/-! ### The host's own access to the endpoints -/

/-- A step takes the next input and runs it (R20). -/
theorem step_of_inbox {x : HostInput} {rest : List HostInput} {s : State} (h : s.inbox = x :: rest) :
    step s = runInput x (s.setInbox rest) := by rw [step, h]

/-- TX holds the sink from its first request, in Ready (R150, R215). -/
theorem sinkBorrowed_iff (s : State) : sinkBorrowed s = true ↔ s.sink.used = true ∧ s.tx.state = .ready := by
  simp [sinkBorrowed]

/-- RX holds the source from its first request, until it is Terminated or Failed (R215). -/
theorem sourceBorrowed_iff (s : State) :
    sourceBorrowed s = true ↔ s.source.used = true ∧ s.rx.state ≠ .terminated ∧ s.rx.state ≠ .failed := by
  simp [sourceBorrowed, and_assoc]

/-- Settles O49: the host's access is refused exactly where the endpoint is borrowed. -/
theorem borrowedEndpointsAreTheUnits : Obligations.BorrowedEndpointsAreTheUnits := by
  refine fun b n rest s => ⟨fun hin hused hst => ?_, fun hin hfree => ?_, fun hin hused hterm hfail => ?_,
    fun hin hfree => ?_, fun hin => step_of_inbox hin⟩ <;> rw [step_of_inbox hin]
  · exact if_pos ((sinkBorrowed_iff _).mpr ⟨hused, hst⟩)
  · refine if_neg fun hheld => ?_
    obtain ⟨hused, hst⟩ : s.sink.used = true ∧ s.tx.state = .ready := (sinkBorrowed_iff _).mp hheld
    simp [hused, hst] at hfree
  · exact if_pos ((sourceBorrowed_iff _).mpr ⟨hused, hterm, hfail⟩)
  · refine if_neg fun hheld => ?_
    obtain ⟨hused, hterm, hfail⟩ : s.source.used = true ∧ s.rx.state ≠ .terminated ∧ s.rx.state ≠ .failed :=
      (sourceBorrowed_iff _).mp hheld
    simp [hused, hterm, hfail] at hfree

end Sys2Proof.Machine
end

section
/-! PROOFS. The encodings (R80 to R88): which record a header selects, and that the decoder and the encoder invert each
other. -/

namespace Sys2Proof

/-! ### The record a header selects -/

/-- The record that the 13 bytes of the header `h` stand for, by the verdict on it (R85, R117). -/
inductive Header.Selects (h : Header) : Instr → Prop where
  | marker (hv : hdrClassify h = .marker) : h.Selects (.endMarker (tokDec h.token).2)
  | raw (hv : hdrClassify h = .data .raw h.clen h.olen h.csum) :
      h.Selects (.blkRaw (tokDec h.token).2 h.olen h.csum)
  | lz4 (hv : hdrClassify h = .data .lz4 h.clen h.olen h.csum) :
      h.Selects (.blkLz4 (tokDec h.token).2 h.clen h.olen h.csum)

/-- The record decoder gives what the header selects, and rejects every other string (R85). -/
theorem decodeRecord_eq_ok_iff {b : Bytes} {i : Instr} :
    decodeRecord b = .ok i ↔ b.length = 13 ∧ (hdrUnpack b).Selects i := by
  by_cases hl : b.length = 13
  · rw [decodeRecord_eq hl]
    constructor
    · intro h
      refine ⟨hl, ?_⟩
      split at h
      · cases h
        exact .marker ‹_›
      · rename_i hv
        cases h
        obtain ⟨rfl, rfl, rfl, -⟩ := hdrClassify_data hv
        exact .raw hv
      · rename_i hv
        cases h
        obtain ⟨rfl, rfl, rfl, -⟩ := hdrClassify_data hv
        exact .lz4 hv
      · cases h
    · rintro ⟨-, ⟨hv⟩ | ⟨hv⟩ | ⟨hv⟩⟩ <;> rw [hv]
  · have hrej : decodeRecord b = .error .headerLength := if_pos hl
    simp [hrej, hl]

/-! ### Encode and decode of a record -/

theorem encode_endMarker (sc : U4) : encode (.endMarker sc) = some (.wireRecord (hdrPack ⟨tokEnc .raw sc, 0, 0, 0⟩)) :=
  rfl

theorem encode_blkRaw (sc : U4) (len csum : U32) :
    encode (.blkRaw sc len csum) = some (.wireRecord (hdrPack ⟨tokEnc .raw sc, len, len, csum⟩)) := rfl

theorem encode_blkLz4 (sc : U4) (clen olen csum : U32) :
    encode (.blkLz4 sc clen olen csum) = some (.wireRecord (hdrPack ⟨tokEnc .lz4 sc, clen, olen, csum⟩)) := rfl

/-- A RAW block's two lengths are one (R117 (d)). -/
theorem eq_of_dataLengths_raw {clen olen : U32} (hd : dataLengths .raw clen olen = true) : clen = olen := by
  obtain ⟨-, -, hagree⟩ := (Machine.dataLengths_iff _ _ _).mp hd
  exact of_decide_eq_true hagree

/-- No bit of a header is lost in the record it selects, which is well formed (R116, R117). -/
theorem Header.Selects.encode {h : Header} {i : Instr} (hs : h.Selects i) :
    encode i = some (.wireRecord (hdrPack h)) ∧ WellFormed i = true := by
  obtain ⟨token, clen, olen, csum⟩ := h
  cases hs with
  | marker hv =>
    obtain ⟨hm, rfl, rfl, rfl⟩ := hdrClassify_marker.mp hv
    exact ⟨by rw [encode_endMarker, tokEnc_of_tokDec hm], rfl⟩
  | raw hv =>
    obtain ⟨-, -, -, hm, hsc, hd⟩ := hdrClassify_data hv
    obtain rfl : clen = olen := eq_of_dataLengths_raw hd
    exact ⟨by rw [encode_blkRaw, tokEnc_of_tokDec hm], Bool.and_eq_true_iff.mpr ⟨hd, hsc⟩⟩
  | lz4 hv =>
    obtain ⟨-, -, -, hm, hsc, hd⟩ := hdrClassify_data hv
    exact ⟨by rw [encode_blkLz4, tokEnc_of_tokDec hm], Bool.and_eq_true_iff.mpr ⟨hd, hsc⟩⟩

/-- The header of a marker selects END with its size class (R85). -/
theorem selects_endMarker (sc : U4) : Header.Selects ⟨tokEnc .raw sc, 0, 0, 0⟩ (.endMarker sc) := by
  have hs := Header.Selects.marker (h := ⟨tokEnc .raw sc, 0, 0, 0⟩)
    (hdrClassify_marker.mpr ⟨by rw [tokDec_tokEnc], rfl, rfl, rfl⟩)
  rwa [tokDec_tokEnc] at hs

/-- A header whose fields meet R117's tests is `Data` of its token's method. -/
theorem hdrClassify_tokEnc {m : Method} {sc : U4} {clen olen : U32} (csum : U32)
    (hd : dataLengths m clen olen = true) (hsc : withinSizeClass sc olen = true) :
    hdrClassify ⟨tokEnc m sc, clen, olen, csum⟩ = .data m clen olen csum :=
  hdrClassify_of_data (by rw [tokDec_tokEnc]) (by rw [tokDec_tokEnc]; exact hsc) hd

theorem selects_blkRaw {sc : U4} {len : U32} (csum : U32) (hwf : WellFormed (.blkRaw sc len csum) = true) :
    Header.Selects ⟨tokEnc .raw sc, len, len, csum⟩ (.blkRaw sc len csum) := by
  obtain ⟨hd, hsc⟩ := Bool.and_eq_true_iff.mp hwf
  have hs := Header.Selects.raw (hdrClassify_tokEnc csum hd hsc)
  rwa [tokDec_tokEnc] at hs

theorem selects_blkLz4 {sc : U4} {clen olen : U32} (csum : U32) (hwf : WellFormed (.blkLz4 sc clen olen csum) = true) :
    Header.Selects ⟨tokEnc .lz4 sc, clen, olen, csum⟩ (.blkLz4 sc clen olen csum) := by
  obtain ⟨hd, hsc⟩ := Bool.and_eq_true_iff.mp hwf
  have hs := Header.Selects.lz4 (hdrClassify_tokEnc csum hd hsc)
  rwa [tokDec_tokEnc] at hs

theorem Header.Selects.decode {h : Header} {i : Instr} (hs : h.Selects i) :
    decode (.wireRecord (hdrPack h)) = .ok i :=
  decodeRecord_eq_ok_iff.mpr ⟨hdrPack_length h, by rwa [hdrUnpack_hdrPack]⟩

/-- Settles O9: a record's header selects the record back; a command's `op` is its own. -/
theorem decodeOfEncodeIsTheInstruction : Obligations.DecodeOfEncodeIsTheInstruction := by
  intro i e hwf he
  cases i with
  | prologue => cases he; rfl
  | endMarker sc => cases he; exact (selects_endMarker sc).decode
  | blkRaw sc len csum => cases he; exact (selects_blkRaw csum hwf).decode
  | blkLz4 sc clen olen csum => cases he; exact (selects_blkLz4 csum hwf).decode
  | txConfig | txWrite | txFlush | txFinish | rxRead => cases he; rfl
  | le32Enc | le32Dec | tokEnc | tokDec | scOf | hdrPack | hdrUnpack | hdrClassify | ckGen | ckVerify | txPrologue
  | txBlock | txMarker | rxInit | rxRefill | rxPayload | srcGet | sinkPut | sinkFlush => cases he

/-- Settles O10: the header is selected and packed again (`Header.Selects.encode`). -/
theorem encodeOfDecodedRecordIsItsBytes : Obligations.EncodeOfDecodedRecordIsItsBytes := by
  intro h i hdec
  obtain ⟨hl, hs⟩ := decodeRecord_eq_ok_iff.mp hdec
  have henc := hs.encode
  rwa [hdrPack_hdrUnpack hl] at henc

/-- Settles O11: each word is the encoding of its instruction, so O9 decodes it. -/
theorem writtenOutWordsDecode : Obligations.WrittenOutWordsDecode := by
  have word {i : Instr} {e : Encoded} (he : encode i = some e) (hwf : WellFormed i = true) : decode e = .ok i :=
    decodeOfEncodeIsTheInstruction i e hwf he
  exact ⟨word rfl rfl, word rfl (by decide), word rfl (by decide), word rfl rfl, word rfl rfl, word rfl rfl,
    word rfl rfl, word rfl rfl, word rfl rfl⟩

/-! ### The opcode map by mask and match (R85) -/

/-- The prologue is recognised by its bytes (R81). -/
theorem decodeStart_eq_prologue_iff (b : Bytes) : decodeStart b = .ok .prologue ↔ b = magic := by
  unfold decodeStart
  by_cases hb : b = magic
  · simp [hb]
  · by_cases hl : b.length = Config.magicLen <;> simp [hb, hl]

/-- The mask of a P8 keeps all its 64 bits (R85). -/
theorem wireValue_and_all {b : Bytes} (hl : b.length = 8) : wireValue b &&& 0xFFFFFFFFFFFFFFFF = wireValue b := by
  have hlt : wireValue b < 2 ^ 64 := by simpa [hl] using wireValue_lt b
  exact (Nat.and_two_pow_sub_one_eq_mod _ 64).trans (Nat.mod_eq_of_lt hlt)

theorem eq_magic_iff_wireValue (b : Bytes) :
    b = magic ↔ b.length = 8 ∧ wireValue b &&& 0xFFFFFFFFFFFFFFFF = 0x6B636F6C42345A4C := by
  have hmagic : wireValue magic = 0x6B636F6C42345A4C := by decide
  constructor
  · rintro rfl
    exact ⟨rfl, by rw [wireValue_and_all rfl, hmagic]⟩
  · rintro ⟨hl, hv⟩
    rw [wireValue_and_all hl, ← hmagic] at hv
    exact wireValue_inj hl hv

/-- The method mask of R85 reads the token's high nibble. -/
theorem wireValue_and_method {h : Bytes} (hl : h.length = 13) :
    wireValue h &&& 0xF0 = (hdrUnpack h).token.toNat / 16 * 16 := by
  have := (hdrUnpack h).token.isLt
  rw [and_F0, wireValue_fields hl]
  omega

/-- END's mask and match in R85 are the marker's verdict in R117. -/
theorem hdrClassify_marker_iff_wireValue {h : Bytes} (hl : h.length = 13) :
    hdrClassify (hdrUnpack h) = .marker ↔ wireValue h &&& 0xFFFFFFFFFFFFFFFFFFFFFFFFF0 = 0x10 := by
  have hlt : wireValue h < 2 ^ 104 := by simpa [hl] using wireValue_lt h
  have hzero (v : U32) : v = 0 ↔ v.toNat = 0 := BitVec.toNat_inj.symm
  have := (hdrUnpack h).token.isLt
  rw [hdrClassify_marker, and_high _ hlt, wireValue_fields hl, (tokDec_nat _).1, hzero, hzero, hzero]
  omega

/-- Settles O8: each record is selected by its verdict, and the masks read the fields the verdict tests. -/
theorem opcodeMapSelectsTheRecord : Obligations.OpcodeMapSelectsTheRecord := by
  refine ⟨fun b => (decodeStart_eq_prologue_iff b).trans (eq_magic_iff_wireValue b), fun h hl => ?_⟩
  simp only [decode, decodeRecord_eq_ok_iff, hl, true_and, ne_eq]
  rw [← hdrClassify_marker_iff_wireValue hl, wireValue_and_method hl]
  obtain ⟨hraw, hlz4, -⟩ := tokDec_nat (hdrUnpack h).token
  refine ⟨⟨?_, fun hv => ⟨_, .marker hv⟩⟩, ⟨?_, ?_⟩, ⟨?_, ?_⟩⟩
  · rintro ⟨sc, hs⟩
    cases hs with
    | marker hv => exact hv
  · rintro ⟨sc, len, csum, hs⟩
    cases hs with
    | raw hv =>
      obtain ⟨-, -, -, hm, -, hd⟩ := hdrClassify_data hv
      obtain ⟨hpos, -⟩ := (Machine.dataLengths_iff _ _ _).mp hd
      exact ⟨by simp [hv], by rw [hraw.mp hm], _, _, _, hv, hpos⟩
  · rintro ⟨-, -, clen, olen, csum, hv, -⟩
    obtain ⟨rfl, rfl, rfl, -⟩ := hdrClassify_data hv
    exact ⟨_, _, _, .raw hv⟩
  · rintro ⟨sc, clen, olen, csum, hs⟩
    cases hs with
    | lz4 hv =>
      obtain ⟨-, -, -, hm, -⟩ := hdrClassify_data hv
      exact ⟨by rw [hlz4.mp hm], _, _, _, hv⟩
  · rintro ⟨-, clen, olen, csum, hv⟩
    obtain ⟨rfl, rfl, rfl, -⟩ := hdrClassify_data hv
    exact ⟨_, _, _, _, .lz4 hv⟩

end Sys2Proof
end

section
/-! PROOFS. RX on a fetched header (R174 to R178), and what is refused outside its domain (log entry 10). -/

namespace Sys2Proof.Machine

/-! ### RX on a fetched header -/

/-- Settles O34: SrcGet(13) is all a malformed header consumes (`rxRefill_of_header`), before the error entry. -/
theorem malformedHeaderIsFormatError : Obligations.MalformedHeaderIsFormatError := by
  intro h tail r s hs hcoop hrest hl hv
  obtain ⟨src, htail, -, hrefill⟩ := rxRefill_of_header hcoop hrest hl
  rw [rxHeader, hv] at hrefill
  exact ⟨_, (exec_rxRefill hs).trans (opAnswer_of_raised hrefill), rfl, htail, rfl, ⟨rfl, rfl, rfl, rfl, rfl⟩, rfl⟩

theorem RxIgnores.rxHeader {g : State → State} (hg : RxIgnores g) (h : Bytes) (s : State) :
    rxHeader h (g s) = (Machine.rxHeader h s).mapState g := by
  unfold Machine.rxHeader
  cases hdrClassify (hdrUnpack h) with
  | malformed reason => exact hg.raising _ _ _
  | marker => simp [rxMarker, hg.rx, hg.setRx]
  | data m clen olen csum => exact hg.rxPayload _ _ _ _ _

/-- An answer in `opResult` replaces the one before it (log entry 7). -/
theorem opAnswer_mapState_setOpResult {α : Type} (f : α → OpResult) (r : Res α) (v : OpResult) :
    opAnswer f (r.mapState (·.setOpResult v)) = opAnswer f r := by cases r <;> rfl

theorem whenRx_of_mem {s : State} {states : List RxState} (hs : s.rx.state ∈ states)
    (body : Host.Outcome State Fault Refusal) : whenRx s states body = body := if_pos hs

theorem whenOperands_of_true {ok : Bool} (hok : ok = true) (body : Host.Outcome State Fault Refusal) :
    whenOperands ok body = body := if_pos hok

/-- A record is what RX does with a header that selects it, once that is fetched (R176 to R178; log entry 11). -/
theorem exec_of_selects {h : Bytes} {i : Instr} {s : State} (hs : s.rx.state = .idle)
    (hsel : (hdrUnpack h).Selects i) : exec i s = opAnswer (fun _ => .done) (rxHeader h s) := by
  have hmem : s.rx.state ∈ [RxState.idle] := by simp [hs]
  have hwf := hsel.encode.2
  unfold rxHeader
  cases hsel with
  | marker hv =>
    rw [hv]
    exact whenRx_of_mem hmem _
  | raw hv =>
    obtain ⟨-, -, -, -, -, hd⟩ := hdrClassify_data hv
    rw [hv, eq_of_dataLengths_raw hd]
    exact (whenRx_of_mem hmem _).trans (whenOperands_of_true hwf _)
  | lz4 hv =>
    rw [hv]
    exact (whenRx_of_mem hmem _).trans (whenOperands_of_true hwf _)

/-- SrcGet of bytes the source holds next, run as one instruction that leaves RX not Failed, got them (R17). -/
theorem exec_srcGet_eq_full {b tail : Bytes} {s u : State} (hs : s.rx.state = .idle)
    (hrest : s.source.rest = b ++ tail) (h : exec (.srcGet b.length) s = .next u) (hu : u.rx.state ≠ .failed) :
    ∃ s1, srcGet b.length s = .ok (.full b) s1 ∧ u = s1.setOpResult (.source (.full b)) := by
  rw [exec_srcGet (.inr hs)] at h
  have hpost := srcGet_post b.length s
  cases hget : srcGet b.length s with
  | ok r s1 =>
    rw [hget] at h hpost
    cases h
    obtain ⟨src, c, -, hc, ⟨rfl, hl⟩ | ⟨-, hl, hempty⟩⟩ := hpost
    · obtain ⟨rfl, -⟩ := List.append_inj (hrest.symm.trans hc) (by simpa using hl.symm)
      exact ⟨s1, rfl, rfl⟩
    · have hlen := congrArg List.length (hrest.symm.trans hc)
      simp [hempty] at hlen hl
      omega
  | raised e s1 =>
    rw [hget] at h hpost
    cases h
    obtain ⟨src, c, x, -, rfl, -⟩ := hpost
    exact absurd rfl hu
  | stuck f =>
    rw [hget] at h
    cases h

/-- Settles O35: after SrcGet(13) RX.REFILL and the decoded record both do what the header says (`exec_of_selects`). -/
theorem refillRunsTheFetchedRecord : Obligations.RefillRunsTheFetchedRecord := by
  intro h tail i s u hs hrest hl hdec hget hu
  obtain ⟨-, hsel⟩ := decodeRecord_eq_ok_iff.mp hdec
  rw [← hl] at hget
  obtain ⟨s1, hfull, rfl⟩ := exec_srcGet_eq_full hs hrest hget (by simp [hu])
  have hrefill : rxRefill s = rxHeader h s1 := by
    rw [rxRefill, show Config.headerLen = h.length from hl.symm, hfull, Res.bind_ok]
  rw [exec_rxRefill hs, hrefill, exec_of_selects hu hsel, (rxIgnores_setOpResult _).rxHeader,
    opAnswer_mapState_setOpResult]

/-! ### Refusals (log entry 10) -/

theorem whenTxReady_refuses {s : State} (hs : s.tx.state ≠ .ready) (body : Host.Outcome State Fault Refusal) :
    whenTxReady s body = .refused .txOperationOutOfState := if_neg hs

theorem whenRx_refuses {s : State} {states : List RxState} (hs : s.rx.state ∉ states)
    (body : Host.Outcome State Fault Refusal) : whenRx s states body = .refused .rxOperationOutOfState := if_neg hs

theorem whenOperands_refuses {ok : Bool} (hok : ok = false) (body : Host.Outcome State Fault Refusal) :
    whenOperands ok body = .refused .operandOutOfDomain := by rw [hok]; rfl

/-- The lengths of RX.PAYLOAD are those of a header that is `Data`: the largest size class bounds none of them (R117). -/
theorem exists_token_of_dataLengths {m : Method} {clen olen : U32} (csum : U32) (hd : dataLengths m clen olen = true) :
    ∃ token, hdrClassify ⟨token, clen, olen, csum⟩ = .data m clen olen csum := by
  refine ⟨tokEnc m 15, hdrClassify_tokEnc csum hd (decide_eq_true ?_)⟩
  obtain ⟨-, hmax, -⟩ := (dataLengths_iff _ _ _).mp hd
  exact hmax

/-- Settles O58: a gate outside its states and a precondition that fails refuse, the gate first. -/
theorem operationsOutsideTheirDomainAreRefused : Obligations.OperationsOutsideTheirDomainAreRefused := by
  intro i s
  refine ⟨?_, ?_, ?_, ?_, ?_, ?_, ?_, ?_, ?_, ?_⟩
  · rintro b rfl hb
    exact whenOperands_refuses (decide_eq_false hb) _
  · rintro h rfl hh
    exact whenOperands_refuses (decide_eq_false hh) _
  · rintro bs rfl hbs
    exact whenOperands_refuses (Bool.eq_false_iff.mpr fun hlegal => hbs ((legalBlockSize_iff _).mp hlegal)) _
  · rintro (rfl | rfl | rfl | ⟨b, rfl⟩ | ⟨b, rfl⟩) hs <;> exact whenTxReady_refuses hs _
  · rintro b rfl hs hb
    have hlen : (decide (1 ≤ b.length) && decide (b.length ≤ s.tx.blockSize)) = false := by
      rcases hb with rfl | hb
      · rfl
      · simp [hb]
    exact (if_pos hs).trans (whenOperands_refuses hlen _)
  · intro hi hs
    have hmem : s.rx.state ∉ [RxState.idle] := by simpa using hs
    rcases hi with rfl | ⟨sc, rfl⟩ | ⟨m, c, o, k, rfl⟩ | ⟨sc, len, k, rfl⟩ | ⟨sc, c, o, k, rfl⟩ <;>
      exact whenRx_refuses hmem _
  · rintro m c o k rfl hs hno
    have hd : dataLengths m c o = false := Bool.eq_false_iff.mpr fun hd =>
      (exists_token_of_dataLengths k hd).elim hno
    exact (whenRx_of_mem (by simp [hs]) _).trans (whenOperands_refuses hd _)
  · intro hi hs hwf
    have hmem : s.rx.state ∈ [RxState.idle] := by simp [hs]
    rcases hi with ⟨sc, len, k, rfl⟩ | ⟨sc, c, o, k, rfl⟩ <;>
      exact (whenRx_of_mem hmem _).trans (whenOperands_refuses hwf _)
  · intro hi hs
    have hmem : s.rx.state ∉ [RxState.uninitialized] := by simpa using hs
    rcases hi with rfl | rfl <;> exact whenRx_refuses hmem _
  · rintro n rfl hinit hidle
    exact whenRx_refuses (by simp [hinit, hidle]) _

end Sys2Proof.Machine
end

section
/-! PROOFS. The header codec (R110 to R117) and the headers TX emits (R119). -/

namespace Sys2Proof

/-! ### The fields of a header as numbers -/

/-- `method | sc` is a sum: the nibbles do not overlap (R112). -/
theorem tokEnc_toNat (m : Method) (sc : U4) : (tokEnc m sc).toNat = m.code.toNat + sc.toNat := by
  revert sc; cases m <;> decide

/-- The token's high nibble in place (R113). -/
theorem tokDec_fst_toNat (t : Byte) : (tokDec t).1.toNat = t.toNat / 16 * 16 := by revert t; decide

theorem tokDec_snd_toNat (t : Byte) : (tokDec t).2.toNat = t.toNat % 16 := (tokDec_nat t).2.2

/-- The size class of a power of two, its subtraction stopping at 0 (R114). -/
theorem scOf_two_pow_toNat {k : Nat} (hk : k ≤ 25) : (scOf (2 ^ k)).toNat = k - 10 := by
  rw [scOf, Nat.log2_two_pow, Config.scBase, BitVec.toNat_ofNat]
  omega

/-! ### The verdicts (R117) -/

/-- The method of a token by its high nibble (R113). -/
theorem methodOf_tokDec (t : Byte) : methodOf (tokDec t).1 =
    if t.toNat / 16 = 1 then some .raw else if t.toNat / 16 = 2 then some .lz4 else none := by
  obtain ⟨hraw, hlz4, -⟩ := tokDec_nat t
  simp only [methodOf, hraw, hlz4]

theorem withinSizeClass_tokDec (t : Byte) (olen : U32) :
    withinSizeClass (tokDec t).2 olen = decide (olen.toNat ≤ 2 ^ (10 + t.toNat % 16)) := by
  rw [withinSizeClass, tokDec_snd_toNat, Config.scBase]

/-- A length above the largest block is malformed, by this test or by an earlier one (R117 (a), (b)). -/
theorem hdrClassify_of_maxBlockSize_lt {h : Header} (hlt : Config.maxBlockSize < h.olen.toNat) :
    ∃ r, hdrClassify h = .malformed r := by
  cases hv : hdrClassify h with
  | marker =>
    obtain ⟨-, -, ho, -⟩ := hdrClassify_marker.mp hv
    simp [ho] at hlt
  | data m c o k =>
    obtain ⟨-, -, -, -, -, hd⟩ := hdrClassify_data hv
    obtain ⟨-, hmax, -⟩ := (Machine.dataLengths_iff _ _ _).mp hd
    exact absurd hlt (Nat.not_lt.mpr hmax)
  | malformed r => exact ⟨r, rfl⟩

/-- A `Data` verdict with the header's own fields, by R117 (h). -/
theorem hdrClassify_eq_data_iff {h : Header} {m : Method} : hdrClassify h = .data m h.clen h.olen h.csum ↔
    (tokDec h.token).1 = m.code ∧ withinSizeClass (tokDec h.token).2 h.olen = true ∧ dataLengths m h.clen h.olen = true := by
  constructor
  · intro hv
    obtain ⟨-, -, -, hall⟩ := hdrClassify_data hv
    exact hall
  · rintro ⟨hm, hsc, hd⟩
    exact hdrClassify_of_data hm hsc hd

/-- The test by which R117 rejects a header for each reason, on the operands' numbers. -/
def Header.Fails (h : Header) : MalformedReason → Prop
  | .badMethod => ¬ h.token.toNat / 16 = 1 ∧ ¬ h.token.toNat / 16 = 2
  | .originalTooLarge => 33554432 < h.olen.toNat
  | .sizeClass => 2 ^ (10 + h.token.toNat % 16) < h.olen.toNat
  | .rawLength => h.token.toNat / 16 = 1 ∧ h.clen ≠ h.olen
  | .lz4Length => h.token.toNat / 16 = 2 ∧ h.olen.toNat ≤ h.clen.toNat
  | .emptyBlock => h.olen.toNat = 0 ∧ h.csum ≠ 0

/-- HDR.CLASSIFY runs the tests of R117 in the rule's order. -/
theorem hdrClassify_eq_ite (h : Header) [∀ r, Decidable (h.Fails r)] : hdrClassify h =
    if h.Fails .badMethod then .malformed .badMethod
    else if h.Fails .originalTooLarge then .malformed .originalTooLarge
    else if h.Fails .sizeClass then .malformed .sizeClass
    else if h.Fails .rawLength then .malformed .rawLength
    else if h.Fails .lz4Length then .malformed .lz4Length
    else if h.Fails .emptyBlock then .malformed .emptyBlock
    else if h.olen = 0 then .marker
    else .data (if h.token.toNat / 16 = 1 then .raw else .lz4) h.clen h.olen h.csum := by
  have hzero : h.olen = 0 ↔ h.olen.toNat = 0 := BitVec.toNat_inj.symm
  simp only [hdrClassify, methodOf_tokDec, withinSizeClass_tokDec, decide_eq_false_iff_not, Nat.not_le, Header.Fails,
    Config.maxBlockSize, hzero]
  by_cases hraw : h.token.toNat / 16 = 1
  · simp [hraw]
  by_cases hlz4 : h.token.toNat / 16 = 2
  · simp [hlz4]
  · simp [hraw, hlz4]

/-- `r` is the reason of the first test that fails (R117). -/
def Header.FirstFails (h : Header) : MalformedReason → Prop
  | .badMethod => h.Fails .badMethod
  | .originalTooLarge => ¬ h.Fails .badMethod ∧ h.Fails .originalTooLarge
  | .sizeClass => ¬ h.Fails .badMethod ∧ ¬ h.Fails .originalTooLarge ∧ h.Fails .sizeClass
  | .rawLength => ¬ h.Fails .badMethod ∧ ¬ h.Fails .originalTooLarge ∧ ¬ h.Fails .sizeClass ∧ h.Fails .rawLength
  | .lz4Length => ¬ h.Fails .badMethod ∧ ¬ h.Fails .originalTooLarge ∧ ¬ h.Fails .sizeClass ∧ ¬ h.Fails .rawLength ∧
      h.Fails .lz4Length
  | .emptyBlock => ¬ h.Fails .badMethod ∧ ¬ h.Fails .originalTooLarge ∧ ¬ h.Fails .sizeClass ∧ ¬ h.Fails .rawLength ∧
      ¬ h.Fails .lz4Length ∧ h.Fails .emptyBlock

/-- A `Malformed` verdict names the first test that fails (R117). -/
theorem hdrClassify_eq_malformed_iff (h : Header) (r : MalformedReason) :
    hdrClassify h = .malformed r ↔ h.FirstFails r := by
  classical
  rw [hdrClassify_eq_ite h]
  split_ifs <;> cases r <;> simp [Header.FirstFails, *]

/-- The `Data` verdict of a RAW block on the operands' numbers (R117 (h)). -/
theorem hdrClassify_eq_data_raw_iff (token : Byte) (clen olen csum : U32) :
    hdrClassify ⟨token, clen, olen, csum⟩ = .data .raw clen olen csum ↔ token.toNat / 16 = 1 ∧ clen = olen ∧
      1 ≤ olen.toNat ∧ olen.toNat ≤ 33554432 ∧ olen.toNat ≤ 2 ^ (10 + token.toNat % 16) := by
  obtain ⟨hraw, -, -⟩ := tokDec_nat token
  rw [hdrClassify_eq_data_iff (h := ⟨token, clen, olen, csum⟩), hraw, withinSizeClass_tokDec, Machine.dataLengths_iff]
  simp only [lengthsAgree, Config.maxBlockSize, decide_eq_true_eq]
  tauto

/-- The `Data` verdict of an LZ4 block: a length above another is not 0 (R117 (h)). -/
theorem hdrClassify_eq_data_lz4_iff (token : Byte) (clen olen csum : U32) :
    hdrClassify ⟨token, clen, olen, csum⟩ = .data .lz4 clen olen csum ↔ token.toNat / 16 = 2 ∧
      clen.toNat < olen.toNat ∧ olen.toNat ≤ 33554432 ∧ olen.toNat ≤ 2 ^ (10 + token.toNat % 16) := by
  obtain ⟨-, hlz4, -⟩ := tokDec_nat token
  rw [hdrClassify_eq_data_iff (h := ⟨token, clen, olen, csum⟩), hlz4, withinSizeClass_tokDec, Machine.dataLengths_iff]
  simp only [lengthsAgree, Config.maxBlockSize, decide_eq_true_eq]
  omega

end Sys2Proof

namespace Sys2Proof.Machine

/-! ### What the codec's operations answer (R89; log entry 7) -/

section
variable (s : State)

@[simp] theorem exec_le32Enc (v : U32) : exec (.le32Enc v) s = .next (s.setOpResult (.bytes (le32Enc v))) := rfl

theorem exec_le32Dec {b : Bytes} (hb : b.length = 4) :
    exec (.le32Dec b) s = .next (s.setOpResult (.word (le32Dec b))) := whenOperands_of_true (decide_eq_true hb) _

@[simp] theorem exec_tokEnc (m : Method) (sc : U4) :
    exec (.tokEnc m sc) s = .next (s.setOpResult (.byte (tokEnc m sc))) := rfl

@[simp] theorem exec_tokDec (t : Byte) :
    exec (.tokDec t) s = .next (s.setOpResult (.token (tokDec t).1 (tokDec t).2)) := rfl

theorem exec_scOf {bs : U32} (hbs : legalBlockSize bs.toNat = true) :
    exec (.scOf bs) s = .next (s.setOpResult (.sizeClass (scOf bs.toNat))) := whenOperands_of_true hbs _

@[simp] theorem exec_hdrPack (token : Byte) (clen olen csum : U32) : exec (.hdrPack token clen olen csum) s =
    .next (s.setOpResult (.bytes (hdrPack ⟨token, clen, olen, csum⟩))) := rfl

theorem exec_hdrUnpack {h : Bytes} (hl : h.length = 13) :
    exec (.hdrUnpack h) s = .next (s.setOpResult (.header (hdrUnpack h))) := whenOperands_of_true (decide_eq_true hl) _

@[simp] theorem exec_hdrClassify (token : Byte) (clen olen csum : U32) : exec (.hdrClassify token clen olen csum) s =
    .next (s.setOpResult (.verdict (hdrClassify ⟨token, clen, olen, csum⟩))) := rfl

/-- Two answers of an operation are the same outcome exactly when they are the same answer. -/
theorem next_setOpResult_inj {v w : OpResult} : (.next (s.setOpResult v) : Host.Outcome State Fault Refusal) =
    .next (s.setOpResult w) ↔ v = w := by
  constructor
  · intro h
    exact congrArg State.opResult (Host.Outcome.next.inj h)
  · rintro rfl
    rfl

/-- LE32.ENC as an instruction answers what LE32.ENC gives, and nothing else. -/
theorem exec_le32Enc_eq_iff (v : U32) (b : Bytes) :
    exec (.le32Enc v) s = .next (s.setOpResult (.bytes b)) ↔ le32Enc v = b := by
  rw [exec_le32Enc, next_setOpResult_inj, OpResult.bytes.injEq]

theorem exec_hdrPack_eq_iff (token : Byte) (clen olen csum : U32) (h : Bytes) :
    exec (.hdrPack token clen olen csum) s = .next (s.setOpResult (.bytes h)) ↔
      hdrPack ⟨token, clen, olen, csum⟩ = h := by
  rw [exec_hdrPack, next_setOpResult_inj, OpResult.bytes.injEq]

end

/-! ### The statements -/

/-- Settles O1: the bytes are R110's (`le32Enc_bytes`). -/
theorem le32EncPutsLeastSignificantByteFirst : Obligations.Le32EncPutsLeastSignificantByteFirst := by
  refine ⟨fun v s => ?_, fun s => ⟨rfl, rfl, rfl, rfl, rfl⟩⟩
  obtain ⟨b0, b1, b2, b3, henc, hbytes⟩ := le32Enc_bytes v
  exact ⟨b0, b1, b2, b3, (exec_le32Enc_eq_iff s v _).mpr henc, hbytes⟩

/-- Settles O2: the sum is `le32Dec_bytes`, the inversions are the codec's laws, and a length of 2^31 exceeds every block. -/
theorem le32DecIsTheUnsignedInverse : Obligations.Le32DecIsTheUnsignedInverse := by
  refine ⟨fun b0 b1 b2 b3 s => ?_, fun v b s henc => ?_, fun token clen v csum s hv => ?_, fun s => ⟨rfl, rfl⟩⟩
  · exact ⟨_, exec_le32Dec s rfl, le32Dec_bytes b0 b1 b2 b3, (exec_le32Enc_eq_iff s _ _).mpr (le32Enc_le32Dec rfl)⟩
  · obtain rfl := (exec_le32Enc_eq_iff s v b).mp henc
    rw [exec_le32Dec s (le32Enc_length v), le32Dec_le32Enc]
  · have hlt : Config.maxBlockSize < v.toNat := by
      rw [Config.maxBlockSize]
      omega
    obtain ⟨r, hr⟩ := hdrClassify_of_maxBlockSize_lt (h := ⟨token, clen, v, csum⟩) hlt
    exact ⟨r, by rw [exec_hdrClassify, hr]⟩

/-- Settles O3: the token and its nibbles as numbers; TOK.DEC inverts TOK.ENC. -/
theorem tokenIsMethodNibbleAndSizeClass : Obligations.TokenIsMethodNibbleAndSizeClass := by
  refine ⟨fun m sc s => ⟨_, exec_tokEnc s m sc, ?_, ?_⟩, fun t s => ?_, fun s => ⟨rfl, rfl, rfl, rfl, rfl, rfl, rfl⟩⟩
  · rw [tokEnc_toNat]
    cases m <;> rfl
  · rw [exec_tokDec, tokDec_tokEnc]
  · exact ⟨_, _, exec_tokDec s t, tokDec_fst_toNat t, tokDec_snd_toNat t⟩

/-- Settles O4: the logarithm of 2^k is k, and the class covers the size (`blockSize_le_sizeClass`). -/
theorem scOfIsClampedLog2 : Obligations.ScOfIsClampedLog2 := by
  intro k bs s h6 h25 hbs
  have hlegal : legalBlockSize bs.toNat = true := (legalBlockSize_iff _).mpr ⟨k, h6, h25, hbs⟩
  obtain ⟨hcover, -⟩ := blockSize_le_sizeClass hlegal
  refine ⟨_, exec_scOf s hlegal, ?_, hcover⟩
  rw [hbs, scOf_two_pow_toNat h25]
  omega

/-- Settles O5: HDR.PACK concatenates what LE32.ENC answers, whatever the operands. -/
theorem hdrPackConcatenatesTheFields : Obligations.HdrPackConcatenatesTheFields := by
  have hzero : le32Enc 0 = [0, 0, 0, 0] := rfl
  have hmax : le32Enc 33554432 = [0, 0, 0, 2] := rfl
  refine ⟨fun token clen olen csum s => ?_, fun sc s => ?_, fun csum s => ?_, fun s => rfl⟩
  · exact ⟨_, _, _, exec_le32Enc s clen, exec_le32Enc s olen, exec_le32Enc s csum, exec_hdrPack s token clen olen csum,
      hdrPack_length ⟨token, clen, olen, csum⟩⟩
  · rw [exec_hdrPack, hdrPack, hzero]
    rfl
  · rw [exec_hdrPack, hdrPack, hmax]
    rfl

/-- Settles O6: HDR.PACK and HDR.UNPACK invert each other, and each field is read from its own slice. -/
theorem hdrUnpackIsABijection : Obligations.HdrUnpackIsABijection := by
  refine ⟨fun token clen olen csum h s hpack => ?_, fun h s hl => ?_, fun s => rfl⟩
  · obtain rfl := (exec_hdrPack_eq_iff s token clen olen csum h).mp hpack
    rw [exec_hdrUnpack s (hdrPack_length _), hdrUnpack_hdrPack]
  · have hslice {i : Nat} (hi : i + 4 ≤ 13) : ((h.drop i).take 4).length = 4 := by
      rw [List.length_take, List.length_drop, hl]
      omega
    have htoken : h.head? = some (hdrUnpack h).token := by
      cases h with
      | nil => cases hl
      | cons b bs => rfl
    exact ⟨_, _, _, _, exec_hdrUnpack s hl, htoken, exec_le32Dec s (hslice (by omega)), exec_le32Dec s (hslice (by omega)),
      exec_le32Dec s (hslice (by omega)), (exec_hdrPack_eq_iff s _ _ _ _ h).mpr (hdrPack_hdrUnpack hl)⟩

/-- Settles O7: `Malformed` names the first test that fails (`hdrClassify_eq_malformed_iff`); the other verdicts are
R117's (g) and (h). -/
theorem hdrClassifyVerdicts : Obligations.HdrClassifyVerdicts := by
  intro token clen olen csum s
  have hmal := hdrClassify_eq_malformed_iff ⟨token, clen, olen, csum⟩
  have hmarker := hdrClassify_marker (h := ⟨token, clen, olen, csum⟩)
  rw [(tokDec_nat token).1] at hmarker
  exact ⟨_, exec_hdrClassify s token clen olen csum, hmal .badMethod, hmal .originalTooLarge, hmal .sizeClass,
    hmal .rawLength, hmal .lz4Length, hmal .emptyBlock, hmarker, hdrClassify_eq_data_raw_iff token clen olen csum,
    hdrClassify_eq_data_lz4_iff token clen olen csum⟩

/-- Settles O31: TX.BLOCK stores the shorter form (`selectMethod_cases`), and its header says what is stored. -/
theorem emittedHeadersAreLegal : Obligations.EmittedHeadersAreLegal := by
  refine ⟨fun bs orig c hbs hpos hle => ?_, hdrClassify_markerBytes⟩
  refine ⟨(selectMethod orig c).1, (selectMethod orig c).2, ?_, rfl, hdrClassify_blockHeader c hbs hpos hle⟩
  obtain ⟨hlt, hsel⟩ | ⟨-, hsel⟩ := selectMethod_cases orig c
  · exact .inl ⟨by rw [hsel], by rw [hsel], hlt⟩
  · exact .inr ⟨by rw [hsel], by rw [hsel]⟩

end Sys2Proof.Machine
end

section
/-! PROOFS. The checksum validator as instructions (R130, R131), and the form in which TX.BLOCK stores a block (R146). -/

namespace Sys2Proof.Machine

/-! ### CK.VERIFY (R131) -/

/-- The one value of HASH32 the source fixes (R10). -/
theorem hash32_dots : hash32 [46, 46, 46] = 0x0677E452 := if_pos rfl

theorem exec_ckVerify (orig : Bytes) (expected : U32) (s : State) : exec (.ckVerify orig expected) s =
    .next (s.setOpResult (.check (if hash32 orig = expected then .same else .mismatch))) := rfl

/-- Settles O13: CK.GEN answers HASH32 (O12), and CK.VERIFY compares with it; the mismatching examples differ from its sourced
value in the lowest bit alone and in the highest bits alone. -/
theorem ckVerifyComparesAllBits : Obligations.CkVerifyComparesAllBits := by
  obtain ⟨hgen, -⟩ := ckGenIsAFunctionOfTheBytes
  refine ⟨fun orig expected s => ⟨_, hgen orig s, exec_ckVerify orig expected s⟩, fun s => ⟨?_, ?_, ?_⟩⟩
  · rw [exec_ckVerify, hash32_dots, if_pos rfl]
  · rw [exec_ckVerify, hash32_dots, if_neg (by decide)]
  · rw [exec_ckVerify, hash32_dots, if_neg (by decide)]

/-! ### TX.BLOCK (R146) -/

theorem exec_txBlock {orig : Bytes} {s : State} (hs : s.tx.state = .ready) (hpos : 1 ≤ orig.length)
    (hle : orig.length ≤ s.tx.blockSize) : exec (.txBlock orig) s = opAnswer (fun _ => .done) (txBlock orig s) :=
  (if_pos hs).trans (whenOperands_of_true (by simp [hpos, hle]) _)

/-- What is stored, and the strict comparison that decides it (R146). -/
theorem selectMethod_stores (orig c : Bytes) :
    (selectMethod orig c).1 = .lz4 ∧ (selectMethod orig c).2 = c ∧ c.length < orig.length ∨
      (selectMethod orig c).1 = .raw ∧ (selectMethod orig c).2 = orig ∧ orig.length ≤ c.length := by
  obtain ⟨hlt, hsel⟩ | ⟨hle, hsel⟩ := selectMethod_cases orig c <;> rw [hsel]
  · exact .inl ⟨rfl, rfl, hlt⟩
  · exact .inr ⟨rfl, rfl, hle⟩

theorem recordBytes_length (sc : U4) (orig c : Bytes) :
    (recordBytes sc orig c).length = 13 + (selectMethod orig c).2.length := by
  rw [recordBytes, List.length_append, blockHeader_length, Config.headerLen]

/-- Settles O28: with the backend's answer the record is that of the shorter form (`selectMethod_stores`); a backend
failure leaves the sink as it was (`txBlock_of_backendError`). -/
theorem txBlockStoresTheShorterForm : Obligations.TxBlockStoresTheShorterForm := by
  intro orig s hs hpos hle hcoop
  have hexec := exec_txBlock hs hpos hle
  cases hcomp : Config.compress orig with
  | bytes c =>
    obtain ⟨k, hrun, happ, -⟩ := txBlock_of_cooperates s hcoop hcomp
    refine ⟨_, hexec.trans (opAnswer_of_ok hrun), ⟨rfl, rfl, rfl, rfl⟩, rfl, ?_, nofun⟩
    rintro _ ⟨⟩
    have hacc : k.accepted = s.sink.accepted ++ prologueDue s.tx ++
        blockHeader s.tx.sc (selectMethod orig c).1 (selectMethod orig c).2 orig ++ (selectMethod orig c).2 := by
      simp [happ.accepted, recordBytes]
    refine ⟨_, _, _, selectMethod_stores orig c, rfl, rfl, hacc, happ.flushRequests, ?_, rfl⟩
    simp [Tx.moved, Tx.prologuePut, recordBytes_length, Nat.add_assoc]
  | error e =>
    refine ⟨_, hexec.trans (opAnswer_of_raised (txBlock_of_backendError s hcomp)), ⟨rfl, rfl, rfl, rfl⟩, rfl, nofun, ?_⟩
    rintro _ ⟨⟩
    exact ⟨rfl, rfl, rfl⟩

end Sys2Proof.Machine
end

section
/-! PROOFS. TX.WRITE (R141): the loop cuts the buffered bytes and the data into whole blocks, whatever the split of the
data over commands; what a block and a whole write leave. -/

namespace Sys2Proof.Machine

/-! ### One block out of the buffer (R141 to R143, R146) -/

/-- "TX.BLOCK(block) ; TX.ABUF <- []", where `block` is what TX.ABUF has come to hold (R141 to R143). -/
def txEmit (block : Bytes) (s : State) : Res Unit :=
  (txBlock block (s.setTx (s.tx.withAbuf block))).bind fun _ s1 => .ok () (s1.setTx (s1.tx.withAbuf []))

/-- TX's registers after a block has gone out, with `n` bytes put (R145, R146). -/
def Tx.emitted (x : Tx) (n : Nat) : Tx := { x with abuf := [], prologueDone := true, pos := x.pos + n }

/-- A slice that fills the buffer sends it out. -/
theorem txAppend_of_full {slice : Bytes} {s : State} (h : (s.tx.abuf ++ slice).length = s.tx.blockSize) :
    txAppend slice s = txEmit (s.tx.abuf ++ slice) s := by
  simp only [txAppend, memWrite_end, if_pos h, txEmit]

/-- A slice that does not fill the buffer stays there. -/
theorem txAppend_of_below {slice : Bytes} {s : State} (h : (s.tx.abuf ++ slice).length < s.tx.blockSize) :
    txAppend slice s = .ok () (s.setTx (s.tx.withAbuf (s.tx.abuf ++ slice))) := by
  simp only [txAppend, memWrite_end, if_neg h.ne]

/-- A buffered remainder goes out as one block. -/
theorem txEmitPending_of_ne_nil {s : State} (h : s.tx.abuf ≠ []) : txEmitPending s = txEmit s.tx.abuf s := by
  simp [txEmitPending, h, txEmit]

/-- What is buffered before the block does not matter, as the block contains it. -/
theorem txEmit_withAbuf (block b : Bytes) (s : State) :
    txEmit block (s.setTx (s.tx.withAbuf b)) = txEmit block s := rfl

/-- A block that went out put MAGIC if it was due and the block's record (R146). -/
theorem txEmit_ok {block : Bytes} {s s1 : State} (h : txEmit block s = .ok () s1) :
    ∃ (c : Bytes) (k : Sink), Config.compress block = .bytes c ∧
      s1 = (s.setSink k).setTx (s.tx.emitted (prologueDue s.tx ++ recordBytes s.tx.sc block c).length) ∧
      s.sink.Appended k (prologueDue s.tx ++ recordBytes s.tx.sc block c) := by
  obtain ⟨_, s2, hblock, hempty⟩ := Res.bind_eq_ok h
  obtain ⟨c, k, hc, rfl, happ⟩ := txBlock_ok hblock
  cases hempty
  exact ⟨c, k, hc, rfl, happ⟩

/-- A block goes out if the backend answers and the sink accepts. -/
theorem txEmit_of_cooperates {block c : Bytes} {s : State} (hs : s.sink.cooperates)
    (hc : Config.compress block = .bytes c) :
    ∃ k : Sink, txEmit block s = .ok () ((s.setSink k).setTx
        (s.tx.emitted (prologueDue s.tx ++ recordBytes s.tx.sc block c).length)) ∧
      s.sink.Appended k (prologueDue s.tx ++ recordBytes s.tx.sc block c) ∧ k.cooperates := by
  obtain ⟨k, hblock, happ, hk⟩ := txBlock_of_cooperates (s.setTx (s.tx.withAbuf block)) hs hc
  exact ⟨k, by rw [txEmit, hblock]; rfl, happ, hk⟩

/-- A backend failure comes before any request (R146, R210). -/
theorem txEmit_of_backendError {block : Bytes} {e : Config.BackendError} {s : State}
    (hc : Config.compress block = .error e) : txEmit block s = .raised ⟨.backend, some (.backendError e)⟩
      ((s.setTx (s.tx.failedWith s.freeCount)).setFreeCount (s.freeCount + 1)) := by
  rw [txEmit, txBlock_of_backendError _ hc]
  rfl

/-! ### The loop of TX.WRITE (R141) -/

@[simp] theorem txWriteLoop_nil (fuel : Nat) (s : State) : txWriteLoop fuel [] s = .ok () s := by
  cases fuel <;> simp [txWriteLoop]

/-- Two runs with the same first part are equal if they go on in the same way. -/
theorem Res.bind_congr {α β : Type} {r : Res α} {f g : α → State → Res β}
    (h : ∀ a s1, r = .ok a s1 → f a s1 = g a s1) : r.bind f = r.bind g := by
  cases r with
  | ok a s1 => exact h a s1 rfl
  | raised e s1 => rfl
  | stuck x => rfl

/-- Any number of rounds that suffices gives the same run. -/
theorem txWriteLoop_fuel {f1 f2 : Nat} {rem : Bytes} {s : State} (h1 : rem.length ≤ f1) (h2 : rem.length ≤ f2)
    (hb : s.tx.abuf.length < s.tx.blockSize) : txWriteLoop f1 rem s = txWriteLoop f2 rem s := by
  induction f1 generalizing f2 rem s with
  | zero => simp [List.length_eq_zero_iff.mp (Nat.le_zero.mp h1)]
  | succ f1 ih =>
    by_cases hr : rem = []
    · simp [hr]
    · have hpos : 0 < rem.length := List.length_pos_iff.mpr hr
      obtain ⟨f2, rfl⟩ := Nat.exists_eq_add_one.mpr (hpos.trans_le h2)
      simp only [txWriteLoop, if_neg hr]
      refine Res.bind_congr fun _ s1 happ => ?_
      exact ih (by simp; omega) (by simp; omega) (txAppend_ok happ (by simp; omega) (by omega))

/-- One round for a nonempty rest, the rounds after it as many as suffice. -/
theorem txWriteLoop_round {rem : Bytes} {s : State} (hr : rem ≠ []) (hb : s.tx.abuf.length < s.tx.blockSize) :
    txWriteLoop rem.length rem s =
      (txAppend (rem.take (s.tx.blockSize - s.tx.abuf.length)) s).bind fun _ s1 =>
        txWriteLoop (rem.drop (s.tx.blockSize - s.tx.abuf.length)).length
          (rem.drop (s.tx.blockSize - s.tx.abuf.length)) s1 := by
  obtain ⟨n, hn⟩ := Nat.exists_eq_add_one.mpr (List.length_pos_iff.mpr hr)
  have htake (k : Nat) : rem.take (min rem.length k) = rem.take k := by rw [Nat.min_comm, ← List.take_eq_take_min]
  have hdrop (k : Nat) : rem.drop (min rem.length k) = rem.drop k := by
    obtain hle | hle := Nat.le_total rem.length k
    · rw [Nat.min_eq_left hle, List.drop_length, List.drop_of_length_le hle]
    · rw [Nat.min_eq_right hle]
  conv_lhs => rw [hn, txWriteLoop, if_neg hr]
  simp only [htake, hdrop]
  refine Res.bind_congr fun _ s1 happ => ?_
  exact txWriteLoop_fuel (by simp; omega) le_rfl (txAppend_ok happ (by simp; omega) (by omega))

/-- Data that does not fill the buffer is appended to it. -/
theorem txWriteLoop_of_below {rem : Bytes} {s : State} (h : (s.tx.abuf ++ rem).length < s.tx.blockSize) :
    txWriteLoop rem.length rem s = .ok () (s.setTx (s.tx.withAbuf (s.tx.abuf ++ rem))) := by
  by_cases hr : rem = []
  · simp [hr]
  · rw [List.length_append] at h
    rw [txWriteLoop_round hr (by omega), List.take_of_length_le (by omega), List.drop_of_length_le (by omega),
      txAppend_of_below (by simpa using h), Res.bind_ok, txWriteLoop_nil]

/-- Data that fills the buffer sends the first block of the buffered bytes and the data out; what is left is written into
an empty buffer. -/
theorem txWriteLoop_of_full {rem : Bytes} {s : State} (hb : s.tx.abuf.length < s.tx.blockSize)
    (h : s.tx.blockSize ≤ (s.tx.abuf ++ rem).length) :
    txWriteLoop rem.length rem s = (txEmit ((s.tx.abuf ++ rem).take s.tx.blockSize) s).bind fun _ s1 =>
      txWriteLoop ((s.tx.abuf ++ rem).drop s.tx.blockSize).length ((s.tx.abuf ++ rem).drop s.tx.blockSize) s1 := by
  rw [List.length_append] at h
  have hr : rem ≠ [] := by rintro rfl; simp at h; omega
  rw [txWriteLoop_round hr hb, txAppend_of_full (by simp; omega), List.take_append, List.drop_append,
    List.take_of_length_le hb.le, List.drop_of_length_le hb.le, List.nil_append]

/-- Induction along the blocks of a write: the data stays below the capacity, or a first block goes out and the rest is
written after it. -/
theorem txWrite_induction {P : Bytes → ∀ s : State, s.tx.abuf.length < s.tx.blockSize → Prop}
    (below : ∀ rem s hb, (s.tx.abuf ++ rem).length < s.tx.blockSize → P rem s hb)
    (full : ∀ rem s hb, s.tx.blockSize ≤ (s.tx.abuf ++ rem).length →
      (∀ s1, txEmit ((s.tx.abuf ++ rem).take s.tx.blockSize) s = .ok () s1 →
        ∃ hb1, P ((s.tx.abuf ++ rem).drop s.tx.blockSize) s1 hb1) → P rem s hb)
    (rem : Bytes) (s : State) (hb : s.tx.abuf.length < s.tx.blockSize) : P rem s hb := by
  induction hn : rem.length using Nat.strong_induction_on generalizing rem s with
  | _ n ih =>
    obtain hlt | hle := Nat.lt_or_ge (s.tx.abuf ++ rem).length s.tx.blockSize
    · exact below rem s hb hlt
    · refine full rem s hb hle fun s1 hemit => ?_
      obtain ⟨c, k, -, rfl, -⟩ := txEmit_ok hemit
      refine ⟨Nat.zero_lt_of_lt hb, ih _ ?_ _ _ _ rfl⟩
      rw [List.length_append] at hle
      simp only [List.length_drop, List.length_append]
      omega

/-! ### The split of the data over commands is invisible (R141) -/

/-- Data that is in the buffer already, and data that is still to be written, are cut in the same way. -/
theorem txWriteLoop_buffered {a b : Bytes} {s : State} (h : (s.tx.abuf ++ a).length < s.tx.blockSize) :
    txWriteLoop b.length b (s.setTx (s.tx.withAbuf (s.tx.abuf ++ a))) = txWriteLoop (a ++ b).length (a ++ b) s := by
  obtain hlt | hle := Nat.lt_or_ge (s.tx.abuf ++ a ++ b).length s.tx.blockSize
  · rw [txWriteLoop_of_below (by exact hlt), txWriteLoop_of_below (by rwa [← List.append_assoc])]
    simp
  · have hb : s.tx.abuf.length < s.tx.blockSize := by rw [List.length_append] at h; omega
    rw [txWriteLoop_of_full (by exact h) (by exact hle), txWriteLoop_of_full hb (by rwa [← List.append_assoc])]
    simp [txEmit_withAbuf]

/-- One write after another runs as one write of both. -/
theorem txWriteLoop_append {a : Bytes} (b : Bytes) {s : State} (hb : s.tx.abuf.length < s.tx.blockSize) :
    ((txWriteLoop a.length a s).bind fun _ s1 => txWriteLoop b.length b s1) =
      txWriteLoop (a ++ b).length (a ++ b) s := by
  induction a, s, hb using txWrite_induction with
  | below a s hb hlt => rw [txWriteLoop_of_below hlt, Res.bind_ok, txWriteLoop_buffered hlt]
  | full a s hb hle ih =>
    have hle_both : s.tx.blockSize ≤ (s.tx.abuf ++ (a ++ b)).length := by
      rw [← List.append_assoc, List.length_append]
      exact Nat.le_add_right_of_le hle
    rw [txWriteLoop_of_full hb hle, txWriteLoop_of_full hb hle_both, Res.bind_assoc, ← List.append_assoc,
      List.take_append_of_le_length hle, List.drop_append_of_le_length hle]
    exact Res.bind_congr fun _ s1 hemit => (ih s1 hemit).2

/-! ### The blocks of a write and their slices (R146, R148) -/

theorem sliceOf_zero (n : Nat) (b : Bytes) : sliceOf n 0 b = b.take n := by simp [sliceOf, memRead]

theorem sliceOf_succ (n i : Nat) (b : Bytes) : sliceOf n (i + 1) b = sliceOf n i (b.drop n) := by
  simp [sliceOf, memRead, Nat.succ_mul, Nat.add_comm]

/-- A first block of `n` bytes and the blocks of the rest. -/
theorem length_div_of_le {n : Nat} {b : Bytes} (hn : 0 < n) (h : n ≤ b.length) :
    b.length / n = (b.drop n).length / n + 1 := by
  rw [List.length_drop, Nat.div_eq_sub_div hn h]

section
variable {rem : Bytes} {s : State}

/-- Into a sink that accepts, a write goes on if the backend answers for every block. -/
theorem txWriteLoop_of_cooperates (hb : s.tx.abuf.length < s.tx.blockSize) (hk : s.sink.cooperates)
    (hc : ∀ i, i < (s.tx.abuf ++ rem).length / s.tx.blockSize →
      ∃ c, Config.compress (sliceOf s.tx.blockSize i (s.tx.abuf ++ rem)) = .bytes c) :
    ∃ s1, txWriteLoop rem.length rem s = .ok () s1 := by
  induction rem, s, hb using txWrite_induction with
  | below rem s hb hlt => exact ⟨_, txWriteLoop_of_below hlt⟩
  | full rem s hb hle ih =>
    rw [length_div_of_le (Nat.zero_lt_of_lt hb) hle] at hc
    obtain ⟨c, hc0⟩ := hc 0 (Nat.succ_pos _)
    rw [sliceOf_zero] at hc0
    obtain ⟨k, hemit, -, hk1⟩ := txEmit_of_cooperates hk hc0
    rw [txWriteLoop_of_full hb hle, hemit, Res.bind_ok]
    refine (ih _ hemit).2 hk1 fun i hi => ?_
    have := hc (i + 1) (Nat.succ_lt_succ hi)
    rwa [sliceOf_succ] at this

/-- Into a sink that accepts, a write raises the backend's error for the first block on which it fails (R210). -/
theorem txWriteLoop_of_backendError {i : Nat} {e : Config.BackendError} (hb : s.tx.abuf.length < s.tx.blockSize)
    (hk : s.sink.cooperates) (hi : i < (s.tx.abuf ++ rem).length / s.tx.blockSize)
    (hc : ∀ j, j < i → ∃ c, Config.compress (sliceOf s.tx.blockSize j (s.tx.abuf ++ rem)) = .bytes c)
    (he : Config.compress (sliceOf s.tx.blockSize i (s.tx.abuf ++ rem)) = .error e) :
    ∃ s1, txWriteLoop rem.length rem s = .raised ⟨.backend, some (.backendError e)⟩ s1 := by
  induction i generalizing rem s with
  | zero =>
    have hle : s.tx.blockSize ≤ (s.tx.abuf ++ rem).length := (Nat.div_pos_iff.mp hi).2
    rw [sliceOf_zero] at he
    rw [txWriteLoop_of_full hb hle, txEmit_of_backendError he]
    exact ⟨_, rfl⟩
  | succ i ih =>
    have hpos : 0 < s.tx.blockSize := Nat.zero_lt_of_lt hb
    have hle : s.tx.blockSize ≤ (s.tx.abuf ++ rem).length := (Nat.div_pos_iff.mp (Nat.zero_lt_of_lt hi)).2
    obtain ⟨c, hc0⟩ := hc 0 (Nat.succ_pos _)
    rw [sliceOf_zero] at hc0
    obtain ⟨k, hemit, -, hk1⟩ := txEmit_of_cooperates hk hc0
    rw [length_div_of_le hpos hle] at hi
    rw [sliceOf_succ] at he
    rw [txWriteLoop_of_full hb hle, hemit, Res.bind_ok]
    refine ih hpos hk1 (Nat.lt_of_succ_lt_succ hi) (fun j hj => ?_) he
    have := hc (j + 1) (Nat.succ_lt_succ hj)
    rwa [sliceOf_succ] at this

/-- What a write that went on has left: `recs` are the records of its blocks (R146, R148). -/
structure Wrote (s : State) (whole : Bytes) (recs : List Bytes) (s1 : State) : Prop where
  count : recs.length = whole.length / s.tx.blockSize
  records : ∀ i, i < recs.length → ∃ c, Config.compress (sliceOf s.tx.blockSize i whole) = .bytes c ∧
    recs[i]? = some (recordBytes s.tx.sc (sliceOf s.tx.blockSize i whole) c)
  sink : s.sink.Appended s1.sink ((if recs.length = 0 then [] else prologueDue s.tx) ++ recs.flatten)
  abuf : s1.tx.abuf = whole.drop (recs.length * s.tx.blockSize)
  prologueDone : s1.tx.prologueDone = (s.tx.prologueDone || decide (recs.length ≠ 0))

theorem txWriteLoop_wrote {s1 : State} (hb : s.tx.abuf.length < s.tx.blockSize)
    (h : txWriteLoop rem.length rem s = .ok () s1) : ∃ recs, Wrote s (s.tx.abuf ++ rem) recs s1 := by
  induction rem, s, hb using txWrite_induction with
  | below rem s hb hlt =>
    rw [txWriteLoop_of_below hlt] at h
    cases h
    exact ⟨[], (Nat.div_eq_of_lt hlt).symm, by simp, .refl _, by simp, by simp⟩
  | full rem s hb hle ih =>
    rw [txWriteLoop_of_full hb hle] at h
    obtain ⟨_, s2, hemit, hrest⟩ := Res.bind_eq_ok h
    obtain ⟨-, hwrote⟩ := ih s2 hemit
    obtain ⟨c, k, hc, rfl, happ⟩ := txEmit_ok hemit
    obtain ⟨recs, hcount, hrecords, hsink, habuf, hdone⟩ := hwrote hrest
    refine ⟨recordBytes s.tx.sc ((s.tx.abuf ++ rem).take s.tx.blockSize) c :: recs, ?_, ?_, ?_, ?_, ?_⟩
    · rw [List.length_cons, hcount, length_div_of_le (Nat.zero_lt_of_lt hb) hle]
      rfl
    · rintro (_ | i) hi
      · exact ⟨c, by rwa [sliceOf_zero], by simp [sliceOf_zero]⟩
      · rw [sliceOf_succ, List.getElem?_cons_succ]
        exact hrecords i (Nat.lt_of_succ_lt_succ hi)
    · simpa [Tx.emitted, prologueDue] using happ.trans hsink
    · rw [habuf, List.length_cons, Nat.succ_mul, Nat.add_comm, ← List.drop_drop]
      rfl
    · rw [hdone]
      simp [Tx.emitted]

end

/-! ### The statements on TX.WRITE -/

theorem exec_txWrite {s : State} (hs : s.tx.state = .ready) (data : Bytes) :
    exec (.txWrite data) s = txAnswer (txWriteLoop data.length data s) := by
  simp [exec, execTxWrite, txGated, hs]

/-- Settles O21: `txWriteLoop_of_below`. -/
theorem txWriteBelowCapacityOnlyBuffers : Obligations.TxWriteBelowCapacityOnlyBuffers := by
  intro data s hs hlt
  rw [exec_txWrite hs, txWriteLoop_of_below (by simpa using hlt)]
  rfl

/-- Settles O22: with every block answered the loop goes on, and else raises the first failing block's error. -/
theorem txWriteCompletes : Obligations.TxWriteCompletes := by
  intro data s hs hb hk
  have hpost := txWriteLoop_txPost data.length data s
  refine ⟨fun hc => ?_, fun i e hi hc he => ?_⟩
  · obtain ⟨s1, hrun⟩ := txWriteLoop_of_cooperates hb hk hc
    rw [hrun] at hpost
    obtain ⟨_, k, x, rfl, -, -, hstate, -⟩ := hpost
    exact ⟨_, by rw [exec_txWrite hs, hrun]; rfl, rfl, hstate.trans hs⟩
  · obtain ⟨s1, hrun⟩ := txWriteLoop_of_backendError hb hk hi hc he
    rw [hrun] at hpost
    obtain ⟨-, k, p, n, -, -, rfl⟩ := hpost
    exact ⟨_, by rw [exec_txWrite hs, hrun]; rfl, rfl, rfl⟩

/-- Settles O23: the records, the buffer and the prologue are `txWriteLoop_wrote`; the rest is what every run of TX
leaves. -/
theorem txWriteEmitsExactlyTheFullBlocks : Obligations.TxWriteEmitsExactlyTheFullBlocks := by
  intro data s t hs hb hexec hok
  obtain ⟨-, s1, hrun, rfl⟩ := txGated_ok hexec hok
  obtain ⟨recs, hcount, hrecords, hsink, habuf, hdone⟩ := txWriteLoop_wrote hb hrun
  have hpost := txWriteLoop_txPost data.length data s
  rw [hrun] at hpost
  obtain ⟨b, k, x, rfl, hacc, hpos, hstate, hbs, hsc⟩ := hpost
  dsimp only
  rw [← hcount]
  refine ⟨recs, rfl, hrecords, by simpa using hsink.accepted, habuf, ?_, hdone, ?_, hstate.trans hs, hbs, hsc,
    hsink.flushRequests, hsink.flushed, ⟨rfl, rfl, rfl, rfl⟩, rfl, rfl⟩
  · rw [State.setTxRsp_tx, habuf, List.length_drop, hcount, Nat.mod_eq_sub, Nat.mul_comm]
  · have hx : x.pos + s.sink.accepted.length = s.tx.pos + k.accepted.length := by
      rw [hpos, hacc, List.length_append]
      omega
    exact hx

/-- Settles O24: the first write went on, for a failed TX refuses the second; then `txWriteLoop_append`. -/
theorem txWriteSplitIsInvisible : Obligations.TxWriteSplitIsInvisible := by
  intro a b s t u hs hb ha hbexec
  have hpost := txWriteLoop_txPost a.length a s
  rw [exec_txWrite hs] at ha
  rw [exec_txWrite hs, ← txWriteLoop_append b hb]
  cases hrun : txWriteLoop a.length a s with
  | ok _ s1 =>
    rw [hrun] at ha hpost
    cases ha
    obtain ⟨_, k, x, rfl, -, -, hstate, -⟩ := hpost
    rw [exec_txWrite (hstate.trans hs), (txIgnores_setTxRsp _).txWriteLoop] at hbexec
    rw [Res.bind_ok, ← hbexec]
    generalize txWriteLoop b.length b _ = r
    cases r <;> rfl
  | raised e s1 =>
    rw [hrun] at ha hpost
    cases ha
    obtain ⟨-, k, p, n, -, -, rfl⟩ := hpost
    cases hbexec
  | stuck f =>
    rw [hrun] at ha
    cases ha

end Sys2Proof.Machine
end

section
/-! PROOFS. TX.CONFIG, TX.FLUSH, TX.FINISH and TX.MARKER (R140, R142, R143, R147), the gating table (R144) and TX's error
entry (R207). -/

namespace Sys2Proof.Machine

section
variable {s : State}

/-! ### The gating table (R144) -/

theorem txGated_of_finished (hs : s.tx.state = .finished) (body : Res Unit) :
    txGated s body = .next (s.setTxRsp (some (.err .format (some .useAfterFinish)))) := by
  rw [txGated, hs]
  rfl

theorem exec_txConfig_of_unconfigured (hs : s.tx.state = .unconfigured) (bs : U32) :
    exec (.txConfig bs) s = txAnswer (txConfigure bs s) := by
  simp [exec, execTxConfig, hs]

/-! ### TX.CONFIG (R140) -/

/-- A configuration error changes nothing but the answer (R140, R207). -/
theorem exec_txConfig_of_configError {bs : U32} {info : ErrInfo} (hs : s.tx.state = .unconfigured)
    (h : configError bs = some info) :
    exec (.txConfig bs) s = .next (s.setTxRsp (some (.err .config (some info)))) := by
  rw [exec_txConfig_of_unconfigured hs, txConfigure, h]
  rfl

theorem configError_of_outOfRange {bs : U32} (h : bs.toNat < 64 ∨ 33554432 < bs.toNat) :
    configError bs = some .outOfRange := if_pos h

theorem configError_of_not_pow {bs : U32} (hmin : 64 ≤ bs.toNat) (hmax : bs.toNat ≤ 33554432)
    (hpow : ¬ ∃ k, bs.toNat = 2 ^ k) : configError bs = some .notPowerOfTwo := by
  have hrange : ¬ (bs.toNat < Config.minBlockSize ∨ Config.maxBlockSize < bs.toNat) := by
    simp [Config.minBlockSize, Config.maxBlockSize, hmin, hmax]
  have hlog : isPowerOfTwo bs.toNat = false := decide_eq_false fun h => hpow ⟨_, h⟩
  rw [configError, if_neg hrange, if_pos hlog]

/-! ### TX.FLUSH and TX.FINISH into a sink that accepts (R142, R143) -/

/-- The requests of TX.FINISH after the pending block (R143): the marker, then a flush. -/
theorem txMarker_flush_of_cooperates (hk : s.sink.cooperates) :
    ∃ k : Sink, ((txMarker s).bind fun _ s2 => sinkFlush s2) = .ok () ((s.setSink k).setTx
        { s.tx with prologueDone := true, pos := s.tx.pos + (prologueDue s.tx ++ markerBytes s.tx.sc).length }) ∧
      k.accepted = s.sink.accepted ++ prologueDue s.tx ++ markerBytes s.tx.sc ∧
      k.flushed = k.accepted.length ∧ k.flushRequests = s.sink.flushRequests + 1 := by
  obtain ⟨k1, hmarker, happ, hk1⟩ := txMarker_of_cooperates s hk
  obtain ⟨k2, hflush, hacc, hflushed, hreq, -⟩ := sinkFlush_of_cooperates ((s.setSink k1).setTx _) hk1
  refine ⟨k2, by rw [hmarker, Res.bind_ok, hflush]; rfl, ?_, ?_, ?_⟩
  · rw [List.append_assoc]
    exact hacc.trans happ.accepted
  · exact hflushed.trans (congrArg _ hacc.symm)
  · exact hreq.trans (congrArg (· + 1) happ.flushRequests)

theorem exec_txFlush (hs : s.tx.state = .ready) :
    exec .txFlush s = txAnswer ((txEmitPending s).bind fun _ s1 => sinkFlush s1) := by
  simp [exec, execTxFlush, txGated, hs]

/-- TX.FINISH is Finished once its requests have gone through (R143). -/
theorem exec_txFinish (hs : s.tx.state = .ready) : exec .txFinish s =
    txAnswer ((txEmitPending s).bind fun _ s1 => ((txMarker s1).bind fun _ s2 => sinkFlush s2).bind fun _ s3 =>
      .ok () (s3.setTx { s3.tx with state := .finished })) := by
  simp [exec, execTxFinish, txGated, hs, Res.bind_assoc]

/-! ### Error answers (R207) -/

/-- An error answer of TX.WRITE, TX.FLUSH or TX.FINISH, `last` being its step after its last request: UseAfterFinish, with
nothing else changed, or the error of a run that failed. -/
theorem txGated_err {r : Res Unit} {last : State → State} {t : State} {k : ErrKind} {info : Option ErrInfo}
    (hr : s.tx.state = .ready → TxRun s r) (h : txGated s (r.bind fun _ s1 => .ok () (last s1)) = .next t)
    (herr : t.txRsp = some (.err k info)) :
    k = .format ∧ t = s.setTxRsp (some (.err k info)) ∨
      ∃ s1, TxFailed s ⟨k, info⟩ s1 ∧ t = s1.setTxRsp (some (.err k info)) := by
  unfold txGated at h
  split at h
  · cases h
  · have hpost := (hr ‹_›).txPost
    cases r with
    | ok _ s1 => cases h; cases herr
    | raised e s1 => cases h; cases herr; exact .inr ⟨s1, hpost, rfl⟩
    | stuck f => cases h
  · cases h
    cases herr
    exact .inl ⟨rfl, rfl⟩
  · cases h

/-- An error answer of TX.CONFIG is a ConfigError. -/
theorem txConfig_err {bs : U32} {t : State} {k : ErrKind} {info : Option ErrInfo}
    (h : exec (.txConfig bs) s = .next t) (herr : t.txRsp = some (.err k info)) :
    k = .config ∧ t = s.setTxRsp (some (.err k info)) := by
  change execTxConfig bs s = .next t at h
  unfold execTxConfig at h
  split at h
  · unfold txConfigure at h
    split at h
    · cases h; cases herr; exact ⟨rfl, rfl⟩
    · cases h; cases herr
  all_goals cases h

/-- An error answer of a TX command: it changed nothing else, or TX failed (R207). -/
theorem txCommand_err {i : Instr} {t : State} {k : ErrKind} {info : Option ErrInfo}
    (hi : (∃ bs, i = .txConfig bs) ∨ (∃ data, i = .txWrite data) ∨ i = .txFlush ∨ i = .txFinish)
    (h : exec i s = .next t) (herr : t.txRsp = some (.err k info)) :
    (k = .config ∨ k = .format) ∧ t = s.setTxRsp (some (.err k info)) ∨
      ∃ s1, TxFailed s ⟨k, info⟩ s1 ∧ t = s1.setTxRsp (some (.err k info)) := by
  obtain ⟨bs, rfl⟩ | ⟨data, rfl⟩ | rfl | rfl := hi
  · exact .inl ((txConfig_err h herr).imp_left .inl)
  · exact (txGated_err (last := id) (.writeCommand data) ((Res.bind_pure _).symm ▸ h) herr).imp_left (.imp_left .inr)
  · exact (txGated_err (last := id) (fun _ => .flushCommand) ((Res.bind_pure _).symm ▸ h) herr).imp_left (.imp_left .inr)
  · refine (txGated_err (r := txFinishRun s) (last := fun s3 => s3.setTx { s3.tx with state := .finished })
      (fun _ => .finishCommand) ?_ herr).imp_left (.imp_left .inr)
    simp only [txFinishRun, Res.bind_assoc]
    exact h

end

/-! ### The end marker (R147) -/

/-- The marker's token, then its three fields, all zero. -/
theorem markerBytes_eq (sc : U4) : markerBytes sc = (0x10 ||| sc.setWidth 8) :: List.replicate 12 0 := by
  have hfields : le32Enc 0 ++ le32Enc 0 ++ le32Enc 0 = List.replicate 12 0 := by decide
  exact congrArg (_ :: ·) hfields

/-! ### The statements -/

/-- Settles O19: in Ready a command is no refusal (`executes_ofTx`); elsewhere the gate decides. -/
theorem txGatingTable : Obligations.TxGatingTable := by
  refine fun bs data s => ⟨fun hs => ⟨?_, ?_⟩, fun hs => ⟨?_, fun q => ?_⟩, fun hs => ⟨?_, ?_⟩,
    fun hs => ?_⟩
  · rw [exec_txConfig_of_unconfigured hs, txConfigure]
    split
    · exact ⟨_, rfl⟩
    · exact ⟨_, rfl⟩
  · simp [exec, execTxWrite, execTxFlush, execTxFinish, txGated, hs]
  · simp [exec, execTxConfig, hs]
  · exact ⟨executes_ofTx hs (by simp) q, executes_ofTx hs (by simp) q, executes_ofTx hs (by simp) q⟩
  · simp [exec, execTxConfig, hs]
  · exact ⟨txGated_of_finished hs _, txGated_of_finished hs _, txGated_of_finished hs _⟩
  · simp [exec, execTxConfig, execTxWrite, execTxFlush, execTxFinish, txGated, hs]

/-- Settles O20: `txConfig_of_legal`, and the two tests of TX.CONFIG. -/
theorem txConfigAcceptsExactlyTheLegalSizes : Obligations.TxConfigAcceptsExactlyTheLegalSizes := by
  refine ⟨fun bs d => rfl, fun bs s hs => ⟨fun hlegal => ?_, fun hrange => ?_, fun hmin hmax hpow => ?_⟩⟩
  · exact txConfig_of_legal hs ((legalBlockSize_iff _).mpr hlegal)
  · exact exec_txConfig_of_configError hs (configError_of_outOfRange hrange)
  · exact exec_txConfig_of_configError hs (configError_of_not_pow hmin hmax hpow)

/-- Settles O25: the three cases of the pending block, then the flush. -/
theorem txFlushEmitsThePendingBlock : Obligations.TxFlushEmitsThePendingBlock := by
  intro s hs hk
  have hexec := exec_txFlush hs
  by_cases he : s.tx.abuf = []
  · obtain ⟨k, hflush, hacc, hflushed, hreq, -⟩ := sinkFlush_of_cooperates s hk
    rw [txEmitPending, if_pos he, Res.bind_ok, hflush] at hexec
    refine ⟨_, hexec, ⟨rfl, rfl, rfl, rfl⟩, rfl, fun _ => ?_, fun hne => absurd he hne, fun hne => absurd he hne⟩
    exact ⟨rfl, rfl, hacc, hflushed.trans (congrArg _ hacc.symm), hreq, rfl⟩
  · rw [txEmitPending_of_ne_nil he] at hexec
    cases hcomp : Config.compress s.tx.abuf with
    | bytes c =>
      obtain ⟨k1, hemit, happ, hk1⟩ := txEmit_of_cooperates hk hcomp
      obtain ⟨k2, hflush, hacc, hflushed, hreq, -⟩ := sinkFlush_of_cooperates ((s.setSink k1).setTx _) hk1
      rw [hemit, Res.bind_ok, hflush] at hexec
      refine ⟨_, hexec, ⟨rfl, rfl, rfl, rfl⟩, rfl, fun hnil => absurd hnil he, fun _ => ?_, nofun⟩
      rintro _ ⟨⟩
      refine ⟨rfl, ?_, hflushed.trans (congrArg _ hacc.symm),
        hreq.trans (congrArg (· + 1) happ.flushRequests), rfl, rfl⟩
      rw [List.append_assoc]
      exact hacc.trans happ.accepted
    | error e =>
      rw [txEmit_of_backendError hcomp] at hexec
      refine ⟨_, hexec, ⟨rfl, rfl, rfl, rfl⟩, rfl, fun hnil => absurd hnil he, nofun, fun _ => ?_⟩
      rintro _ ⟨⟩
      exact ⟨rfl, rfl, rfl⟩

/-- Settles O26: the three cases of the pending block, then the marker and the flush. -/
theorem txFinishEndsTheContainer : Obligations.TxFinishEndsTheContainer := by
  intro s hs hk
  have hexec := exec_txFinish hs
  by_cases he : s.tx.abuf = []
  · obtain ⟨k, hend, hacc, hflushed, hreq⟩ := txMarker_flush_of_cooperates hk
    rw [txEmitPending, if_pos he, Res.bind_ok, hend] at hexec
    refine ⟨_, hexec, ⟨rfl, rfl, rfl, rfl⟩, rfl, fun _ => ?_, fun hne => absurd he hne, fun hne => absurd he hne⟩
    exact ⟨rfl, hacc, hflushed, hreq, rfl, rfl⟩
  · rw [txEmitPending_of_ne_nil he] at hexec
    cases hcomp : Config.compress s.tx.abuf with
    | bytes c =>
      obtain ⟨k1, hemit, happ, hk1⟩ := txEmit_of_cooperates hk hcomp
      obtain ⟨k2, hend, hacc, hflushed, hreq⟩ := txMarker_flush_of_cooperates (s := (s.setSink k1).setTx _) hk1
      rw [hemit, Res.bind_ok, hend] at hexec
      refine ⟨_, hexec, ⟨rfl, rfl, rfl, rfl⟩, rfl, fun hnil => absurd hnil he, fun _ => ?_, nofun⟩
      rintro _ ⟨⟩
      refine ⟨rfl, ?_, hflushed, hreq.trans (congrArg (· + 1) happ.flushRequests), ?_, rfl⟩
      · simpa [happ.accepted, prologueDue, Tx.emitted] using hacc
      · simp [prologueDue, Tx.emitted, Nat.add_assoc]
    | error e =>
      rw [txEmit_of_backendError hcomp] at hexec
      refine ⟨_, hexec, ⟨rfl, rfl, rfl, rfl⟩, rfl, fun hnil => absurd hnil he, nofun, fun _ => ?_⟩
      rintro _ ⟨⟩
      exact ⟨rfl, rfl, rfl⟩

/-- Settles O29 by `txMarker_of_cooperates`. -/
theorem txMarkerPutsThirteenBytes : Obligations.TxMarkerPutsThirteenBytes := by
  intro s hs hk
  have hexec : exec .txMarker s = opAnswer (fun _ => .done) (txMarker s) := if_pos hs
  obtain ⟨k, hrun, happ, -⟩ := txMarker_of_cooperates s hk
  have hacc := happ.accepted
  rw [← List.append_assoc, markerBytes_eq] at hacc
  refine ⟨_, hexec.trans (opAnswer_of_ok hrun), rfl, hacc, happ.flushRequests, ?_, ⟨rfl, rfl, rfl, rfl⟩, rfl⟩
  simp [Tx.moved, Tx.prologuePut, Config.headerLen, Nat.add_assoc]

/-- Settles O30 by `txCommand_err`: the two ways out exclude each other by the error's kind. -/
theorem txErrorEntry : Obligations.TxErrorEntry := by
  intro i s t k info hi hexec herr
  obtain ⟨hk, rfl⟩ | ⟨s1, ⟨hk, sink, p, n, hacc, hn, rfl⟩, rfl⟩ := txCommand_err hi hexec herr
  · refine ⟨fun _ => rfl, fun hfatal => ?_, ?_⟩
    · obtain rfl | rfl := hk <;> simp at hfatal
    · obtain rfl | rfl := hk <;> decide
  · dsimp only at hk
    refine ⟨fun hmild => ?_, fun _ => ⟨rfl, ?_, rfl, rfl, ?_, ?_⟩, ?_⟩
    · obtain rfl | rfl := hk <;> simp at hmild
    · exact ⟨p, hacc.symm⟩
    · simp
    · simpa [hacc] using hn
    · obtain rfl | rfl := hk <;> decide

end Sys2Proof.Machine
end

section
/-! PROOFS. RX on a payload and on a whole record: the wire records, RX.PAYLOAD and RX.REFILL (R173 to R179, R203 to
R205). -/

namespace Sys2Proof.Machine

section
variable {s : State}

/-! ### The operations and records as runs (R89, R177, R178) -/

theorem exec_rxInit (hs : s.rx.state = .uninitialized) : exec .rxInit s = opAnswer (fun _ => .done) (rxInit s) :=
  whenRx_of_mem (by simp [hs]) _

theorem exec_rxPayload {m : Method} {clen olen : U32} (csum : U32) (hs : s.rx.state = .idle)
    (hd : dataLengths m clen olen = true) :
    exec (.rxPayload m clen olen csum) s = opAnswer (fun _ => .done) (rxPayload m clen olen csum s) :=
  (whenRx_of_mem (by simp [hs]) _).trans (whenOperands_of_true hd _)

/-- The BLK.RAW record and RX.PAYLOAD with its fields are one run (R177). -/
theorem exec_blkRaw {sc : U4} {len csum : U32} (hs : s.rx.state = .idle)
    (hwf : WellFormed (.blkRaw sc len csum) = true) :
    exec (.blkRaw sc len csum) s = opAnswer (fun _ => .done) (rxPayload .raw len len csum s) ∧
      exec (.rxPayload .raw len len csum) s = opAnswer (fun _ => .done) (rxPayload .raw len len csum s) := by
  obtain ⟨hd, -⟩ := Bool.and_eq_true_iff.mp hwf
  exact ⟨(whenRx_of_mem (by simp [hs]) _).trans (whenOperands_of_true hwf _), exec_rxPayload csum hs hd⟩

/-- The BLK.LZ4 record and RX.PAYLOAD with its fields are one run (R178). -/
theorem exec_blkLz4 {sc : U4} {clen olen csum : U32} (hs : s.rx.state = .idle)
    (hwf : WellFormed (.blkLz4 sc clen olen csum) = true) :
    exec (.blkLz4 sc clen olen csum) s = opAnswer (fun _ => .done) (rxPayload .lz4 clen olen csum s) ∧
      exec (.rxPayload .lz4 clen olen csum) s = opAnswer (fun _ => .done) (rxPayload .lz4 clen olen csum s) := by
  obtain ⟨hd, -⟩ := Bool.and_eq_true_iff.mp hwf
  exact ⟨(whenRx_of_mem (by simp [hs]) _).trans (whenOperands_of_true hwf _), exec_rxPayload csum hs hd⟩

/-! ### The payload (R177 to R179) -/

/-- RX.PAYLOAD on a payload that is there fetches it whole and reconstructs its block (R177, R178). -/
theorem rxPayload_of_append {payload tail : Bytes} {clen : U32} (m : Method) (olen csum : U32)
    (hcoop : s.source.cooperates) (hrest : s.source.rest = payload ++ tail) (hl : payload.length = clen.toNat) :
    ∃ src : Source, src.rest = tail ∧ rxPayload m clen olen csum s =
      rxReconstruct m payload olen csum ((s.setSource src).setRx (s.rx.moved clen.toNat)) := by
  obtain ⟨src, htail, -, hget⟩ := srcGet_of_append hcoop hrest
  exact ⟨src, htail, by rw [rxPayload, ← hl, hget, Res.bind_ok]⟩

/-- RX.PAYLOAD on a source that ends first consumes what is left and raises TruncationError (R204). -/
theorem rxPayload_of_short {clen : U32} (m : Method) (olen csum : U32) (hcoop : s.source.cooperates)
    (hlt : s.source.rest.length < clen.toNat) :
    ∃ src : Source, src.rest = [] ∧ rxPayload m clen olen csum s =
      raising .rx .truncation (some .midPayload) ((s.setSource src).setRx (s.rx.moved s.source.rest.length)) := by
  obtain ⟨src, hrest, -, hget⟩ := srcGet_of_cooperates clen.toNat s hcoop
  rw [if_neg (Nat.not_le.mpr hlt), Nat.min_eq_right hlt.le] at hget
  exact ⟨src, by rw [hrest, List.drop_eq_nil_of_le hlt.le], by rw [rxPayload, hget, Res.bind_ok]⟩

theorem rxLoad_of_match {orig : Bytes} {csum : U32} (hsum : hash32 orig = csum) (s : State) :
    rxLoad orig csum s = .ok () (s.setRx (s.rx.loadedWith orig)) := rxLoad_ok_iff.mpr ⟨hsum, rfl⟩

/-- A mismatch raises CorruptionError, and nothing is loaded (R179, R203). -/
theorem rxLoad_of_mismatch {orig : Bytes} {csum : U32} (hsum : hash32 orig ≠ csum) (s : State) :
    rxLoad orig csum s = raising .rx .corruption none s := by
  rw [rxLoad, ckVerify, if_neg hsum]

/-- Verification run to its answer: the block is loaded, or RX has failed with the buffer empty (R179, R203). -/
theorem opAnswer_rxLoad (orig : Bytes) (csum : U32) (s : State) :
    ∃ t, opAnswer (fun _ => .done) (rxLoad orig csum s) = .next t ∧ t.source = s.source ∧ sameOutsideRx s t ∧
      t.rxRsp = s.rxRsp ∧ (hash32 orig = csum → t.opResult = .done ∧ t.rx = s.rx.loadedWith orig) ∧
      (hash32 orig ≠ csum → t.opResult = .raised ⟨.corruption, none⟩ ∧ t.rx = s.rx.failedWith .corruption) := by
  by_cases hsum : hash32 orig = csum
  · exact ⟨_, opAnswer_of_ok (rxLoad_of_match hsum s), rfl, ⟨rfl, rfl, rfl, rfl, rfl⟩, rfl, fun _ => ⟨rfl, rfl⟩,
      fun hne => absurd hsum hne⟩
  · exact ⟨_, opAnswer_of_raised (rxLoad_of_mismatch hsum s), rfl, ⟨rfl, rfl, rfl, rfl, rfl⟩, rfl,
      fun heq => absurd heq hsum, fun _ => ⟨rfl, rfl⟩⟩

theorem rxReconstruct_lz4_of_backendError {payload : Bytes} {olen : U32} {e : Config.BackendError}
    (h : Config.decompress payload olen.toNat = .error e) (csum : U32) (s : State) :
    rxReconstruct .lz4 payload olen csum s = raising .rx .backend (some (.backendError e)) s := by
  simp only [rxReconstruct, h]

theorem rxReconstruct_lz4_of_wrongLength {payload d : Bytes} {olen : U32}
    (h : Config.decompress payload olen.toNat = .bytes d) (hl : d.length ≠ olen.toNat) (csum : U32) (s : State) :
    rxReconstruct .lz4 payload olen csum s = raising .rx .backend (some .inconsistentLength) s := by
  simp only [rxReconstruct, h, if_pos hl]

/-- A block of the expected length is verified over the decompressed bytes (R178, R179). -/
theorem rxReconstruct_lz4_of_length {payload d : Bytes} {olen : U32}
    (h : Config.decompress payload olen.toNat = .bytes d) (hl : d.length = olen.toNat) (csum : U32) (s : State) :
    rxReconstruct .lz4 payload olen csum s = rxLoad d csum s := by
  simp only [rxReconstruct, h, if_neg (not_not.mpr hl)]

/-- One of the three forms that fetch `clen` bytes of payload (R177, R178). -/
theorem exec_payloadForm {i : Instr} {clen : U32} (hs : s.rx.state = .idle)
    (hi : (∃ m olen csum, i = .rxPayload m clen olen csum) ∨ (∃ sc csum, i = .blkRaw sc clen csum) ∨
      (∃ sc olen csum, i = .blkLz4 sc clen olen csum)) (hwf : WellFormed i = true) :
    ∃ m olen csum, exec i s = opAnswer (fun _ => .done) (rxPayload m clen olen csum s) := by
  obtain ⟨m, olen, csum, rfl⟩ | ⟨sc, csum, rfl⟩ | ⟨sc, olen, csum, rfl⟩ := hi
  · exact ⟨_, _, _, exec_rxPayload csum hs hwf⟩
  · exact ⟨_, _, _, (exec_blkRaw hs hwf).1⟩
  · exact ⟨_, _, _, (exec_blkLz4 hs hwf).1⟩

/-! ### A whole record (R174) -/

/-- A header that selects BLK.RAW is `Data` of the record's one length (R85, R117). -/
theorem hdrClassify_of_selects_blkRaw {h : Header} {sc : U4} {len csum : U32}
    (hsel : h.Selects (.blkRaw sc len csum)) : hdrClassify h = .data .raw len len csum := by
  cases hsel with
  | raw hv =>
    obtain ⟨-, -, -, -, -, hd⟩ := hdrClassify_data hv
    rw [hv, eq_of_dataLengths_raw hd]

/-- RX.REFILL on the header of a RAW record whose checksum matches loads the payload (R177, R179). -/
theorem rxRefill_of_blkRaw {h payload tail : Bytes} {sc : U4} {len csum : U32} (hcoop : s.source.cooperates)
    (hrest : s.source.rest = h ++ (payload ++ tail)) (hdec : decode (.wireRecord h) = .ok (.blkRaw sc len csum))
    (hl : payload.length = len.toNat) (hsum : hash32 payload = csum) :
    ∃ src : Source, src.rest = tail ∧
      rxRefill s = .ok () ((s.setSource src).setRx ((s.rx.moved (13 + len.toNat)).loadedWith payload)) := by
  obtain ⟨hh, hsel⟩ := decodeRecord_eq_ok_iff.mp hdec
  obtain ⟨src1, hr1, hc1, hrefill⟩ := rxRefill_of_header hcoop hrest hh
  obtain ⟨src2, hr2, hpayload⟩ := rxPayload_of_append (clen := len)
    (s := (s.setSource src1).setRx (s.rx.moved Config.headerLen)) .raw len csum hc1 hr1 hl
  refine ⟨src2, hr2, ?_⟩
  rw [hrefill, rxHeader, hdrClassify_of_selects_blkRaw hsel]
  dsimp only
  rw [hpayload, rxReconstruct, rxLoad_of_match hsum]
  congr 1
  apply State.eq_of_components <;> simp [Config.headerLen]

/-- RX.REFILL on the header of an end marker ends the stream (R176). -/
theorem rxRefill_of_endMarker {h tail : Bytes} {sc : U4} (hcoop : s.source.cooperates)
    (hrest : s.source.rest = h ++ tail) (hdec : decode (.wireRecord h) = .ok (.endMarker sc)) :
    ∃ src : Source, src.rest = tail ∧ rxRefill s = .ok () (rxMarker ((s.setSource src).setRx (s.rx.moved 13))) := by
  obtain ⟨hh, hsel⟩ := decodeRecord_eq_ok_iff.mp hdec
  cases hsel with
  | marker hv =>
    obtain ⟨src, hr, -, hrefill⟩ := rxRefill_of_header hcoop hrest hh
    exact ⟨src, hr, by rw [hrefill, rxHeader, hv]; rfl⟩

end

/-! ### The statements -/

/-- Settles O37: a fetched prologue and a fetched marker are one change of RX.STATE, behind their gate. -/
theorem prologueAndMarkerRecords : Obligations.PrologueAndMarkerRecords := fun _ _ =>
  ⟨fun hs => whenRx_of_mem (by simp [hs]) _, fun hs => whenRx_of_mem (by simp [hs]) _⟩

/-- Settles O36 by `rxRefill_of_endMarker` and `rxRefill_of_blkRaw`. -/
theorem rxRefillFetchesOneRecord : Obligations.RxRefillFetchesOneRecord := by
  intro h rest s hs hcoop hrest hh
  refine ⟨fun sc hdec => ?_, fun sc len csum payload tail hdec hsplit hl hsum => ?_⟩
  · obtain ⟨src, hr, hrefill⟩ := rxRefill_of_endMarker hcoop hrest hdec
    exact ⟨_, (exec_rxRefill hs).trans (opAnswer_of_ok hrefill), rfl, hr, rfl, ⟨rfl, rfl, rfl, rfl, rfl⟩, rfl⟩
  · obtain ⟨src, hr, hrefill⟩ := rxRefill_of_blkRaw hcoop (hsplit ▸ hrest) hdec hl hsum
    exact ⟨_, (exec_rxRefill hs).trans (opAnswer_of_ok hrefill), rfl, hr,
      congrArg (Rx.mk _ _ _ _) (Nat.add_assoc _ _ _).symm, ⟨rfl, rfl, rfl, rfl, rfl⟩, rfl⟩

/-- Settles O38: the fetched payload is the block itself, and its checksum decides (`opAnswer_rxLoad`). -/
theorem rawBlockIsVerifiedThenLoaded : Obligations.RawBlockIsVerifiedThenLoaded := by
  intro sc len csum payload tail s hs hcoop hwf hrest hl
  obtain ⟨hrecord, hoperation⟩ := exec_blkRaw hs hwf
  obtain ⟨src, hr, hrun⟩ := rxPayload_of_append .raw len csum hcoop hrest hl
  rw [hrun, rxReconstruct] at hrecord hoperation
  obtain ⟨t, hans, hsource, hframe, hrsp, hcases⟩ := opAnswer_rxLoad payload csum _
  exact ⟨t, hrecord.trans hans, hoperation.trans hans, by rw [hsource]; exact hr, hframe, hrsp, hcases⟩

/-- Settles O39: the backend's answer, then the length, then the checksum decide, in this order (R211). -/
theorem lz4BlockIsDecompressedThenVerified : Obligations.Lz4BlockIsDecompressedThenVerified := by
  intro sc clen olen csum payload tail s hs hcoop hwf hrest hl
  obtain ⟨hrecord, hoperation⟩ := exec_blkLz4 hs hwf
  obtain ⟨src, hr, hrun⟩ := rxPayload_of_append .lz4 olen csum hcoop hrest hl
  rw [hrun] at hrecord hoperation
  cases hdec : Config.decompress payload olen.toNat with
  | error e =>
    rw [rxReconstruct_lz4_of_backendError hdec] at hrecord hoperation
    refine ⟨_, hrecord, hoperation, hr, ⟨rfl, rfl, rfl, rfl, rfl⟩, rfl, ?_, nofun⟩
    rintro _ ⟨⟩
    exact ⟨rfl, rfl⟩
  | bytes d =>
    by_cases hlen : d.length = olen.toNat
    · rw [rxReconstruct_lz4_of_length hdec hlen] at hrecord hoperation
      obtain ⟨t, hans, hsource, hframe, hrsp, hmatch, hmismatch⟩ := opAnswer_rxLoad d csum _
      refine ⟨t, hrecord.trans hans, hoperation.trans hans, by rw [hsource]; exact hr, hframe, hrsp, nofun, ?_⟩
      rintro _ ⟨⟩
      exact ⟨fun hne => absurd hlen hne, fun _ => hmismatch, fun _ => hmatch⟩
    · rw [rxReconstruct_lz4_of_wrongLength hdec hlen] at hrecord hoperation
      refine ⟨_, hrecord, hoperation, hr, ⟨rfl, rfl, rfl, rfl, rfl⟩, rfl, nofun, ?_⟩
      rintro _ ⟨⟩
      exact ⟨fun _ => ⟨rfl, rfl⟩, fun heq => absurd heq hlen, fun heq => absurd heq hlen⟩

/-- Settles O40: the three forms run RX.PAYLOAD, which `rxPayload_of_short` ends. -/
theorem shortPayloadIsTruncationError : Obligations.ShortPayloadIsTruncationError := by
  intro i clen s hs hcoop hi hwf hlt
  obtain ⟨m, olen, csum, hexec⟩ := exec_payloadForm hs hi hwf
  obtain ⟨src, hr, hrun⟩ := rxPayload_of_short m olen csum hcoop hlt
  exact ⟨_, hexec.trans (opAnswer_of_raised hrun), rfl, hr, rfl, ⟨rfl, rfl, rfl, rfl, rfl⟩, rfl⟩

end Sys2Proof.Machine
end

section
/-! PROOFS. RX.INIT (R173) and RX.READ (R170, R212): what it answers by RX.STATE and by its fetch. -/

namespace Sys2Proof.Machine

section
variable {s : State}

/-! ### RX.INIT (R173) -/

/-- RX.INIT of a source that answers: the next eight bytes decide, and a shorter rest is not MAGIC (R173). -/
theorem rxInit_of_cooperates (hcoop : s.source.cooperates) :
    ∃ src : Source, src.rest = s.source.rest.drop 8 ∧
      rxInit s = if s.source.rest.take 8 = magic
        then .ok () (rxPrologueRead ((s.setSource src).setRx (s.rx.moved (min 8 s.source.rest.length))))
        else raising .rx .format (some (if s.source.rest.length < 8 then .shortPrologue else .badMagic))
          ((s.setSource src).setRx (s.rx.moved (min 8 s.source.rest.length))) := by
  obtain ⟨src, hrest, -, hget⟩ := srcGet_of_cooperates 8 s hcoop
  refine ⟨src, hrest, ?_⟩
  have hrun : rxInit s = _ := congrArg (Res.bind · _) hget
  rw [hrun, Res.bind_ok]
  by_cases hlt : s.source.rest.length < 8
  · have hne : s.source.rest.take 8 ≠ magic := fun heq => by
      have hlen := congrArg List.length heq
      simp [Config.magicLen] at hlen
      omega
    rw [if_neg (Nat.not_le.mpr hlt), if_neg hne, if_pos hlt]
  · rw [if_pos (Nat.not_lt.mp hlt), if_neg hlt]

/-! ### Delivery (R170) -/

/-- RX.READ that leaves bytes undelivered moves the cursor past those it answers. -/
theorem rxAnswer_of_undelivered {n : Nat} (hs : s.rx.state = .decodingBlock)
    (hlt : s.rx.dcur + min n (s.rx.dbuf.length - s.rx.dcur) < s.rx.dbuf.length) :
    rxAnswer n (.ok () s) =
      .next ((s.setRx { s.rx with dcur := s.rx.dcur + min n (s.rx.dbuf.length - s.rx.dcur) }).setRxRsp
        (some (.data ((s.rx.dbuf.drop s.rx.dcur).take (min n (s.rx.dbuf.length - s.rx.dcur)))))) := by
  simp [rxAnswer, hs, rxDeliver, hlt.ne, memRead]

/-- RX.READ that delivers the last byte empties the buffer and goes Idle. -/
theorem rxAnswer_of_drained {n : Nat} (hs : s.rx.state = .decodingBlock)
    (heq : s.rx.dcur + min n (s.rx.dbuf.length - s.rx.dcur) = s.rx.dbuf.length) :
    rxAnswer n (.ok () s) =
      .next ((s.setRx { s.rx with state := .idle, dbuf := [], dcur := 0 }).setRxRsp
        (some (.data ((s.rx.dbuf.drop s.rx.dcur).take (min n (s.rx.dbuf.length - s.rx.dcur)))))) := by
  simp only [rxAnswer, hs, rxDeliver, heq, memRead, reduceCtorEq, if_false, if_true]

/-- RX.READ from a block just loaded answers its first bytes. -/
theorem rxAnswer_of_loaded (n : Nat) (hs : s.rx.state = .decodingBlock) (hcur : s.rx.dcur = 0) :
    rxAnswer n (.ok () s) = .next ((s.setRx (if n < s.rx.dbuf.length then { s.rx with dcur := n }
      else { s.rx with state := .idle, dbuf := [], dcur := 0 })).setRxRsp (some (.data (s.rx.dbuf.take n)))) := by
  have htake : (s.rx.dbuf.drop s.rx.dcur).take (min n (s.rx.dbuf.length - s.rx.dcur)) = s.rx.dbuf.take n := by
    simp [hcur]
  split_ifs with hlt
  · rw [rxAnswer_of_undelivered hs (by omega), htake,
      show s.rx.dcur + min n (s.rx.dbuf.length - s.rx.dcur) = n by omega]
  · rw [rxAnswer_of_drained hs (by omega), htake]

theorem rxAnswer_of_terminated (n : Nat) (hs : s.rx.state = .terminated) :
    rxAnswer n (.ok () s) = .next (s.setRxRsp (some .endOfInput)) := if_pos hs

/-! ### The fetch as one instruction and inside RX.READ (R170) -/

/-- The run behind an operation that answered: all but `opResult` is what the run left (log entry 7). -/
theorem run_of_opAnswer_done {r : Res Unit} {u : State} (hpost : RxPost s r)
    (h : opAnswer (fun _ => .done) r = .next u) :
    (∃ e, u.opResult = .raised e ∧ r = .raised e (u.setOpResult s.opResult)) ∨
      u.opResult = .done ∧ r = .ok () (u.setOpResult s.opResult) := by
  cases r with
  | ok _ s1 =>
    obtain ⟨b, hmoved⟩ := hpost
    cases h
    exact .inr ⟨rfl, by rw [← hmoved.opResult_eq]; rfl⟩
  | raised e s1 =>
    have hop := RxFailed.opResult_eq hpost
    cases h
    exact .inl ⟨e, rfl, by rw [← hop]; rfl⟩
  | stuck f => cases h

theorem opAnswer_eq_fault_iff {α : Type} {g : α → OpResult} {r : Res α} {f : Fault} :
    opAnswer g r = .fault f ↔ r = .stuck f := by
  cases r <;> simp [opAnswer]

theorem exec_rxRead_uninitialized {n : Nat} (hn : 1 ≤ n) (hs : s.rx.state = .uninitialized) :
    exec (.rxRead n) s =
      rxAnswer n ((rxInit s).bind fun _ s1 => if s1.rx.state = .idle then rxRefill s1 else .ok () s1) := by
  rw [rxRead_fetches hn (.inl hs), rxFetch, if_pos hs]

end

/-! ### The statements -/

/-- Settles O32 by `rxInit_of_cooperates`. -/
theorem rxInitDetectsThePrologue : Obligations.RxInitDetectsThePrologue := by
  intro s hs hcoop
  obtain ⟨src, hrest, hrun⟩ := rxInit_of_cooperates hcoop
  by_cases hmagic : s.source.rest.take 8 = magic
  · rw [if_pos hmagic] at hrun
    have hlen : min 8 s.source.rest.length = 8 := List.length_take.symm.trans (congrArg List.length hmagic)
    refine ⟨_, (exec_rxInit hs).trans (opAnswer_of_ok hrun), ⟨rfl, rfl, rfl, rfl, rfl⟩, rfl, hrest, rfl,
      fun _ => ⟨rfl, ?_⟩, fun hne => absurd hmagic hne⟩
    simp [rxPrologueRead, Rx.moved, hlen]
  · rw [if_neg hmagic] at hrun
    exact ⟨_, (exec_rxInit hs).trans (opAnswer_of_raised hrun), ⟨rfl, rfl, rfl, rfl, rfl⟩, rfl, hrest, rfl,
      fun heq => absurd heq hmagic, fun _ => ⟨rfl, rfl, rfl, rfl, rfl⟩⟩

/-- Settles O41: in DecodingBlock nothing is fetched, and the delivery drains the buffer or does not. -/
theorem rxReadDeliversFromTheBuffer : Obligations.RxReadDeliversFromTheBuffer := by
  intro n s hn hs hcur k out
  have hexec : exec (.rxRead n) s = rxAnswer n (.ok () s) := by
    rw [rxRead_fetches hn (.inr (.inr hs)), rxFetch_of_decodingBlock hs]
  have hout : out.length = k := by simp [out, k]
  refine ⟨by omega, by omega, fun hlt => ?_, fun heq => ?_⟩
  · exact hexec.trans (rxAnswer_of_undelivered hs hlt)
  · exact hexec.trans (rxAnswer_of_drained hs heq)

/-- Settles O42: RX.READ tests `n`, then RX.STATE, before it would fetch. -/
theorem rxReadInTerminalStates : Obligations.RxReadInTerminalStates := by
  refine fun n k s => ⟨fun hn hs => ?_, fun hn hs herr => ?_, rfl⟩
  · simp [exec, execRxRead, Nat.one_le_iff_ne_zero.mp hn, hs]
  · simp [exec, execRxRead, Nat.one_le_iff_ne_zero.mp hn, hs, rxLatched, herr]

/-- Settles O43: RX.READ fetches by the run of RX.INIT or RX.REFILL (`run_of_opAnswer_done`) and then delivers. -/
theorem rxReadFetchesARawBlock : Obligations.RxReadFetchesARawBlock := by
  refine ⟨?_, ?_, ?_, fun n f s hn => ⟨fun hs hexec => ?_, fun hs hexec => ?_⟩⟩
  · intro n h payload tail sc len csum s hn hs hcoop hrest hh hdec hl hsum
    obtain ⟨src, hr, hrefill⟩ := rxRefill_of_blkRaw hcoop (by rw [hrest, List.append_assoc]) hdec hl hsum
    have hexec := exec_rxRead_idle hn hs
    rw [hrefill, rxAnswer_of_loaded n rfl rfl] at hexec
    refine ⟨_, hexec, rfl, hr, ?_, ⟨rfl, rfl, rfl, rfl, rfl⟩, rfl⟩
    simp [hl, Rx.loadedWith, Rx.moved, Nat.add_assoc]
  · intro n s u hn hs hexec fetched
    rw [exec_rxRead_idle hn hs]
    rw [exec_rxRefill hs] at hexec
    obtain ⟨e, hop, hrun⟩ | ⟨hop, hrun⟩ := run_of_opAnswer_done (rxRefill_rxPost s) hexec
    · exact .inl ⟨e, hop, by rw [hrun]; rfl⟩
    · obtain hend | ⟨hdec, hcur, hpos⟩ := rxRefill_ok hrun
      · exact .inr (.inl ⟨hop, hend, by rw [hrun, rxAnswer_of_terminated n hend]⟩)
      · exact .inr (.inr ⟨hop, hdec, hcur, hpos, by rw [hrun, rxAnswer_of_loaded n hdec hcur]; rfl⟩)
  · intro n s u hn hs hexec fetched
    rw [exec_rxInit hs] at hexec
    obtain ⟨e, hop, hrun⟩ | ⟨hop, hrun⟩ := run_of_opAnswer_done (rxInit_rxPost s) hexec
    · exact .inl ⟨e, hop, by rw [exec_rxRead_uninitialized hn hs, hrun]; rfl⟩
    · exact .inr ⟨hop, (rxInit_ok hrun :), rxRead_of_init hn hs hrun⟩
  · rw [exec_rxRefill hs, opAnswer_eq_fault_iff] at hexec
    rw [exec_rxRead_idle hn hs, hexec]
    rfl
  · rw [exec_rxInit hs, opAnswer_eq_fault_iff] at hexec
    rw [exec_rxRead_uninitialized hn hs, hexec]
    rfl

/-- Settles O44: RX.INIT consumes MAGIC, RX.REFILL the marker (`rxInit_of_magic`, `rxRefill_of_marker`). -/
theorem emptyContainerIsEndOfInput : Obligations.EmptyContainerIsEndOfInput := by
  intro n sc tail s hn hs hcoop hrest
  rw [List.append_assoc, ← markerBytes_eq] at hrest
  obtain ⟨src1, hr1, hc1, hinit⟩ := rxInit_of_magic hcoop hrest
  obtain ⟨src2, hr2, hrefill⟩ := rxRefill_of_marker
    (s := rxPrologueRead ((s.setSource src1).setRx (s.rx.moved magic.length))) hc1 hr1
  have hexec := rxRead_fetches hn (.inl hs)
  rw [rxFetch_of_init hs hinit, hrefill, rxAnswer_of_terminated n rfl] at hexec
  exact ⟨_, hexec, rfl, hr2, rfl, ⟨rfl, rfl, rfl, rfl, rfl⟩, rfl⟩

end Sys2Proof.Machine
end
